-- ==== Sys2Proof/Word.lean ====
section
/-! DEFINITION. The word types of the core: 32-bit words (00_scope.md R11, 20_memory.md R46) and
16-bit LFSR lanes (10_state.md R35). Bits are numbered from 0 at the least significant bit (R10). -/

namespace Sys2Proof

/-- A 32-bit word: a command word, a data word, or a binary32 pattern (R11, R46, R60). -/
abbrev Word := BitVec 32

/-- A byte of a byte transport (R46). -/
abbrev Byte := BitVec 8

/-- One 16-bit LFSR lane (R35). -/
abbrev Lane := BitVec 16

/-- The seed of an oscillator reset: one value per lane (R101, R141). -/
abbrev Seed := Vector Lane 8

/-- The pattern of `+0.0` (R11). -/
abbrev posZero : Word := 0#32

end Sys2Proof
end

