-- ==== Sys2Proof/Syntax.lean ====
section
/-! DEFINITION. The commands of the core, one constructor per row of spec/opcode_table.json
(30_encoding.md R65), with their operands as the assembler syntax of R70 writes them. -/

namespace Sys2Proof

/-- The corner of a grid cell; `CORNER` 0, 1, 2, 3 of R64 in this order. -/
inductive Corner where
  /-- lower-left -/
  | LL
  /-- lower-right -/
  | LR
  /-- upper-left -/
  | UL
  /-- upper-right -/
  | UR
  deriving DecidableEq, Repr

/-- The component of a grid vertex; `COMP` 0, 1 of R64 in this order. -/
inductive Comp where
  | X
  | Y
  deriving DecidableEq, Repr

/-- A command. An operand whose every field value is valid (R64: channel, cell, corner, component,
lane) has a type of exactly those values. An operand whose field also holds values the command
rejects, clamps or finds reserved (`OUT`, `IN`, `IDX`, `NIN`, `NOUT`, `LEN`, `SEL`) is a number, and
`WellFormed` says that it fits its field. -/
inductive Instr where
  /-- `NOP` (R119) -/
  | nop
  /-- `MM_SETC out, in, value` (R76) -/
  | mmSetc (outIdx inIdx : Nat) (value : Word)
  /-- `MM_GETC out, in` (R77) -/
  | mmGetc (outIdx inIdx : Nat)
  /-- `MM_SETCI idx, value` (R78) -/
  | mmSetci (idx : Nat) (value : Word)
  /-- `MM_GETCI idx` (R79) -/
  | mmGetci (idx : Nat)
  /-- `MM_BULK_BEGIN` (R80) -/
  | mmBulkBegin
  /-- `MM_BULK_PUSH value` (R81) -/
  | mmBulkPush (value : Word)
  /-- `MM_BULK_COMMIT` (R82) -/
  | mmBulkCommit
  /-- `MM_RESTORE_COMMIT` (R83) -/
  | mmRestoreCommit
  /-- `MM_SET_INPUT ch, value` (R84) -/
  | mmSetInput (ch : Fin 16) (value : Word)
  /-- `MM_TICK nin, nout` (R85) -/
  | mmTick (nin nout : Nat)
  /-- `MM_GET_OUTPUT ch` (R86) -/
  | mmGetOutput (ch : Fin 16)
  /-- `GO_SET_DT value` (R107) -/
  | goSetDt (value : Word)
  /-- `GO_TICK len, freq` (R108) -/
  | goTick (len : Int) (freq : Word)
  /-- `GO_ROW_ADVANCE` (R109) -/
  | goRowAdvance
  /-- `GO_GET_CELL cell, corner, comp` (R110) -/
  | goGetCell (cell : Fin 32) (corner : Corner) (comp : Comp)
  /-- `GO_GET_LFSR lane` (R111) -/
  | goGetLfsr (lane : Fin 8)
  /-- `GO_GET_STATUS sel` (R112) -/
  | goGetStatus (sel : Nat)
  deriving DecidableEq, Repr

end Sys2Proof
end

