-- ==== Sys2Proof/Config.lean ====
section
/-! DEFINITION. The open parameters of the core (00_scope.md R9) as plain data, with the defaults
the spec decides, the free values (`NAN_BITS`, R72), and the named seed of 95_test_vectors.md. -/

namespace Sys2Proof.Config

/-- `FLAT_INDEX_ORDER` (R9, R22). -/
inductive FlatIndexOrder where
  /-- flat index `16·out + in`, the default -/
  | outMajor
  /-- flat index `16·in + out` -/
  | inMajor
  deriving DecidableEq, Repr

/-- `ACC_INIT` (R9, R74). -/
inductive AccInit where
  /-- every lane starts at `+0.0`, the default -/
  | zero
  /-- every lane starts at the product of input 0 -/
  | firstProduct
  deriving DecidableEq, Repr

/-- `BYTE_ORDER` (R9, R46): only for byte serialisation of words. -/
inductive ByteOrder where
  /-- byte 0 holds bits 7:0, the default -/
  | little
  /-- byte 0 holds bits 31:24 -/
  | big
  deriving DecidableEq, Repr

/-- The sine ROM of 16 binary32 entries (R97). -/
abbrev SineLut := Vector Word 16

/-- The open parameters of R9. `NAN_BITS` is the free value `nanBits` below; `SEED` is an argument
of the oscillator reset. -/
structure Params where
  /-- `FLAT_INDEX_ORDER` (R22) -/
  flatIndexOrder : FlatIndexOrder
  /-- `FUSED_MAC` (R73) -/
  fusedMac : Bool
  /-- `FTZ` (R72) -/
  ftz : Bool
  /-- `ACC_INIT` (R74) -/
  accInit : AccInit
  /-- `SINE_LUT` (R97) -/
  sineLut : SineLut
  /-- `AUDIO_COMP` (R105) -/
  audioComp : Comp
  /-- `MAX_PHASE_INC`, a binary32 (R106) -/
  maxPhaseInc : Word
  /-- `ROW_ADVANCE_ON_WRAP` (R108) -/
  rowAdvanceOnWrap : Bool
  /-- `RESEAM_ON_ROW_ADVANCE` (R103) -/
  reseamOnRowAdvance : Bool
  /-- `PREFILL_ROWS`, 0, 1 or 2 (R141) -/
  prefillRows : Fin 3
  /-- `BYTE_ORDER` (R46) -/
  byteOrder : ByteOrder
  deriving DecidableEq, Repr

/-- The default sine table of R97 (general knowledge, not in the source: log 7). -/
def defaultSineLut : SineLut :=
  #v[0x00000000#32, 0x3EC3EF15#32, 0x3F3504F3#32, 0x3F6C835E#32,
     0x3F800000#32, 0x3F6C835E#32, 0x3F3504F3#32, 0x3EC3EF15#32,
     0x00000000#32, 0xBEC3EF15#32, 0xBF3504F3#32, 0xBF6C835E#32,
     0xBF800000#32, 0xBF6C835E#32, 0xBF3504F3#32, 0xBEC3EF15#32]

/-- The defaults of R9; `MAX_PHASE_INC` is 32.0 (`0x42000000`). -/
def Params.default : Params where
  flatIndexOrder := .outMajor
  fusedMac := false
  ftz := false
  accInit := .zero
  sineLut := defaultSineLut
  audioComp := .Y
  maxPhaseInc := 0x42000000#32
  rowAdvanceOnWrap := true
  reseamOnRowAdvance := true
  prefillRows := 2
  byteOrder := .little

/-- The two engines, each of which draws its own NaN patterns. -/
inductive Engine where
  | mixer
  | oscillator
  deriving DecidableEq, Repr

/-- FREE VALUE (`NAN_BITS`, R72; log 4). The sign bit and the 22 payload bits of the quiet NaN that
arithmetic operation number `site` of tick number `tick` of an engine produces, when its result is a
NaN. Nothing constrains it: "a draw from the quiet NaNs that a model must not fix to one value". -/
opaque nanBits (engine : Engine) (tick site : Nat) : BitVec 23

/-- `SEED_A`, the seed 95_test_vectors.md names; the seed of the power-up that `State.reset` is
(DESIGN CHOICE, log 6). -/
def seedA : Seed :=
  #v[0x0001#16, 0x0002#16, 0x0003#16, 0x0004#16, 0x1234#16, 0xACE1#16, 0xBEEF#16, 0xFFFF#16]

end Sys2Proof.Config
end

