-- ==== Sys2Proof/Machine/Float.lean ====
section
/-! DEFINITION. IEEE-754 binary32 as the spec uses it (00_scope.md R11, 40_matrix_mixer.md R72):
round to nearest, ties to even, one rounding per operation, overflow to infinity, subnormals kept
unless `FTZ`, and a NaN result whose pattern the caller supplies (`NAN_BITS`).

Every finite binary32 value is a whole number of units of 2^-149, so sums, products and comparisons
are computed exactly on integers and rounded once at the end. The bit layout and the rounding mode
are general knowledge the spec adopts (G1, G2 of 93_implementation_defined.md; log 5). -/

namespace Sys2Proof.Machine

/-- The sign, bit 31 (R11). -/
def fSign (w : Word) : Bool := decide (2 ^ 31 ≤ w.toNat)

/-- The exponent field, bits 30:23 (R11). -/
def fExp (w : Word) : Nat := w.toNat / 2 ^ 23 % 2 ^ 8

/-- The fraction field, bits 22:0 (R11). -/
def fFrac (w : Word) : Nat := w.toNat % 2 ^ 23

/-- `isNaN(v)` (R11). -/
def isNaN (w : Word) : Bool := decide (fExp w = 255) && decide (fFrac w ≠ 0)

/-- A positive or negative infinity. -/
def isInf (w : Word) : Bool := decide (fExp w = 255) && decide (fFrac w = 0)

/-- Neither a NaN nor an infinity. -/
def isFinite (w : Word) : Bool := decide (fExp w ≠ 255)

/-- A subnormal: exponent field 0 and a fraction. -/
def isSubnormal (w : Word) : Bool := decide (fExp w = 0) && decide (fFrac w ≠ 0)

/-- The magnitude of a finite value in units of 2^-149. An infinity gets 2^277, above every finite
value. -/
def fMag (w : Word) : Nat :=
  if fExp w = 0 then fFrac w else (2 ^ 23 + fFrac w) * 2 ^ (fExp w - 1)

/-- The signed value of a word that is not a NaN, in units of 2^-149. -/
def fVal (w : Word) : Int := if fSign w then -(fMag w : Int) else (fMag w : Int)

/-- A zero of either sign. -/
def isZero (w : Word) : Bool := decide (fMag w = 0)

/-- The zero of a sign. -/
def signedZero (neg : Bool) : Word := if neg then 0x80000000#32 else 0#32

/-- The infinity of a sign. -/
def signedInf (neg : Bool) : Word := if neg then 0xFF800000#32 else 0x7F800000#32

/-- `FTZ` on one operand or result: "every subnormal operand and result is replaced by a zero of the
same sign" when it is true (R72). -/
def flush (ftz : Bool) (w : Word) : Word :=
  if ftz && isSubnormal w then signedZero (fSign w) else w

/-- The quiet NaN with the given sign bit (bit 22 of the argument) and payload (log 5). -/
def quietNaN (bits : BitVec 23) : Word :=
  BitVec.ofNat 32 (bits.toNat / 2 ^ 22 * 2 ^ 31 + 0x7FC00000 + bits.toNat % 2 ^ 22)

/-- `n / d` rounded to a whole number, ties to even. -/
def roundHalfEven (n d : Nat) : Nat :=
  if 2 * (n % d) < d then n / d
  else if d < 2 * (n % d) then n / d + 1
  else n / d + n / d % 2

/-- How many low bits of the unit the result of magnitude `n / d` cannot hold: its 24 significant
bits start that far up. -/
def roundShift (n d : Nat) : Nat := Nat.log2 (n / d) - 23

/-- The binary32 pattern, without its sign, of the magnitude `n / d` units of 2^-149, rounded to
nearest with ties to even; an overflow gives the pattern of infinity (R72: "Overflow gives ±infinity,
never a saturated value"). The pattern of `r · 2^q` with 2^23 ≤ r ≤ 2^24 is `q · 2^23 + r`, also at
`q = 0` for a subnormal `r`. -/
def roundMag (n d : Nat) : Nat :=
  min (roundShift n d * 2 ^ 23 + roundHalfEven n (d * 2 ^ roundShift n d)) 0x7F800000

/-- The word of a sign and a magnitude pattern. -/
def withSign (neg : Bool) (pattern : Nat) : Word :=
  BitVec.ofNat 32 ((if neg then 2 ^ 31 else 0) + pattern)

/-- The exact signed quantity `v / d` units of 2^-149, rounded once. An exact zero has the sign
`zeroNeg`. -/
def roundSigned (zeroNeg : Bool) (v : Int) (d : Nat) : Word :=
  if v = 0 then signedZero zeroNeg else withSign (decide (v < 0)) (roundMag v.natAbs d)

/-- The sum of two operands that were flushed already, before its own flush. -/
def addCore (nan a b : Word) : Word :=
  if isNaN a || isNaN b then nan
  else if isInf a then (if isInf b && (fSign a != fSign b) then nan else a)
  else if isInf b then b
  else roundSigned (fSign a && fSign b) (fVal a + fVal b) 1

/-- `fadd(a, b)` (R11, R72), one rounding; `nan` is the pattern of a NaN result. -/
def fadd (ftz : Bool) (nan a b : Word) : Word :=
  flush ftz (addCore nan (flush ftz a) (flush ftz b))

/-- The same value with the other sign. -/
def fneg (w : Word) : Word := w ^^^ 0x80000000#32

/-- `fsub(a, b)` (R11), one rounding. -/
def fsub (ftz : Bool) (nan a b : Word) : Word := fadd ftz nan a (fneg b)

/-- The product of two operands that were flushed already, before its own flush. -/
def mulCore (nan a b : Word) : Word :=
  if isNaN a || isNaN b then nan
  else if isInf a || isInf b then
    (if isZero a || isZero b then nan else signedInf (fSign a != fSign b))
  else withSign (fSign a != fSign b) (roundMag (fMag a * fMag b) (2 ^ 149))

/-- `fmul(a, b)` (R11, R72), one rounding. -/
def fmul (ftz : Bool) (nan a b : Word) : Word :=
  flush ftz (mulCore nan (flush ftz a) (flush ftz b))

/-- `a·b + c` of three operands that were flushed already, before its own flush. -/
def fmaCore (nan a b c : Word) : Word :=
  if isNaN a || isNaN b || isNaN c then nan
  else if isInf a || isInf b then
    (if isZero a || isZero b then nan
     else if isInf c && ((fSign a != fSign b) != fSign c) then nan
     else signedInf (fSign a != fSign b))
  else if isInf c then c
  else roundSigned ((fSign a != fSign b) && fSign c) (fVal a * fVal b + fVal c * 2 ^ 149) (2 ^ 149)

/-- `ffma(a, b, c)` is `a·b + c` with one rounding (R11). -/
def ffma (ftz : Bool) (nan a b c : Word) : Word :=
  flush ftz (fmaCore nan (flush ftz a) (flush ftz b) (flush ftz c))

/-- The IEEE comparison `a < b`: false when an operand is a NaN (R11). -/
def flt (a b : Word) : Bool := !isNaN a && !isNaN b && decide (fVal a < fVal b)

/-- The IEEE comparison `a ≤ b` (R11). -/
def fle (a b : Word) : Bool := !isNaN a && !isNaN b && decide (fVal a ≤ fVal b)

/-- The IEEE comparison `a == b`: `-0.0 == +0.0`, false on a NaN (R11). -/
def feq (a b : Word) : Bool := !isNaN a && !isNaN b && decide (fVal a = fVal b)

/-- `f32(k)`, the binary32 value of an integer, exact for `|k| ≤ 2^24` (R11). -/
def f32 (k : Int) : Word := roundSigned false (k * 2 ^ 149) 1

/-- `floor(x)` of a finite value (R11). -/
def floorVal (w : Word) : Int := fVal w / 2 ^ 149

/-- The binary32 nearest to the decimal `digits · 10^exp10` (R70: "a decimal float literal rounded to
binary32 with round-to-nearest-even"). -/
def ofDecimal (neg : Bool) (digits : Nat) (exp10 : Int) : Word :=
  withSign neg (roundMag (digits * 10 ^ exp10.toNat * 2 ^ 149) (10 ^ (-exp10).toNat))

end Sys2Proof.Machine
end

