-- ==== Sys2Proof/Machine/Lfsr.lean ====
section
/-! DEFINITION. The Galois LFSR and the quantized sine ROM (41_lfsr_and_lut.md): the lane step, the
lane-parallel step, the ROM address, the ROM read, and the row generator's batches. -/

namespace Sys2Proof.Machine

/-- The tap mask (R8, R92). -/
def tapMask : Lane := 0x100B#16

/-- One step of one lane (R92): shift left by 1, and XOR the tap mask if bit 15 was set before. -/
def lfsrStep (v : Lane) : Lane :=
  if v.getLsbD 15 then (v <<< 1) ^^^ tapMask else v <<< 1

/-- The inverse of the lane step (R94). -/
def lfsrUnstep (r : Lane) : Lane :=
  if r.getLsbD 0 then ((r ^^^ tapMask) >>> 1) ||| 0x8000#16 else r >>> 1

/-- `n` steps of one lane. -/
def lfsrSteps : Nat → Lane → Lane
  | 0, v => v
  | n + 1, v => lfsrSteps n (lfsrStep v)

/-- One LFSR step of the engine: all eight lanes at once, independently (R93). -/
def lanesStep (l : Seed) : Seed := Vector.ofFn fun j => lfsrStep l[j]

/-- `n` LFSR steps of the engine. -/
def lanesSteps : Nat → Seed → Seed
  | 0, l => l
  | n + 1, l => lanesSteps n (lanesStep l)

/-- `quantize(v) = v[3:0]`, the ROM address (R96). -/
def quantize (v : Lane) : Fin 16 := ⟨v.toNat % 16, Nat.mod_lt _ (by decide)⟩

/-- `lut(v) = SINE_LUT[quantize(v)]` (R98). -/
def lut (t : Config.SineLut) (v : Lane) : Word := t[quantize v]

/-- Every lane of a seed is in [1, 0xFFFF] (R101, R141). -/
def seedAdmitted (l : Seed) : Bool := l.toList.all (fun v => v != 0#16)

end Sys2Proof.Machine
end

