-- ==== Sys2Proof/Machine/Grid.lean ====
section
/-! DEFINITION. The grid of the oscillator engine (10_state.md R32) and its procedures
(42_grid_oscillator.md R102 to R104; 41_lfsr_and_lut.md R99): copy_right, splice, gen_row,
row_advance, length_edit. -/

namespace Sys2Proof.Machine

/-- One grid vertex: its `X` and its `Y` component (R32). -/
structure Vertex where
  X : Word
  Y : Word
  deriving DecidableEq, Repr

/-- One grid cell: the four corners (R32). -/
structure Cell where
  LL : Vertex
  LR : Vertex
  UL : Vertex
  UR : Vertex
  deriving DecidableEq, Repr

/-- The 32 grid cells (R8 `GRID_CAP`, R32). -/
abbrev Grid := Vector Cell 32

/-- A component of a vertex. -/
def vertexComp (v : Vertex) : Comp → Word
  | .X => v.X
  | .Y => v.Y

/-- A corner of a cell. -/
def cellCorner (c : Cell) : Corner → Vertex
  | .LL => c.LL
  | .LR => c.LR
  | .UL => c.UL
  | .UR => c.UR

/-- The vertex at `+0.0` in both components. -/
def zeroVertex : Vertex := ⟨posZero, posZero⟩

/-- The cell at `+0.0` in every value, as the oscillator reset first sets it (R33, R141). -/
def zeroCell : Cell := ⟨zeroVertex, zeroVertex, zeroVertex, zeroVertex⟩

/-- A cell index as a number modulo the grid capacity (R103 "circular, modulo grid capacity").
Every `W - 1` and every cell the spec names is below 32 already. -/
def cellIdx (n : Nat) : Fin 32 := ⟨n % 32, Nat.mod_lt _ (by decide)⟩

/-- `c` with its right corners made equal to the left corners of `d` (R102). -/
def withRightOf (c d : Cell) : Cell := { c with LR := d.LL, UR := d.UL }

/-- `copy_right(c, d)` (R102). -/
def copyRight (c d : Fin 32) (g : Grid) : Grid := g.set c (withRightOf g[c] g[d])

/-- `splice()` is `copy_right(W-1, 0)` (R102). -/
def splice (W : Nat) (g : Grid) : Grid := copyRight (cellIdx (W - 1)) 0 g

/-- `length_edit(Wold, Wnew)` (R104): the old boundary cell gets its in-row neighbour back, the new
one points across the seam at cell 0. -/
def lengthEdit (Wold Wnew : Nat) (g : Grid) : Grid :=
  copyRight (cellIdx (Wnew - 1)) 0 (copyRight (cellIdx (Wold - 1)) (cellIdx Wold) g)

/-- The shift down of a row advance: the lower corners become the old upper ones (R103). -/
def shiftDown (c : Cell) : Cell := { c with LL := c.UL, LR := c.UR }

/-- The vertex that column `4b + j` takes from the lanes of batch `b`: `X` from lane `j`, `Y` from
lane `j + 4` (R99). -/
def batchVertex (t : Config.SineLut) (l : Seed) (j : Fin 4) : Vertex :=
  ⟨lut t l[j.val], lut t l[j.val + 4]⟩

/-- The lanes batch `b` reads: 4 LFSR steps before each batch (R99). -/
def batchLanes (l : Seed) (b : Nat) : Seed := lanesSteps (4 * (b + 1)) l

/-- The 32 vertices of `gen_row()` (R99): column `c` is position `c mod 4` of batch `c / 4`. -/
def genRow (t : Config.SineLut) (l : Seed) : Vector Vertex 32 :=
  Vector.ofFn fun c => batchVertex t (batchLanes l (c.val / 4)) ⟨c.val % 4, Nat.mod_lt _ (by decide)⟩

/-- The lanes after `gen_row()`: 32 LFSR steps (R99). -/
def genRowLanes (l : Seed) : Seed := lanesSteps 32 l

/-- The grid after the shift and the new upper row: the left corners of every cell are final (R103). -/
def shiftedGrid (nv : Vector Vertex 32) (g : Grid) : Grid :=
  Vector.ofFn fun c => { shiftDown g[c] with UL := nv[c] }

/-- The `copy_right(c, (c+1) mod 32)` loop of a row advance. It "reads only left corners, which it
does not write, so its order does not matter" (R103), so it is taken at once. -/
def recomputeRight (g : Grid) : Grid :=
  Vector.ofFn fun c => withRightOf g[c] g[cellIdx (c.val + 1)]

/-- The grid after `row_advance()` (R103). -/
def rowAdvanceGrid (p : Config.Params) (W : Nat) (l : Seed) (g : Grid) : Grid :=
  let g' := recomputeRight (shiftedGrid (genRow p.sineLut l) g)
  if p.reseamOnRowAdvance && decide (W < 32) then splice W g' else g'

end Sys2Proof.Machine
end

