-- ==== Sys2Proof/Machine/State.lean ====
section
/-! DEFINITION. The state of the core (10_state.md), the host's side of its command port
(30_encoding.md R60, R61; 70_reset_and_hazards.md R139), the reasons a step can stop, and the state
after power-up (R139 to R141). -/

namespace Sys2Proof.Machine

/-- The state of the mixer engine (10_state.md, summary table). -/
structure Mixer where
  /-- `coeff[0..255]` (R21) -/
  coeff : Vector Word 256
  /-- `in_reg[0..15]` (R23) -/
  inReg : Vector Word 16
  /-- `out_reg[0..15]` (R24) -/
  outReg : Vector Word 16
  /-- `acc[0..15]` (R30) -/
  acc : Vector Word 16
  /-- `stage[0..255]` (R31) -/
  stage : Vector Word 256
  /-- `stage_cnt`, 0..257 (R27) -/
  stageCnt : Nat
  deriving DecidableEq, Repr

/-- The state of the oscillator engine (10_state.md, summary table). -/
structure Oscillator where
  /-- `cell[0..31]` (R32) -/
  cell : Grid
  /-- `lfsr[0..7]` (R35) -/
  lfsr : Seed
  /-- the phase `x`, binary32 (R37) -/
  x : Word
  /-- the live cycle length `W`, 2..32 (R38) -/
  W : Nat
  /-- the second phase coordinate `y`, binary32 (R39) -/
  y : Word
  /-- the sample interval `dt`, binary32 (R40) -/
  dt : Word
  /-- the last sample `go_out`, binary32 (R41) -/
  goOut : Word
  /-- `seam_pending` (R28) -/
  seamPending : Bool
  deriving DecidableEq, Repr

/-- The status of a response (60_exceptions.md R121). Its codes are `statusCode` of
Machine/Flags.lean; codes 5, 6, 7 are never produced. -/
inductive Status where
  /-- code 0 -/
  | ok
  /-- code 1 -/
  | indexOutOfRange
  /-- code 2 -/
  | malformedBulkInput
  /-- code 3 -/
  | illegalCommand
  /-- code 4: the answer of a hardware implementation to an inadmissible increment; the model faults
  instead and never produces it (R126) -/
  | invalidPhaseInc
  deriving DecidableEq, Repr

/-- One response `{status[2:0], data[31:0]}` (R61). -/
structure Response where
  status : Status
  data : Word
  deriving DecidableEq, Repr

/-- What the host puts on the command port (R60, R139; log 2). -/
inductive PortItem where
  /-- a command word, or the data word of the data-carrying command word before it (R60) -/
  | word (w : Word)
  /-- the reset action of the mixer engine (R139, R140) -/
  | resetMm
  /-- the reset action of the oscillator engine with its seed (R139, R141) -/
  | resetGo (seed : Seed)
  /-- power-up: "Power-up performs both" resets (R139) -/
  | powerUp (seed : Seed)
  deriving DecidableEq, Repr

/-- The state of the model: the two engines, and four things of the model's own: the parameters of
R9 (log 1), the two ends of the command port (logs 2 and 3), and the counters that index the free
NaN patterns (log 4). -/
structure State where
  /-- the mixer engine -/
  mm : Mixer
  /-- the oscillator engine -/
  go : Oscillator
  /-- the open parameters of R9; no step changes them -/
  params : Config.Params
  /-- what the host has issued and the core has not taken yet, first issued first -/
  port : List PortItem
  /-- the responses given so far, newest first (R61) -/
  responses : List Response
  /-- how many `MM_TICK` commands have drawn NaN patterns -/
  mmNanTick : Nat
  /-- how many `GO_TICK` commands have drawn NaN patterns -/
  goNanTick : Nat
  deriving DecidableEq, Repr

/-- Why a step has no next state. -/
inductive Fault where
  /-- `GO_TICK` with an increment that is a NaN, negative or above `MAX_PHASE_INC` (R106, R108, R126).
  Raised by the meaning of `GO_TICK` before any state is written. SAFE: the spec asks for it, and no
  claim rests on what hardware does there. -/
  | invalidPhaseIncrement
  /-- The wrap loop of `GO_TICK` makes no progress, `fsub(x, f32(W)) = x` (R126 names the case).
  Raised by the meaning of `GO_TICK`, never with the default `MAX_PHASE_INC` and a legal `x`
  (R113, R114). SAFE: the spec's loop has no next state there (log 10). -/
  | wrapDoesNotTerminate
  /-- `floor(x)` after the wrap loop names no cell, because `x` is a NaN or negative or `W` is above
  32. Raised by the meaning of `GO_TICK`, only in states that R37 and R38 exclude. SAFE: the model
  stops (log 11). -/
  | phaseOutOfRange
  deriving DecidableEq, Repr

/-- Why the model does not admit a step. -/
inductive Refusal where
  /-- An instruction that has no meaning yet, raised by exec's arm. SAFE: the model stops. -/
  | notModelled (mnemonic : String)
  /-- `reset_go` or power-up with a seed that has a zero lane: "the model refuses the reset" (R101,
  R141). Raised by `step`. SAFE: the model stops. -/
  | seedNotAdmitted
  /-- A reset action where the data word of a data-carrying command is due: "A reset happens between
  commands, never during one" (R139). Raised by `step`. SAFE: the model stops (log 9). -/
  | resetDuringTransaction
  deriving DecidableEq, Repr

/-- What a command can come to. -/
abbrev Outcome := Host.Outcome State Fault Refusal

/-- The mixer engine after `reset_mm` (R140). -/
def Mixer.reset : Mixer where
  coeff := Vector.replicate 256 posZero
  inReg := Vector.replicate 16 posZero
  outReg := Vector.replicate 16 posZero
  acc := Vector.replicate 16 posZero
  stage := Vector.replicate 256 posZero
  stageCnt := 0

/-- The oscillator engine as `reset_go(SEED)` sets it before the prefill (R141). -/
def Oscillator.cleared (seed : Seed) : Oscillator where
  cell := Vector.replicate 32 zeroCell
  lfsr := seed
  x := posZero
  W := 32
  y := posZero
  dt := posZero
  goOut := posZero
  seamPending := false

/-- `row_advance()` on the engine: the grid and the lanes, nothing else (R103). -/
def Oscillator.rowAdvance (p : Config.Params) (o : Oscillator) : Oscillator :=
  { o with cell := rowAdvanceGrid p o.W o.lfsr o.cell, lfsr := genRowLanes o.lfsr }

/-- `repeat n times: row_advance()` (R141). -/
def Oscillator.rowAdvances (p : Config.Params) : Nat → Oscillator → Oscillator
  | 0, o => o
  | n + 1, o => Oscillator.rowAdvances p n (o.rowAdvance p)

/-- The oscillator engine after `reset_go(SEED)` with an admitted seed (R141). -/
def Oscillator.reset (p : Config.Params) (seed : Seed) : Oscillator :=
  Oscillator.rowAdvances p p.prefillRows.val (Oscillator.cleared seed)

/-- The machine after power-up with a seed: both resets, nothing issued, nothing answered (R139). -/
def State.powerUp (p : Config.Params) (seed : Seed) : State where
  mm := Mixer.reset
  go := Oscillator.reset p seed
  params := p
  port := []
  responses := []
  mmNanTick := 0
  goNanTick := 0

/-- The machine right after reset: power-up with the default parameters of R9 and the seed `SEED_A`
that 95_test_vectors.md names (the spec gives no default seed: DESIGN CHOICE, log 6). -/
def State.reset : State := State.powerUp Config.Params.default Config.seedA

end Sys2Proof.Machine
end

