-- ==== Sys2Proof/Machine/Flags.lean ====
section
/-! DEFINITION. Status codes (60_exceptions.md R121) and the two flag-like pieces of state,
`stage_cnt` (10_state.md R27) and `seam_pending` (R28). The core has no condition code and no IEEE
flag (R29), so no command computes any other flag. -/

namespace Sys2Proof.Machine

/-- The 3-bit code of a status (R121). -/
def statusCode : Status → BitVec 3
  | .ok => 0
  | .indexOutOfRange => 1
  | .malformedBulkInput => 2
  | .illegalCommand => 3
  | .invalidPhaseInc => 4

/-- The 35 bits `{status[2:0], data[31:0]}` of a response (R61). -/
def responseBits (r : Response) : BitVec 35 := statusCode r.status ++ r.data

/-- `stage_cnt` after a push: 257 means "more than 256 values were pushed" (R27, R81). -/
def stageCntAfterPush (n : Nat) : Nat := if n < 256 then n + 1 else 257

/-- Whether `MM_BULK_COMMIT` accepts the payload (R82). -/
def bulkAccepted (n : Nat) : Bool := decide (n = 256)

/-- How many staged values `MM_RESTORE_COMMIT` uses: "257 means truncated at 256" (R83). -/
def restoreLength (n : Nat) : Nat := min n 256

/-- `seam_pending` after the length part of a tick: set by a change of `W` (R28, R108). -/
def seamAfterEdit (Wold Wnew : Nat) (pending : Bool) : Bool :=
  if Wnew ≠ Wold then true else pending

end Sys2Proof.Machine
end

