-- ==== Sys2Proof/Machine/Operands.lean ====
section
/-! DEFINITION. What the operands of a command name (30_encoding.md R64, 10_state.md R22): index
ranges, the flat index, the clamps of the tick commands, the status registers of `SEL` (R42). -/

namespace Sys2Proof.Machine

/-- `clamp(v, lo, hi)` on integers (00_scope.md R12). -/
def clamp (v lo hi : Int) : Int := if v < lo then lo else if v > hi then hi else v

/-- `nin = clamp(NIN, 1, 16)` and `nout = clamp(NOUT, 1, 16)` (R64, R85). -/
def channelCount (n : Nat) : Nat := (clamp n 1 16).toNat

/-- `clamp(len, 2, 32)` (R64, R108). -/
def cycleLength (len : Int) : Nat := (clamp len 2 32).toNat

/-- A channel number in range, or none: 16 and above are `IndexOutOfRange` (R64, R76). -/
def channelOf (n : Nat) : Option (Fin 16) := if h : n < 16 then some ⟨n, h⟩ else none

/-- A flat index in range, or none: 256 and above are `IndexOutOfRange` (R51, R64, R78). -/
def flatOf (n : Nat) : Option (Fin 256) := if h : n < 256 then some ⟨n, h⟩ else none

/-- `flat(o, i)` under `FLAT_INDEX_ORDER` (R22). -/
def flat (order : Config.FlatIndexOrder) (o i : Fin 16) : Fin 256 :=
  match order with
  | .outMajor => ⟨16 * o.val + i.val, by omega⟩
  | .inMajor => ⟨16 * i.val + o.val, by omega⟩

/-- The flat index of a pair operand, or none when `OUT` or `IN` is out of range (R76, R77, R129). -/
def pairOf (order : Config.FlatIndexOrder) (o i : Nat) : Option (Fin 256) :=
  match channelOf o, channelOf i with
  | some o', some i' => some (flat order o' i')
  | _, _ => none

/-- The register `SEL` selects, as `GO_GET_STATUS` returns it; none for the reserved 6 and 7 (R42,
R67, R112). -/
def statusRegister (g : Oscillator) : Nat → Option Word
  | 0 => some g.x
  | 1 => some (BitVec.ofNat 32 g.W)
  | 2 => some g.y
  | 3 => some g.dt
  | 4 => some g.goOut
  | 5 => some (if g.seamPending then 1#32 else 0#32)
  | _ => none

end Sys2Proof.Machine
end

