-- ==== Sys2Proof/Machine/Ops.lean ====
section
/-! DEFINITION. The shared operations: the response (00_scope.md R15), raising a condition
(60_exceptions.md R121 to R130), the coefficient table's reads and writes (R14), the staging buffer
(R80 to R83), the vector MAC of the mixer (R73 to R75, R85), the interpolator, the phase and the wrap
loop of the oscillator (R105, R106, R108), and the two reset actions (R139 to R141). -/

namespace Sys2Proof.Machine

/-! ### Responses and conditions -/

/-- `respond(status, data)` ends a command with exactly one response (R15, R61). -/
def respond (status : Status) (data : Word) (s : State) : State :=
  { s with responses := ⟨status, data⟩ :: s.responses }

/-- A command that completes normally with a data word. -/
def done (data : Word) (s : State) : Outcome := .next (respond .ok data s)

/-- The conditions a command can raise in its response (R121). -/
inductive Condition where
  /-- `IndexOutOfRange` (R122) -/
  | indexOutOfRange
  /-- `MalformedBulkInput` (R123) -/
  | malformedBulkInput
  /-- `IllegalCommand` (R125) -/
  | illegalCommand
  deriving DecidableEq, Repr

/-- The code of a condition (R121). -/
def conditionStatus : Condition → Status
  | .indexOutOfRange => .indexOutOfRange
  | .malformedBulkInput => .malformedBulkInput
  | .illegalCommand => .illegalCommand

/-- `raise <Condition>` (R15): the response carries the condition's code and the data 0, and nothing
else is written. "An error response saves no state, changes no mode, masks nothing and transfers
control nowhere" (R130), and there is nothing to return from (R131): this is all there is of taking
an exception. -/
def raise (c : Condition) (s : State) : Outcome := .next (respond (conditionStatus c) posZero s)

/-! ### The coefficient table and the staging buffer -/

/-- `CoefRead(i)` (R14). -/
def coefRead (m : Mixer) (i : Fin 256) : Word := m.coeff[i]

/-- `CoefWrite(i, v)` (R14): overwrites exactly one entry (R76). -/
def coefWrite (i : Fin 256) (v : Word) (m : Mixer) : Mixer := { m with coeff := m.coeff.set i v }

/-- `coeff[o][i]` (R22). -/
def coeffAt (p : Config.Params) (m : Mixer) (o i : Fin 16) : Word :=
  coefRead m (flat p.flatIndexOrder o i)

/-- The push of R81: the value goes to `stage[stage_cnt]` while there is room. -/
def stagePush (v : Word) (m : Mixer) : Mixer :=
  { m with
    stage := if h : m.stageCnt < 256 then m.stage.set m.stageCnt v h else m.stage
    stageCnt := stageCntAfterPush m.stageCnt }

/-- `stage_cnt <- 0` (R80, R82, R83). -/
def stageClear (m : Mixer) : Mixer := { m with stageCnt := 0 }

/-- The whole-table copy of an accepted bulk replace, all at once (R82). -/
def bulkCopy (m : Mixer) : Mixer := { m with coeff := m.stage }

/-- The 256 values of a restore: the staged ones, zero-padded (R83). -/
def restoredTable (m : Mixer) : Vector Word 256 :=
  Vector.ofFn fun k => if k.val < restoreLength m.stageCnt then m.stage[k] else posZero

/-- The whole-table copy of a restore (R83). -/
def restoreCopy (m : Mixer) : Mixer := { m with coeff := restoredTable m }

/-- `in_reg[ch] <- v` (R84). -/
def inputWrite (ch : Fin 16) (v : Word) (m : Mixer) : Mixer := { m with inReg := m.inReg.set ch v }

/-! ### The mixer tick -/

/-- The NaN patterns the next `MM_TICK` draws, one per arithmetic operation (R72, log 4). -/
def mixerNans (s : State) (site : Nat) : Word :=
  quietNaN (Config.nanBits .mixer s.mmNanTick site)

/-- `mac(a, c, v)` (R73). Its product draws its NaN at `site`, its sum (or the fused operation) at
`site + 1`. -/
def mac (p : Config.Params) (nan : Nat → Word) (site : Nat) (a c v : Word) : Word :=
  if p.fusedMac then ffma p.ftz (nan (site + 1)) c v a
  else fadd p.ftz (nan (site + 1)) a (fmul p.ftz (nan site) c v)

/-- The first NaN site of the `mac` of output `o` and input `i`. -/
def macSite (o i : Fin 16) : Nat := 2 * (16 * o.val + i.val)

/-- The value a lane starts a tick with (R74). -/
def laneInit (p : Config.Params) (nan : Nat → Word) (m : Mixer) (o : Fin 16) : Word :=
  match p.accInit with
  | .zero => posZero
  | .firstProduct => fmul p.ftz (nan (macSite o 0)) (coeffAt p m o 0) m.inReg[0]

/-- The first input the accumulation loop takes (R74). -/
def firstInput (p : Config.Params) : Nat :=
  match p.accInit with
  | .zero => 0
  | .firstProduct => 1

/-- One vector operation of a tick: the start of a group's 4 lanes, or one vector multiply-accumulate
of a group with the broadcast input `i` (R75). -/
inductive VectorOp where
  | init (g : Fin 4)
  | mac (g : Fin 4) (i : Fin 16)
  deriving DecidableEq, Repr

/-- The vector operations of group `g`: its start, then the active inputs in ascending order (R75,
R85). -/
def groupOps (p : Config.Params) (nin : Nat) (g : Fin 4) : List VectorOp :=
  .init g :: ((List.finRange 16).filter
    (fun i => decide (firstInput p ≤ i.val) && decide (i.val < nin))).map (.mac g)

/-- The schedule of a tick: the groups 0, 1, 2, 3 sequentially, all 4 of them whatever `nout` is
(R75). -/
def tickOps (p : Config.Params) (nin : Nat) : List VectorOp :=
  (List.finRange 4).flatMap (groupOps p nin)

/-- One vector operation on the accumulator: lane `l` of group `g` is `acc[4g + l]`, and the 4 lanes
work in parallel (R30, R75). -/
def vectorStep (p : Config.Params) (nan : Nat → Word) (m : Mixer) (acc : Vector Word 16) :
    VectorOp → Vector Word 16
  | .init g => Vector.ofFn fun o => if o.val / 4 = g.val then laneInit p nan m o else acc[o]
  | .mac g i => Vector.ofFn fun o =>
      if o.val / 4 = g.val then mac p nan (macSite o i) acc[o] (coeffAt p m o i) m.inReg[i]
      else acc[o]

/-- The accumulator after the 4 groups of a tick (R85). -/
def tickAcc (p : Config.Params) (nan : Nat → Word) (m : Mixer) (nin : Nat) : Vector Word 16 :=
  (tickOps p nin).foldl (vectorStep p nan m) m.acc

/-- The output registers after a tick: `out_reg[o]` for `o < nout` only (R24, R85). -/
def tickOut (acc outReg : Vector Word 16) (nout : Nat) : Vector Word 16 :=
  Vector.ofFn fun o => if o.val < nout then acc[o] else outReg[o]

/-- The mixer engine after `MM_TICK` with `nin` active inputs and `nout` active outputs (R85). -/
def mixerTick (p : Config.Params) (nan : Nat → Word) (nin nout : Nat) (m : Mixer) : Mixer :=
  { m with
    acc := tickAcc p nan m nin
    outReg := tickOut (tickAcc p nan m nin) m.outReg nout }

/-! ### The oscillator tick -/

/-- The NaN patterns the next `GO_TICK` draws, one per arithmetic operation (R72, log 4). -/
def oscillatorNans (s : State) (site : Nat) : Word :=
  quietNaN (Config.nanBits .oscillator s.goNanTick site)

/-- `lerp(a, b, t) = fadd(a, fmul(t, fsub(b, a)))` (R105), drawing at three sites from `site`. -/
def lerp (ftz : Bool) (nan : Nat → Word) (site : Nat) (a b t : Word) : Word :=
  fadd ftz (nan (site + 2)) a (fmul ftz (nan (site + 1)) t (fsub ftz (nan site) b a))

/-- `interp2d(c, fx, fy, k)` (R105). -/
def interp2d (ftz : Bool) (nan : Nat → Word) (c : Cell) (fx fy : Word) (k : Comp) : Word :=
  if feq fy posZero then lerp ftz nan 4 (vertexComp c.LL k) (vertexComp c.LR k) fx
  else lerp ftz nan 10
    (lerp ftz nan 4 (vertexComp c.LL k) (vertexComp c.LR k) fx)
    (lerp ftz nan 7 (vertexComp c.UL k) (vertexComp c.UR k) fx) fy

/-- `sample(c, fx)`: the interpolator at `fy = y` on the component `AUDIO_COMP` (R105). -/
def sample (p : Config.Params) (nan : Nat → Word) (o : Oscillator) (c : Fin 32) (fx : Word) : Word :=
  interp2d p.ftz nan o.cell[c] fx o.y p.audioComp

/-- The increment of a tick, `inc = fmul(freq, dt)` (R106, R108). -/
def increment (p : Config.Params) (nan : Nat → Word) (freq : Word) (o : Oscillator) : Word :=
  fmul p.ftz (nan 0) freq o.dt

/-- An increment is admissible when it is no NaN and `0.0 ≤ inc ≤ MAX_PHASE_INC` (R106); -0.0 is. -/
def admissible (p : Config.Params) (inc : Word) : Bool :=
  !isNaN inc && fle posZero inc && fle inc p.maxPhaseInc

/-- The cycle-length edit of a tick (R108): only when the clamped length differs from `W`. -/
def editLength (Wn : Nat) (o : Oscillator) : Oscillator :=
  { o with
    cell := if Wn ≠ o.W then lengthEdit o.W Wn o.cell else o.cell
    W := Wn
    seamPending := seamAfterEdit o.W Wn o.seamPending }

/-- `x <- fadd(x, inc)` (R108). -/
def advancePhase (p : Config.Params) (nan : Nat → Word) (inc : Word) (o : Oscillator) : Oscillator :=
  { o with x := fadd p.ftz (nan 1) o.x inc }

/-- The wrap condition `x >= f32(W)` (R108, C1). -/
def wraps (o : Oscillator) : Bool := fle (f32 o.W) o.x

/-- The splice of a wrap event, under `seam_pending`, which it clears (R28, R102, R108). -/
def wrapSplice (o : Oscillator) : Oscillator :=
  { o with
    cell := if o.seamPending then splice o.W o.cell else o.cell
    seamPending := false }

/-- `x <- fsub(x, f32(W))` (R108). -/
def wrapPhase (p : Config.Params) (nan : Nat → Word) (o : Oscillator) : Oscillator :=
  { o with x := fsub p.ftz (nan 2) o.x (f32 o.W) }

/-- One wrap event (R108): the splice, the subtraction of `W`, and with `ROW_ADVANCE_ON_WRAP` a row
advance. -/
def wrapEvent (p : Config.Params) (nan : Nat → Word) (o : Oscillator) : Oscillator :=
  let o' := wrapPhase p nan (wrapSplice o)
  if p.rowAdvanceOnWrap then o'.rowAdvance p else o'

/-- The loop `while x >= f32(W)` of R108. None when a wrap event leaves `x` as it was: the loop then
never ends (R126). The first argument bounds the wrap events; `wrapBound` is enough of them. -/
def wrapLoop (p : Config.Params) (nan : Nat → Word) : Nat → Oscillator → Option Oscillator
  | 0, o => if wraps o then none else some o
  | n + 1, o =>
    if wraps o then
      if (wrapEvent p nan o).x = o.x then none else wrapLoop p nan n (wrapEvent p nan o)
    else some o

/-- A bound on the wrap events of a tick: each one that changes `x` takes at least 1 from it. -/
def wrapBound (o : Oscillator) : Nat := (floorVal o.x).toNat

/-- `c <- floor(x)`, the cell index (R108): none when `x` is a NaN, negative, or 32 or more, which no
tick of a legal state reaches (R37, R114; log 11). -/
def phaseCell (o : Oscillator) : Option (Fin 32) :=
  if h : (floorVal o.x).toNat < 32 then
    if !isNaN o.x && decide (0 ≤ fVal o.x) then some ⟨(floorVal o.x).toNat, h⟩ else none
  else none

/-- The last step of a tick (R108): `fx`, the sample, `go_out`. -/
def emitSample (p : Config.Params) (nan : Nat → Word) (c : Fin 32) (o : Oscillator) : Oscillator :=
  { o with goOut := sample p nan o c (fsub p.ftz (nan 3) o.x (f32 (c.val : Int))) }

/-- The part of a tick after the increment check (R108): the length edit, the phase advance, the wrap
events, the sample. -/
def tickPhase (p : Config.Params) (nan : Nat → Word) (len : Int) (inc : Word) (o : Oscillator) :
    Except Fault Oscillator :=
  let o1 := advancePhase p nan inc (editLength (cycleLength len) o)
  match wrapLoop p nan (wrapBound o1) o1 with
  | none => .error .wrapDoesNotTerminate
  | some o2 =>
    match phaseCell o2 with
    | none => .error .phaseOutOfRange
    | some c => .ok (emitSample p nan c o2)

/-- `GO_TICK` on the oscillator engine (R108): the increment is checked "before the length clamp and
before any state is written" (R129). -/
def oscillatorTick (p : Config.Params) (nan : Nat → Word) (len : Int) (freq : Word) (o : Oscillator) :
    Except Fault Oscillator :=
  if admissible p (increment p nan freq o) then tickPhase p nan len (increment p nan freq o) o
  else .error .invalidPhaseIncrement

/-! ### Reset actions -/

/-- `reset_mm` (R139, R140): the mixer engine only. -/
def resetMm (s : State) : State := { s with mm := Mixer.reset }

/-- `reset_go(SEED)` (R139, R141): the oscillator engine only; refused for a seed with a zero lane. -/
def resetGo (seed : Seed) (s : State) : Outcome :=
  if seedAdmitted seed then .next { s with go := Oscillator.reset s.params seed }
  else .refused .seedNotAdmitted

/-- "Power-up performs both" (R139). -/
def powerUpReset (seed : Seed) (s : State) : Outcome := resetGo seed (resetMm s)

end Sys2Proof.Machine
end

