-- ==== Sys2Proof/Machine/Housekeeping.lean ====
section
/-! DEFINITION. The housekeeping commands (43_housekeeping.md): `NOP` and the illegal command. -/

namespace Sys2Proof.Machine

/-- `NOP` (R119): `respond(OK, 0)`, no state written. -/
def execNop (s : State) : Outcome := done posZero s

/-- The outcome of a word that encodes no command (R120): `IllegalCommand`, no state written. -/
def illegalCommand (s : State) : Outcome := raise .illegalCommand s

end Sys2Proof.Machine
end

