-- ==== Sys2Proof/Machine/MixerTable.lean ====
section
/-! DEFINITION. The mixer commands on the coefficient table (40_matrix_mixer.md sections 2 and 3):
single-coefficient access (R76 to R79), bulk replace and restore (R80 to R83). -/

namespace Sys2Proof.Machine

/-- `MM_SETC out, in, value` (R76). -/
def execMmSetc (o i : Nat) (v : Word) (s : State) : Outcome :=
  match pairOf s.params.flatIndexOrder o i with
  | some k => done posZero { s with mm := coefWrite k v s.mm }
  | none => raise .indexOutOfRange s

/-- `MM_GETC out, in` (R77): out of range, the status names the condition and the data is +0.0. -/
def execMmGetc (o i : Nat) (s : State) : Outcome :=
  match pairOf s.params.flatIndexOrder o i with
  | some k => done (coefRead s.mm k) s
  | none => raise .indexOutOfRange s

/-- `MM_SETCI idx, value` (R78). -/
def execMmSetci (idx : Nat) (v : Word) (s : State) : Outcome :=
  match flatOf idx with
  | some k => done posZero { s with mm := coefWrite k v s.mm }
  | none => raise .indexOutOfRange s

/-- `MM_GETCI idx` (R79). -/
def execMmGetci (idx : Nat) (s : State) : Outcome :=
  match flatOf idx with
  | some k => done (coefRead s.mm k) s
  | none => raise .indexOutOfRange s

/-- `MM_BULK_BEGIN` (R80). -/
def execMmBulkBegin (s : State) : Outcome := done posZero { s with mm := stageClear s.mm }

/-- `MM_BULK_PUSH value` (R81). -/
def execMmBulkPush (v : Word) (s : State) : Outcome := done posZero { s with mm := stagePush v s.mm }

/-- `MM_BULK_COMMIT` (R82): all 256 coefficients or none; `stage_cnt` is cleared either way. -/
def execMmBulkCommit (s : State) : Outcome :=
  if bulkAccepted s.mm.stageCnt then done posZero { s with mm := stageClear (bulkCopy s.mm) }
  else raise .malformedBulkInput { s with mm := stageClear s.mm }

/-- `MM_RESTORE_COMMIT` (R83): zero-padded or truncated to 256. -/
def execMmRestoreCommit (s : State) : Outcome :=
  done posZero { s with mm := stageClear (restoreCopy s.mm) }

end Sys2Proof.Machine
end

