-- ==== Sys2Proof/Machine/MixerTick.lean ====
section
/-! DEFINITION. The mixer commands on the channel registers (40_matrix_mixer.md section 4):
`MM_SET_INPUT` (R84), `MM_TICK` (R85), `MM_GET_OUTPUT` (R86). -/

namespace Sys2Proof.Machine

/-- `MM_SET_INPUT ch, value` (R84). -/
def execMmSetInput (ch : Fin 16) (v : Word) (s : State) : Outcome :=
  done posZero { s with mm := inputWrite ch v s.mm }

/-- `MM_TICK nin, nout` (R85). The tick draws its NaN patterns, and the next tick draws others. -/
def execMmTick (nin nout : Nat) (s : State) : Outcome :=
  done posZero { s with
    mm := mixerTick s.params (mixerNans s) (channelCount nin) (channelCount nout) s.mm
    mmNanTick := s.mmNanTick + 1 }

/-- `MM_GET_OUTPUT ch` (R86). -/
def execMmGetOutput (ch : Fin 16) (s : State) : Outcome := done s.mm.outReg[ch] s

end Sys2Proof.Machine
end

