-- ==== Sys2Proof/Machine/OscillatorCommands.lean ====
section
/-! DEFINITION. The oscillator commands (42_grid_oscillator.md section 2): R107 to R112. -/

namespace Sys2Proof.Machine

/-- `GO_SET_DT value` (R107): any pattern is stored. -/
def execGoSetDt (v : Word) (s : State) : Outcome := done posZero { s with go := { s.go with dt := v } }

/-- `GO_TICK len, freq` (R108): the sample is the response's data; an inadmissible increment is the
fault of R126. -/
def execGoTick (len : Int) (freq : Word) (s : State) : Outcome :=
  match oscillatorTick s.params (oscillatorNans s) len freq s.go with
  | .ok o => done o.goOut { s with go := o, goNanTick := s.goNanTick + 1 }
  | .error f => .fault f

/-- `GO_ROW_ADVANCE` (R109). -/
def execGoRowAdvance (s : State) : Outcome :=
  done posZero { s with go := s.go.rowAdvance s.params }

/-- `GO_GET_CELL cell, corner, comp` (R110): every cell 0..31 is readable, live or not. -/
def execGoGetCell (c : Fin 32) (k : Corner) (m : Comp) (s : State) : Outcome :=
  done (vertexComp (cellCorner s.go.cell[c] k) m) s

/-- `GO_GET_LFSR lane` (R111): zero-extended; the read does not advance the LFSR. -/
def execGoGetLfsr (j : Fin 8) (s : State) : Outcome := done (s.go.lfsr[j].setWidth 32) s

/-- `GO_GET_STATUS sel` (R112): `SEL` 6 and 7 raise `IllegalCommand` (R67). -/
def execGoGetStatus (sel : Nat) (s : State) : Outcome :=
  match statusRegister s.go sel with
  | some v => done v s
  | none => raise .illegalCommand s

end Sys2Proof.Machine
end

