-- ==== Sys2Proof/Machine/Dispatch.lean ====
section
/-! DEFINITION. One arm per command (30_encoding.md R65), each a call of its meaning. -/

namespace Sys2Proof.Machine

def exec (i : Instr) (s : State) : Host.Outcome State Fault Refusal :=
  match i with
  | .nop => Sys2Proof.Machine.execNop s
  | .mmSetc o k v => Sys2Proof.Machine.execMmSetc o k v s
  | .mmGetc o k => Sys2Proof.Machine.execMmGetc o k s
  | .mmSetci idx v => Sys2Proof.Machine.execMmSetci idx v s
  | .mmGetci idx => Sys2Proof.Machine.execMmGetci idx s
  | .mmBulkBegin => Sys2Proof.Machine.execMmBulkBegin s
  | .mmBulkPush v => Sys2Proof.Machine.execMmBulkPush v s
  | .mmBulkCommit => Sys2Proof.Machine.execMmBulkCommit s
  | .mmRestoreCommit => Sys2Proof.Machine.execMmRestoreCommit s
  | .mmSetInput ch v => Sys2Proof.Machine.execMmSetInput ch v s
  | .mmTick nin nout => Sys2Proof.Machine.execMmTick nin nout s
  | .mmGetOutput ch => Sys2Proof.Machine.execMmGetOutput ch s
  | .goSetDt v => Sys2Proof.Machine.execGoSetDt v s
  | .goTick len freq => Sys2Proof.Machine.execGoTick len freq s
  | .goRowAdvance => Sys2Proof.Machine.execGoRowAdvance s
  | .goGetCell c k m => Sys2Proof.Machine.execGoGetCell c k m s
  | .goGetLfsr j => Sys2Proof.Machine.execGoGetLfsr j s
  | .goGetStatus sel => Sys2Proof.Machine.execGoGetStatus sel s

end Sys2Proof.Machine
end

