-- ==== Sys2Proof/WellFormed.lean ====
section
/-! DEFINITION. When a command's operands fit the fields of its format (30_encoding.md R62, R64):
"An operand that does not fit its field ... is an assembly error, not an encoding" (R70). -/

namespace Sys2Proof

/-- Every numeric operand fits its field. A value that fits but is out of range for the command
(`OUT = 16`, `SEL = 6`) is well-formed: the command answers it with a status. -/
def Instr.wellFormed : Instr → Bool
  | .nop => true
  | .mmSetc o i _ => decide (o < 2 ^ 8) && decide (i < 2 ^ 8)
  | .mmGetc o i => decide (o < 2 ^ 8) && decide (i < 2 ^ 8)
  | .mmSetci idx _ => decide (idx < 2 ^ 16)
  | .mmGetci idx => decide (idx < 2 ^ 16)
  | .mmBulkBegin => true
  | .mmBulkPush _ => true
  | .mmBulkCommit => true
  | .mmRestoreCommit => true
  | .mmSetInput _ _ => true
  | .mmTick nin nout => decide (nin < 2 ^ 5) && decide (nout < 2 ^ 5)
  | .mmGetOutput _ => true
  | .goSetDt _ => true
  | .goTick len _ => decide (-(2 ^ 15) ≤ len) && decide (len < 2 ^ 15)
  | .goRowAdvance => true
  | .goGetCell _ _ _ => true
  | .goGetLfsr _ => true
  | .goGetStatus sel => decide (sel < 2 ^ 3)

/-- `WellFormed i`: `i` has an encoding (R62, R64, R70). -/
abbrev WellFormed (i : Instr) : Prop := i.wellFormed = true

end Sys2Proof
end

