-- ==== Sys2Proof/Decode.lean ====
section
/-! DEFINITION. The command encoding (30_encoding.md): formats, the opcode map, the decoder, the
encoder, and the byte serialisation of words (20_memory.md R46). -/

namespace Sys2Proof

/-- The nine formats of a command word (R62). -/
inductive Format where
  | N
  | P
  | I
  | C
  | T
  | L
  | G
  | K
  | S
  deriving DecidableEq, Repr

/-- One value per row of the opcode table (R65). -/
inductive Opcode where
  | nop
  | mmSetc
  | mmGetc
  | mmSetci
  | mmGetci
  | mmBulkBegin
  | mmBulkPush
  | mmBulkCommit
  | mmRestoreCommit
  | mmSetInput
  | mmTick
  | mmGetOutput
  | goSetDt
  | goTick
  | goRowAdvance
  | goGetCell
  | goGetLfsr
  | goGetStatus
  deriving DecidableEq, Repr

/-- `OPC` of a row (R65). -/
def opcodeNumber : Opcode → Nat
  | .nop => 0x00
  | .mmSetc => 0x01
  | .mmGetc => 0x02
  | .mmSetci => 0x03
  | .mmGetci => 0x04
  | .mmBulkBegin => 0x05
  | .mmBulkPush => 0x06
  | .mmBulkCommit => 0x07
  | .mmRestoreCommit => 0x08
  | .mmSetInput => 0x09
  | .mmTick => 0x0A
  | .mmGetOutput => 0x0B
  | .goSetDt => 0x10
  | .goTick => 0x11
  | .goRowAdvance => 0x12
  | .goGetCell => 0x13
  | .goGetLfsr => 0x14
  | .goGetStatus => 0x15

/-- The row of an opcode number; none for a reserved one (R65, R66, R68). -/
def opcodeOfNumber : Nat → Option Opcode
  | 0x00 => some .nop
  | 0x01 => some .mmSetc
  | 0x02 => some .mmGetc
  | 0x03 => some .mmSetci
  | 0x04 => some .mmGetci
  | 0x05 => some .mmBulkBegin
  | 0x06 => some .mmBulkPush
  | 0x07 => some .mmBulkCommit
  | 0x08 => some .mmRestoreCommit
  | 0x09 => some .mmSetInput
  | 0x0A => some .mmTick
  | 0x0B => some .mmGetOutput
  | 0x10 => some .goSetDt
  | 0x11 => some .goTick
  | 0x12 => some .goRowAdvance
  | 0x13 => some .goGetCell
  | 0x14 => some .goGetLfsr
  | 0x15 => some .goGetStatus
  | _ => none

/-- The format of a row (R65). -/
def opcodeFormat : Opcode → Format
  | .nop => .N
  | .mmSetc => .P
  | .mmGetc => .P
  | .mmSetci => .I
  | .mmGetci => .I
  | .mmBulkBegin => .N
  | .mmBulkPush => .N
  | .mmBulkCommit => .N
  | .mmRestoreCommit => .N
  | .mmSetInput => .C
  | .mmTick => .T
  | .mmGetOutput => .C
  | .goSetDt => .N
  | .goTick => .L
  | .goRowAdvance => .N
  | .goGetCell => .G
  | .goGetLfsr => .K
  | .goGetStatus => .S

/-- The width of the operand fields of a format: they are the low bits of the command word, and the
bits between them and the opcode are reserved (R62). -/
def operandBits : Format → Nat
  | .N => 0
  | .P => 16
  | .I => 16
  | .C => 4
  | .T => 10
  | .L => 16
  | .G => 8
  | .K => 3
  | .S => 3

/-- "The match is `OPC << 26`" (R65). -/
def matchWord (op : Opcode) : Word := BitVec.ofNat 32 (opcodeNumber op * 2 ^ 26)

/-- "the mask covers the opcode and every reserved bit" (R65). -/
def maskWord (op : Opcode) : Word :=
  BitVec.ofNat 32 (2 ^ 32 - 2 ^ operandBits (opcodeFormat op))

/-- The data-carrying rows (R60). -/
def opcodeCarriesData : Opcode → Bool
  | .mmSetc | .mmSetci | .mmBulkPush | .mmSetInput | .goSetDt | .goTick => true
  | _ => false

/-- The opcode field `w[31:26]` (R60, R62). -/
def opcField (w : Word) : Nat := w.toNat / 2 ^ 26

/-- Whether a command word is followed by a data word: decided by the opcode field alone (R60), so
also for a word that a reserved bit makes illegal (R66). -/
def carriesData (w : Word) : Bool :=
  match opcodeOfNumber (opcField w) with
  | some op => opcodeCarriesData op
  | none => false

/-- The field `v[hi:lo]` as a number (R10), given `lo` and its width. -/
def field (w : Word) (lo width : Nat) : Nat := w.toNat / 2 ^ lo % 2 ^ width

/-- `sext_32` of a 16-bit field (R10, R64). -/
def signed16 (n : Nat) : Int := if n < 2 ^ 15 then (n : Int) else (n : Int) - 2 ^ 16

/-- `CORNER` (R64). -/
def cornerOfBits : Nat → Corner
  | 0 => .LL
  | 1 => .LR
  | 2 => .UL
  | _ => .UR

/-- `COMP` (R64). -/
def compOfBits : Nat → Comp
  | 0 => .X
  | _ => .Y

/-- Why a word encodes no command (R66). -/
inductive Illegal where
  /-- the opcode is not in the table -/
  | unassignedOpcode (opc : Nat)
  /-- a reserved bit of the row's format is 1 -/
  | reservedBitSet (op : Opcode)
  deriving DecidableEq, Repr

/-- The operands of a row's command word and its data word (R62 to R64). -/
def operandsOf (op : Opcode) (w d : Word) : Instr :=
  match op with
  | .nop => .nop
  | .mmSetc => .mmSetc (field w 8 8) (field w 0 8) d
  | .mmGetc => .mmGetc (field w 8 8) (field w 0 8)
  | .mmSetci => .mmSetci (field w 0 16) d
  | .mmGetci => .mmGetci (field w 0 16)
  | .mmBulkBegin => .mmBulkBegin
  | .mmBulkPush => .mmBulkPush d
  | .mmBulkCommit => .mmBulkCommit
  | .mmRestoreCommit => .mmRestoreCommit
  | .mmSetInput => .mmSetInput ⟨field w 0 4, Nat.mod_lt _ (by decide)⟩ d
  | .mmTick => .mmTick (field w 0 5) (field w 5 5)
  | .mmGetOutput => .mmGetOutput ⟨field w 0 4, Nat.mod_lt _ (by decide)⟩
  | .goSetDt => .goSetDt d
  | .goTick => .goTick (signed16 (field w 0 16)) d
  | .goRowAdvance => .goRowAdvance
  | .goGetCell => .goGetCell ⟨field w 3 5, Nat.mod_lt _ (by decide)⟩ (cornerOfBits (field w 1 2)) (compOfBits (field w 0 1))
  | .goGetLfsr => .goGetLfsr ⟨field w 0 3, Nat.mod_lt _ (by decide)⟩
  | .goGetStatus => .goGetStatus (field w 0 3)

/-- Decoding of a command word with its data word, which only a data-carrying row reads (R65, R66):
"`w` is the instruction of a row when `(w & mask) == match`". Total: every word is a row's
instruction or illegal (R69). `GO_GET_STATUS` with `SEL` 6 or 7 matches its row (R67); its meaning
raises the condition. -/
def decodeCommand (w d : Word) : Except Illegal Instr :=
  match opcodeOfNumber (opcField w) with
  | none => .error (.unassignedOpcode (opcField w))
  | some op =>
    if w &&& maskWord op = matchWord op then .ok (operandsOf op w d)
    else .error (.reservedBitSet op)

/-- What the words on the port begin with (R60, R66). -/
inductive Decoded where
  /-- a transaction that encodes a command, and the words after it -/
  | command (i : Instr) (rest : List Word)
  /-- an illegal transaction, its data word consumed if its opcode carries one -/
  | illegal (why : Illegal) (rest : List Word)
  /-- the data word of a data-carrying command word is missing -/
  | dataWordMissing
  /-- there is no command word -/
  | noCommandWord
  deriving DecidableEq, Repr

/-- A transaction from its command word, its data word and the words after it. -/
def decodedFrom (w d : Word) (rest : List Word) : Decoded :=
  match decodeCommand w d with
  | .ok i => .command i rest
  | .error e => .illegal e rest

/-- Decoding of a sequence of words: one transaction off its front (R60, R66). -/
def decode : List Word → Decoded
  | [] => .noCommandWord
  | w :: rest =>
    if carriesData w then
      match rest with
      | [] => .dataWordMissing
      | d :: rest' => decodedFrom w d rest'
    else decodedFrom w 0 rest

/-- The bytes of a word in the order of a byte transport (R46): `LITTLE` sends bits 7:0 first. -/
def wordBytes (o : Config.ByteOrder) (w : Word) : List Byte :=
  let little := [BitVec.ofNat 8 w.toNat, BitVec.ofNat 8 (w.toNat / 2 ^ 8),
    BitVec.ofNat 8 (w.toNat / 2 ^ 16), BitVec.ofNat 8 (w.toNat / 2 ^ 24)]
  match o with
  | .little => little
  | .big => little.reverse

/-- The word of four bytes of a transport (R46). -/
def wordOfBytes (o : Config.ByteOrder) (b0 b1 b2 b3 : Byte) : Word :=
  match o with
  | .little => BitVec.ofNat 32 (b0.toNat + b1.toNat * 2 ^ 8 + b2.toNat * 2 ^ 16 + b3.toNat * 2 ^ 24)
  | .big => BitVec.ofNat 32 (b3.toNat + b2.toNat * 2 ^ 8 + b1.toNat * 2 ^ 16 + b0.toNat * 2 ^ 24)

/-- The words of a byte stream; bytes that do not fill a word are not a word yet. -/
def wordsOfBytes (o : Config.ByteOrder) : List Byte → List Word
  | b0 :: b1 :: b2 :: b3 :: rest => wordOfBytes o b0 b1 b2 b3 :: wordsOfBytes o rest
  | _ => []

/-- Decoding of a byte stream in a byte order (R46). -/
def decodeBytes (o : Config.ByteOrder) (bs : List Byte) : Decoded := decode (wordsOfBytes o bs)

/-- The command word of a row with its operand bits (R62). -/
def commandWord (op : Opcode) (operands : Nat) : Word :=
  BitVec.ofNat 32 (opcodeNumber op * 2 ^ 26 + operands)

/-- The bits of `CORNER` (R64). -/
def cornerBits : Corner → Nat
  | .LL => 0
  | .LR => 1
  | .UL => 2
  | .UR => 3

/-- The bits of `COMP` (R64). -/
def compBits : Comp → Nat
  | .X => 0
  | .Y => 1

/-- The 16-bit two's complement field of an integer (R62 format L). -/
def bits16 (k : Int) : Nat := (k % 2 ^ 16).toNat

/-- The words of a command (R60, R62 to R65), for a well-formed one. -/
def encode : Instr → List Word
  | .nop => [commandWord .nop 0]
  | .mmSetc o i v => [commandWord .mmSetc (o * 2 ^ 8 + i), v]
  | .mmGetc o i => [commandWord .mmGetc (o * 2 ^ 8 + i)]
  | .mmSetci idx v => [commandWord .mmSetci idx, v]
  | .mmGetci idx => [commandWord .mmGetci idx]
  | .mmBulkBegin => [commandWord .mmBulkBegin 0]
  | .mmBulkPush v => [commandWord .mmBulkPush 0, v]
  | .mmBulkCommit => [commandWord .mmBulkCommit 0]
  | .mmRestoreCommit => [commandWord .mmRestoreCommit 0]
  | .mmSetInput ch v => [commandWord .mmSetInput ch.val, v]
  | .mmTick nin nout => [commandWord .mmTick (nout * 2 ^ 5 + nin)]
  | .mmGetOutput ch => [commandWord .mmGetOutput ch.val]
  | .goSetDt v => [commandWord .goSetDt 0, v]
  | .goTick len v => [commandWord .goTick (bits16 len), v]
  | .goRowAdvance => [commandWord .goRowAdvance 0]
  | .goGetCell c k m => [commandWord .goGetCell (c.val * 2 ^ 3 + cornerBits k * 2 + compBits m)]
  | .goGetLfsr j => [commandWord .goGetLfsr j.val]
  | .goGetStatus sel => [commandWord .goGetStatus sel]

/-- The words of an instruction that the host numbers as `nbits` bits of `w`: bit 0 is the least
significant bit of the command word, and bits 63:32 are the data word; every bit from `nbits` up is
0. A command word whose opcode carries no data is the whole instruction. -/
def tableWords (nbits w : Nat) : List Word :=
  let v := w % 2 ^ nbits
  let c : Word := BitVec.ofNat 32 v
  if carriesData c then [c, BitVec.ofNat 32 (v / 2 ^ 32)] else [c]

/-- The command the decoder reads from an instruction of the opcode table. -/
def decodeTableWord (nbits w : Nat) : Option Instr :=
  match decode (tableWords nbits w) with
  | .command i _ => some i
  | _ => none

end Sys2Proof
end

