-- ==== Sys2Proof/Machine/Fetch.lean ====
section
/-! DEFINITION. Taking the next transaction or reset action off the command port (30_encoding.md R60,
20_memory.md R54, 70_reset_and_hazards.md R139), and the transaction of a decoded command. -/

namespace Sys2Proof.Machine

/-- What the front of the port holds. -/
inductive Fetched where
  /-- nothing, or a command word whose data word the host has not sent yet: the core waits (log 8) -/
  | idle
  /-- a whole transaction: its one or two words, and what comes after it -/
  | transaction (words : List Word) (rest : List PortItem)
  /-- a reset action in the place of a data word (R139, log 9) -/
  | brokenTransaction
  /-- the reset of the mixer engine -/
  | resetMm (rest : List PortItem)
  /-- the reset of the oscillator engine -/
  | resetGo (seed : Seed) (rest : List PortItem)
  /-- power-up -/
  | powerUp (seed : Seed) (rest : List PortItem)
  deriving DecidableEq, Repr

/-- The front of the port: "The length of a transaction (one or two words) is decided by the opcode
field alone" (R60). -/
def fetch : List PortItem → Fetched
  | [] => .idle
  | .resetMm :: rest => .resetMm rest
  | .resetGo seed :: rest => .resetGo seed rest
  | .powerUp seed :: rest => .powerUp seed rest
  | .word w :: rest =>
    if carriesData w then
      match rest with
      | [] => .idle
      | .word d :: rest' => .transaction [w, d] rest'
      | _ :: _ => .brokenTransaction
    else .transaction [w] rest

/-- The state with the port moved past what was taken. -/
def takePort (rest : List PortItem) (s : State) : State := { s with port := rest }

/-- The host issues words (R60). -/
def issueWords (ws : List Word) (s : State) : State := { s with port := s.port ++ ws.map .word }

/-- The host issues the bytes of words in the byte order of the transport (R46). -/
def issueBytes (bs : List Byte) (s : State) : State :=
  issueWords (wordsOfBytes s.params.byteOrder bs) s

end Sys2Proof.Machine
end

