-- ==== Sys2Proof/Machine/Step.lean ====
section
/-! DEFINITION. One step of the machine: the next transaction or reset action of the port, as one
atomic step (00_scope.md R18, 20_memory.md R49, R54). -/

namespace Sys2Proof.Machine

/-- One step. A transaction runs its command, or responds `ILLEGAL_COMMAND` (R66, R120); a reset
action resets its engine (R139); an empty port leaves the core as it is (log 8). -/
def step (s : State) : Host.Outcome State Fault Refusal :=
  match fetch s.port with
  | .idle => .next s
  | .brokenTransaction => .refused .resetDuringTransaction
  | .resetMm rest => .next (resetMm (takePort rest s))
  | .resetGo seed rest => resetGo seed (takePort rest s)
  | .powerUp seed rest => powerUpReset seed (takePort rest s)
  | .transaction words rest =>
    match decode words with
    | .command i _ => exec i (takePort rest s)
    | .illegal _ _ => illegalCommand (takePort rest s)
    | .dataWordMissing => .next s
    | .noCommandWord => .next s

/-- `s` with the instruction of `nbits` bits of `w` (every higher bit 0) as the next transaction on
the port, before whatever the host had issued already. -/
def State.withFetchWord (s : State) (nbits w : Nat) : State :=
  { s with port := (tableWords nbits w).map .word ++ s.port }

end Sys2Proof.Machine
end

