-- ==== Sys2Proof/Machine/Assembly.lean ====
section
/-! DEFINITION. The assembler syntax of 30_encoding.md R70: which operands each mnemonic takes, in
which order, how a value is written, and that an operand which does not fit its field is an assembly
error. The text of a line is read in
Machine/AssemblyText.lean. -/

namespace Sys2Proof.Machine

/-- A value, "a decimal float literal rounded to binary32 with round-to-nearest-even, or as `0x`
followed by 8 hex digits for an exact pattern" (R70). The literal is `digits · 10^exp10`. -/
inductive AsmValue where
  | decimal (neg : Bool) (digits : Nat) (exp10 : Int)
  | pattern (w : Word)
  deriving DecidableEq, Repr

/-- The names of `SEL` 0 to 5 (R70). -/
inductive StatusName where
  | x
  | W
  | y
  | dt
  | out
  | seam
  deriving DecidableEq, Repr

/-- One operand of a line. -/
inductive AsmOperand where
  | int (k : Int)
  | value (v : AsmValue)
  | corner (c : Corner)
  | comp (c : Comp)
  | status (n : StatusName)
  deriving DecidableEq, Repr

/-- The data word of a value (R70). -/
def asmWord : AsmValue → Word
  | .decimal neg digits exp10 => ofDecimal neg digits exp10
  | .pattern w => w

/-- The number of a status name (R42, R70). -/
def statusNumber : StatusName → Nat
  | .x => 0
  | .W => 1
  | .y => 2
  | .dt => 3
  | .out => 4
  | .seam => 5

/-- An integer operand as an unsigned number; none below 0. -/
def asmNat (k : Int) : Option Nat := if 0 ≤ k then some k.toNat else none

/-- An integer operand that names one of `n` things. -/
def asmFin (n : Nat) (k : Int) : Option (Fin n) :=
  if h : 0 ≤ k ∧ k.toNat < n then some ⟨k.toNat, h.2⟩ else none

/-- A command whose operands fit their fields, or an assembly error (R70). -/
def fitting (i : Instr) : Option Instr := if i.wellFormed then some i else none

/-- One line of assembly (R70): the command, or none for an assembly error. -/
def assemble : Opcode → List AsmOperand → Option Instr
  | .nop, [] => some .nop
  | .mmSetc, [.int o, .int i, .value v] => do fitting (.mmSetc (← asmNat o) (← asmNat i) (asmWord v))
  | .mmGetc, [.int o, .int i] => do fitting (.mmGetc (← asmNat o) (← asmNat i))
  | .mmSetci, [.int k, .value v] => do fitting (.mmSetci (← asmNat k) (asmWord v))
  | .mmGetci, [.int k] => do fitting (.mmGetci (← asmNat k))
  | .mmBulkBegin, [] => some .mmBulkBegin
  | .mmBulkPush, [.value v] => some (.mmBulkPush (asmWord v))
  | .mmBulkCommit, [] => some .mmBulkCommit
  | .mmRestoreCommit, [] => some .mmRestoreCommit
  | .mmSetInput, [.int ch, .value v] => do fitting (.mmSetInput (← asmFin 16 ch) (asmWord v))
  | .mmTick, [.int nin, .int nout] => do fitting (.mmTick (← asmNat nin) (← asmNat nout))
  | .mmGetOutput, [.int ch] => do fitting (.mmGetOutput (← asmFin 16 ch))
  | .goSetDt, [.value v] => some (.goSetDt (asmWord v))
  | .goTick, [.int len, .value v] => fitting (.goTick len (asmWord v))
  | .goRowAdvance, [] => some .goRowAdvance
  | .goGetCell, [.int c, .corner k, .comp m] => do fitting (.goGetCell (← asmFin 32 c) k m)
  | .goGetLfsr, [.int j] => do fitting (.goGetLfsr (← asmFin 8 j))
  | .goGetStatus, [.int sel] => do fitting (.goGetStatus (← asmNat sel))
  | .goGetStatus, [.status n] => fitting (.goGetStatus (statusNumber n))
  | _, _ => none

/-- The words of a line (R60, R70). -/
def assembleWords (op : Opcode) (operands : List AsmOperand) : Option (List Word) :=
  (assemble op operands).map encode

end Sys2Proof.Machine
end

