-- ==== Sys2Proof/Machine/Pseudo.lean ====
section
/-! DEFINITION. The pseudo-instructions and their expansions (30_encoding.md R71), and the commands of
an expansion run one after the other (20_memory.md R54). -/

namespace Sys2Proof.Machine

/-- A pseudo-instruction (R71). -/
inductive Pseudo where
  /-- the document's `bulkReplace` -/
  | mmBulkReplace (values : List Word)
  /-- the document's restore of a persisted layout -/
  | mmRestore (values : List Word)
  /-- all 256 coefficients to +0.0 -/
  | mmClear
  /-- the input registers 0, 1, 2, ... (at most 16 values) -/
  | mmSetInputs (values : List Word)
  /-- the 256 coefficients in flat order -/
  | mmSnapshot
  deriving DecidableEq, Repr

/-- `MM_SET_INPUT k, vk` from channel `k` on; none when a value has no channel left (R71: `n ≤ 16`). -/
def setInputsFrom (k : Nat) : List Word → Option (List Instr)
  | [] => some []
  | v :: vs =>
    match channelOf k, setInputsFrom (k + 1) vs with
    | some ch, some rest => some (.mmSetInput ch v :: rest)
    | _, _ => none

/-- The commands of a pseudo-instruction (R71). -/
def expand : Pseudo → Option (List Instr)
  | .mmBulkReplace vs => some ([.mmBulkBegin] ++ vs.map .mmBulkPush ++ [.mmBulkCommit])
  | .mmRestore vs => some ([.mmBulkBegin] ++ vs.map .mmBulkPush ++ [.mmRestoreCommit])
  | .mmClear => some [.mmBulkBegin, .mmRestoreCommit]
  | .mmSetInputs vs => setInputsFrom 0 vs
  | .mmSnapshot => some ((List.range 256).map .mmGetci)

/-- Commands run one after the other in the order the host issues them (R54), up to the first that has
no next state. -/
def execAll : List Instr → State → Outcome
  | [], s => .next s
  | i :: is, s =>
    match exec i s with
    | .next t => execAll is t
    | .fault f => .fault f
    | .refused r => .refused r

end Sys2Proof.Machine
end

