-- ==== Sys2Proof/Machine/AssemblyText.lean ====
section
/-! DEFINITION. The text of an assembly line (30_encoding.md R70, R71): "one command per line: the
mnemonic, then its operands separated by commas". What R70 leaves open about the text (spaces, case,
how an integer and a decimal literal are written) is log 16. -/

namespace Sys2Proof.Machine

/-- The text without the spaces at its two ends. -/
def trimSpaces (cs : List Char) : List Char :=
  ((cs.dropWhile (· = ' ')).reverse.dropWhile (· = ' ')).reverse

/-- The pieces of a text between its commas; a text without a comma is one piece. -/
def splitCommas : List Char → List (List Char)
  | [] => [[]]
  | c :: cs =>
    if c = ',' then [] :: splitCommas cs
    else
      match splitCommas cs with
      | p :: ps => (c :: p) :: ps
      | [] => [[c]]

/-- The operand texts after a mnemonic. -/
def operandTexts (cs : List Char) : List (List Char) :=
  if trimSpaces cs = [] then [] else (splitCommas cs).map trimSpaces

/-- The value of a digit up to `f`. -/
def hexDigit (c : Char) : Option Nat :=
  if '0'.toNat ≤ c.toNat ∧ c.toNat ≤ '9'.toNat then some (c.toNat - '0'.toNat)
  else if 'A'.toNat ≤ c.toNat ∧ c.toNat ≤ 'F'.toNat then some (c.toNat - 'A'.toNat + 10)
  else if 'a'.toNat ≤ c.toNat ∧ c.toNat ≤ 'f'.toNat then some (c.toNat - 'a'.toNat + 10)
  else none

/-- The number a run of digits in base 10 or 16 writes after `acc`. -/
def digitsFrom (base acc : Nat) : List Char → Option Nat
  | [] => some acc
  | c :: cs =>
    match hexDigit c with
    | some d => if d < base then digitsFrom base (base * acc + d) cs else none
    | none => none

/-- A run of at least one digit. -/
def digitsOf (base : Nat) (cs : List Char) : Option Nat :=
  if cs = [] then none else digitsFrom base 0 cs

/-- A leading sign and what follows it: true for a minus. A plus is allowed (DESIGN CHOICE, log 16). -/
def signOf : List Char → Bool × List Char
  | '-' :: cs => (true, cs)
  | '+' :: cs => (false, cs)
  | cs => (false, cs)

/-- An integer operand. R70 fixes the notation of values only and leaves that of integers open. DESIGN
CHOICE (log 16): decimal digits with an optional sign, so a hex index such as `0xFF` is an assembly
error. -/
def intText (cs : List Char) : Option Int :=
  (digitsOf 10 (signOf cs).2).map fun n => if (signOf cs).1 then -(n : Int) else (n : Int)

/-- The exponent after the `e` of a literal, a signed decimal integer; none written is 0 (DESIGN CHOICE,
log 16). -/
def exponentText : List Char → Option Int
  | [] => some 0
  | _ :: cs => intText cs

/-- A decimal literal without its sign: whole part, fraction, exponent. R70 says "a decimal float
literal" and no more. DESIGN CHOICE (log 16): the point, the digits on one side of it and the exponent
may each be left out (`5`, `1.`, `.5`), but at least one digit must stand before the exponent. -/
def decimalText (neg : Bool) (cs : List Char) : Option AsmValue :=
  let mantissa := cs.takeWhile fun c => c ≠ 'e' ∧ c ≠ 'E'
  let whole := mantissa.takeWhile (· ≠ '.')
  let fraction := (mantissa.dropWhile (· ≠ '.')).drop 1
  match digitsOf 10 (whole ++ fraction), exponentText (cs.dropWhile fun c => c ≠ 'e' ∧ c ≠ 'E') with
  | some n, some e => some (.decimal neg n (e - fraction.length))
  | _, _ => none

/-- A value (R70): `0x` followed by 8 hex digits, or a decimal float literal. -/
def valueText : List Char → Option AsmValue
  | '0' :: 'x' :: cs =>
    if cs.length = 8 then (digitsOf 16 cs).map fun n => .pattern (BitVec.ofNat 32 n) else none
  | cs => decimalText (signOf cs).1 (signOf cs).2

/-- A corner by its name (R70). -/
def cornerText : List Char → Option Corner
  | ['L', 'L'] => some .LL
  | ['L', 'R'] => some .LR
  | ['U', 'L'] => some .UL
  | ['U', 'R'] => some .UR
  | _ => none

/-- A component by its name (R70). -/
def compText : List Char → Option Comp
  | ['X'] => some .X
  | ['Y'] => some .Y
  | _ => none

/-- A status register by its name (R70). -/
def statusText : List Char → Option StatusName
  | ['x'] => some .x
  | ['W'] => some .W
  | ['y'] => some .y
  | ['d', 't'] => some .dt
  | ['o', 'u', 't'] => some .out
  | ['s', 'e', 'a', 'm'] => some .seam
  | _ => none

/-- How an operand is written. -/
inductive OperandKind where
  | int
  | value
  | corner
  | comp
  | sel
  deriving DecidableEq, Repr

/-- The operands of a mnemonic, in order (R70). -/
def operandKinds : Opcode → List OperandKind
  | .nop => []
  | .mmSetc => [.int, .int, .value]
  | .mmGetc => [.int, .int]
  | .mmSetci => [.int, .value]
  | .mmGetci => [.int]
  | .mmBulkBegin => []
  | .mmBulkPush => [.value]
  | .mmBulkCommit => []
  | .mmRestoreCommit => []
  | .mmSetInput => [.int, .value]
  | .mmTick => [.int, .int]
  | .mmGetOutput => [.int]
  | .goSetDt => [.value]
  | .goTick => [.int, .value]
  | .goRowAdvance => []
  | .goGetCell => [.int, .corner, .comp]
  | .goGetLfsr => [.int]
  | .goGetStatus => [.sel]

/-- One operand from its text. -/
def operandText : OperandKind → List Char → Option AsmOperand
  | .int, cs => (intText cs).map .int
  | .value, cs => (valueText cs).map .value
  | .corner, cs => (cornerText cs).map .corner
  | .comp, cs => (compText cs).map .comp
  | .sel, cs =>
    match statusText cs with
    | some n => some (.status n)
    | none => (intText cs).map .int

/-- All operands from their texts; none when their number is wrong. -/
def operandsText : List OperandKind → List (List Char) → Option (List AsmOperand)
  | [], [] => some []
  | k :: ks, t :: ts =>
    match operandText k t, operandsText ks ts with
    | some a, some as => some (a :: as)
    | _, _ => none
  | _, _ => none

/-- The mnemonics of R65. -/
def opcodeNames : List (String × Opcode) :=
  [("NOP", .nop), ("MM_SETC", .mmSetc), ("MM_GETC", .mmGetc), ("MM_SETCI", .mmSetci),
   ("MM_GETCI", .mmGetci), ("MM_BULK_BEGIN", .mmBulkBegin), ("MM_BULK_PUSH", .mmBulkPush),
   ("MM_BULK_COMMIT", .mmBulkCommit), ("MM_RESTORE_COMMIT", .mmRestoreCommit),
   ("MM_SET_INPUT", .mmSetInput), ("MM_TICK", .mmTick), ("MM_GET_OUTPUT", .mmGetOutput),
   ("GO_SET_DT", .goSetDt), ("GO_TICK", .goTick), ("GO_ROW_ADVANCE", .goRowAdvance),
   ("GO_GET_CELL", .goGetCell), ("GO_GET_LFSR", .goGetLfsr), ("GO_GET_STATUS", .goGetStatus)]

/-- The row of a mnemonic. -/
def opcodeOfName (name : List Char) : Option Opcode := opcodeNames.lookup (String.ofList name)

/-- The values of a pseudo-instruction's line. -/
def valueTexts (ts : List (List Char)) : Option (List Word) :=
  ts.mapM fun t => (valueText t).map asmWord

/-- The pseudo-instruction of a name and its operand texts (R71). -/
def pseudoOf (name : String) (ts : List (List Char)) : Option Pseudo :=
  if name = "MM_BULK_REPLACE" then (valueTexts ts).map .mmBulkReplace
  else if name = "MM_RESTORE" then (valueTexts ts).map .mmRestore
  else if name = "MM_SET_INPUTS" then (valueTexts ts).map .mmSetInputs
  else if name = "MM_CLEAR" then (if ts = [] then some .mmClear else none)
  else if name = "MM_SNAPSHOT" then (if ts = [] then some .mmSnapshot else none)
  else none

/-- The commands of one line of assembly (R70, R71): one command, the expansion of a
pseudo-instruction, or none for an assembly error. -/
def assembleLine (line : List Char) : Option (List Instr) :=
  let cs := trimSpaces line
  let name := cs.takeWhile (· ≠ ' ')
  let texts := operandTexts (cs.dropWhile (· ≠ ' '))
  match opcodeOfName name with
  | some op => do
    let operands ← operandsText (operandKinds op) texts
    let i ← assemble op operands
    some [i]
  | none => do
    let p ← pseudoOf (String.ofList name) texts
    expand p

end Sys2Proof.Machine
end

