-- ==== Sys2Proof/Safety.lean ====
section
/-! DEFINITION. What a legal state is (10_state.md R27, R32, R34 to R39), what a safe step is, and the
words the statements use for what a command leaves unchanged. -/

namespace Sys2Proof.Machine

/-! ### Legal states -/

/-- `next(c) = 0` if `c = W-1`, else `(c+1) mod 32` (R34). -/
def nextCell (W : Nat) (c : Fin 32) : Fin 32 := if c.val + 1 = W then 0 else cellIdx (c.val + 1)

/-- The shared-edge invariant (R34). -/
abbrev SharedEdges (W : Nat) (g : Grid) : Prop :=
  ∀ c : Fin 32, g[c].LR = g[nextCell W c].LL ∧ g[c].UR = g[nextCell W c].UL

/-- Every lane is non-zero (R36). -/
abbrev LanesNonzero (l : Seed) : Prop := ∀ j : Fin 8, l[j] ≠ 0#16

/-- `x` is not NaN and `0 ≤ x < f32(W)`, and `W` is in [2, 32] (R37, R38). -/
abbrev PhaseLegal (o : Oscillator) : Prop :=
  2 ≤ o.W ∧ o.W ≤ 32 ∧ fle posZero o.x = true ∧ flt o.x (f32 o.W) = true

/-- A binary32 value in [-1, 1] (R32, R97). -/
abbrev InUnit (v : Word) : Prop := fle (f32 (-1)) v = true ∧ fle v (f32 1) = true

/-- "any table whose entries all lie in [-1, 1]" (R97). -/
abbrev TableLegal (t : Config.SineLut) : Prop := ∀ k : Fin 16, InUnit t[k]

/-- Every cell value lies in [-1, 1] (R32). -/
def CellsInUnit (g : Grid) : Prop :=
  ∀ (c : Fin 32) (k : Corner) (m : Comp), InUnit (vertexComp (cellCorner g[c] k) m)

/-- `stage_cnt` is 0..257 (R27). -/
abbrev StageLegal (m : Mixer) : Prop := m.stageCnt ≤ 257

/-- `y` holds +0.0 (R39). -/
abbrev YIsZero (o : Oscillator) : Prop := o.y = posZero

/-- `MAX_PHASE_INC` is at most its default 32.0 (R9, R113). -/
abbrev MaxIncDefault (p : Config.Params) : Prop := fle p.maxPhaseInc (f32 32) = true

/-! ### Safe steps -/

/-- The step has a next state. -/
def Completes (r : Outcome) : Prop := ∃ t, r = .next t

/-- The step does not fault (R16). -/
def NoFault (r : Outcome) : Prop := ∀ f, r ≠ .fault f

/-! ### What a command leaves unchanged -/

/-- The mixer engine and its NaN counter are as before (R2). -/
def MixerKept (s t : State) : Prop := t.mm = s.mm ∧ t.mmNanTick = s.mmNanTick

/-- The oscillator engine and its NaN counter are as before (R2). -/
def OscillatorKept (s t : State) : Prop := t.go = s.go ∧ t.goNanTick = s.goNanTick

/-- Every coefficient is as before. -/
def TableKept (s t : State) : Prop := ∀ k : Fin 256, coefRead t.mm k = coefRead s.mm k

/-- The staging buffer and its counter are as before. -/
def StagingKept (s t : State) : Prop := t.mm.stage = s.mm.stage ∧ t.mm.stageCnt = s.mm.stageCnt

/-- The channel registers, the accumulator and the mixer's NaN counter are as before. -/
def ChannelsKept (s t : State) : Prop :=
  t.mm.inReg = s.mm.inReg ∧ t.mm.outReg = s.mm.outReg ∧ t.mm.acc = s.mm.acc ∧
  t.mmNanTick = s.mmNanTick

/-- The parameters and what the host has still on the port are as before. -/
def InterfaceKept (s t : State) : Prop := t.params = s.params ∧ t.port = s.port

/-- Exactly one response more (R61). -/
def Responded (status : Status) (data : Word) (s t : State) : Prop :=
  t.responses = ⟨status, data⟩ :: s.responses

/-- Nothing is written but the one response. -/
def OnlyResponded (status : Status) (data : Word) (s t : State) : Prop :=
  MixerKept s t ∧ OscillatorKept s t ∧ InterfaceKept s t ∧ Responded status data s t

/-- A mixer command that completed OK with data 0: of the rest of the machine nothing changed. -/
def MixerCommand (s t : State) : Prop :=
  OscillatorKept s t ∧ InterfaceKept s t ∧ Responded .ok posZero s t

/-- An oscillator command that completed OK with the given data: of the rest of the machine nothing
changed. -/
def OscillatorCommand (data : Word) (s t : State) : Prop :=
  MixerKept s t ∧ InterfaceKept s t ∧ Responded .ok data s t

/-! ### Reference forms the statements compare with -/

/-- `flat(o, i)` as a number: `16·o + i` or `16·i + o` (R22). -/
def flatNumber (order : Config.FlatIndexOrder) (o i : Nat) : Nat :=
  match order with
  | .outMajor => 16 * o + i
  | .inMajor => 16 * i + o

/-- The neighbour whose left corners a row advance gives cell `c`: cell 0 for the boundary cell of a
short cycle when `RESEAM_ON_ROW_ADVANCE`, else `(c+1) mod 32` (R103). -/
def rowNeighbour (p : Config.Params) (W : Nat) (c : Fin 32) : Fin 32 :=
  if p.reseamOnRowAdvance = true ∧ W < 32 ∧ c.val = W - 1 then 0 else cellIdx (c.val + 1)

/-- The vertex of column `c` of the row generated from lanes `l`, lane by lane (R92, R98, R99). -/
def rowVertex (t : Config.SineLut) (l : Seed) (c : Fin 32) : Vertex :=
  ⟨lut t (lfsrSteps (4 * (c.val / 4 + 1)) l[c.val % 4]),
   lut t (lfsrSteps (4 * (c.val / 4 + 1)) l[c.val % 4 + 4])⟩

/-- The running sum of one lane over the first `n` inputs, input by input (R73 to R75), written out:
what the vector schedule must leave in `acc[o]`. Each operation draws its NaN at a site of its own
(log 4). -/
def laneSum (p : Config.Params) (nan : Nat → Word) (m : Mixer) (o : Fin 16) : Nat → Word
  | 0 =>
    match p.accInit with
    | .zero => posZero
    | .firstProduct => fmul p.ftz (nan (macSite o 0)) (coeffAt p m o 0) m.inReg[0]
  | n + 1 =>
    if h : n < 16 then
      if n = 0 ∧ p.accInit = .firstProduct then laneSum p nan m o n
      else if p.fusedMac then
        ffma p.ftz (nan (macSite o ⟨n, h⟩ + 1)) (coeffAt p m o ⟨n, h⟩) m.inReg[n] (laneSum p nan m o n)
      else
        fadd p.ftz (nan (macSite o ⟨n, h⟩ + 1)) (laneSum p nan m o n)
          (fmul p.ftz (nan (macSite o ⟨n, h⟩)) (coeffAt p m o ⟨n, h⟩) m.inReg[n])
    else laneSum p nan m o n

/-- The least magnitude, in units of 2^-149, that rounds to infinity: half a unit in the last place
above the greatest finite value (2^24 - 1) · 2^253 (R72). -/
def overflowBound : Nat := (2 ^ 25 - 1) * 2 ^ 252

/-- `r` is the exact quantity `v / d`, in units of 2^-149, rounded once to nearest with ties to even
(R11, R72): an exact zero has the sign `zeroNeg`, an overflow is the infinity of its sign, and no finite
binary32 value is nearer than a finite `r`, whose last bit is 0 where another is as near. -/
def RoundedFrom (r : Word) (zeroNeg : Bool) (v : Int) (d : Nat) : Prop :=
  if v = 0 then r = if zeroNeg then 0x80000000#32 else 0x00000000#32
  else if overflowBound * d ≤ v.natAbs then r = if v < 0 then 0xFF800000#32 else 0x7F800000#32
  else isFinite r = true ∧ fSign r = decide (v < 0) ∧
    ∀ w : Word, isFinite w = true →
      (v - fVal r * d).natAbs ≤ (v - fVal w * d).natAbs ∧
      ((v - fVal r * d).natAbs = (v - fVal w * d).natAbs → fVal w ≠ fVal r → r.toNat % 2 = 0)

/-- The kind of a command: which engine it belongs to (R2). -/
inductive CommandEngine where
  | mixer
  | oscillator
  | none
  deriving DecidableEq, Repr

/-- The engine of a command. -/
def commandEngine : Instr → CommandEngine
  | .nop => .none
  | .mmSetc _ _ _ => .mixer
  | .mmGetc _ _ => .mixer
  | .mmSetci _ _ => .mixer
  | .mmGetci _ => .mixer
  | .mmBulkBegin => .mixer
  | .mmBulkPush _ => .mixer
  | .mmBulkCommit => .mixer
  | .mmRestoreCommit => .mixer
  | .mmSetInput _ _ => .mixer
  | .mmTick _ _ => .mixer
  | .mmGetOutput _ => .mixer
  | .goSetDt _ => .oscillator
  | .goTick _ _ => .oscillator
  | .goRowAdvance => .oscillator
  | .goGetCell _ _ _ => .oscillator
  | .goGetLfsr _ => .oscillator
  | .goGetStatus _ => .oscillator

end Sys2Proof.Machine
end

