-- ==== Sys2Proof/Certificates/Slice0/Obligations.lean ====
section
/-! DEFINITION. The statements for the provers. Each docstring says which rule of spec/ it formalises. -/

open Sys2Proof Sys2Proof.Machine

/-! ### One statement per command: its encoding, that it completes, what it leaves, its frame -/

/-- R119: `NOP` is the word 0 and only responds OK; opcode 0 with any other bit set is illegal. -/
def Obligations.NopOnlyRespondsOk : Prop :=
  encode .nop = [0x00000000#32] ∧
  (∀ s : State, ∃ t, exec .nop s = .next t ∧ OnlyResponded .ok posZero s t) ∧
  ∀ w d : Word, w.toNat / 2 ^ 26 = 0 → w ≠ 0#32 → ∃ e, decodeCommand w d = .error e

/-- R76: `MM_SETC` out of range writes nothing and reports it; in range it overwrites exactly the entry
of its pair. -/
def Obligations.SetcWritesOnePairEntry : Prop :=
  (∀ (o i : Nat) (v : Word), encode (.mmSetc o i v) = [BitVec.ofNat 32 (0x04000000 + 256 * o + i), v]) ∧
  ∀ (s : State) (o i : Nat) (v : Word), ∃ t, exec (.mmSetc o i v) s = .next t ∧
    if 16 ≤ o ∨ 16 ≤ i then OnlyResponded .indexOutOfRange posZero s t
    else
      (∀ k : Fin 256, coefRead t.mm k =
        if k.val = flatNumber s.params.flatIndexOrder o i then v else coefRead s.mm k) ∧
      ChannelsKept s t ∧ StagingKept s t ∧ MixerCommand s t

/-- R77: `MM_GETC` returns the exact pattern of the pair's entry, or +0.0 with the condition; it writes
nothing. -/
def Obligations.GetcReturnsPairEntry : Prop :=
  (∀ o i : Nat, encode (.mmGetc o i) = [BitVec.ofNat 32 (0x08000000 + 256 * o + i)]) ∧
  ∀ (s : State) (o i : Nat), ∃ t, exec (.mmGetc o i) s = .next t ∧
    if 16 ≤ o ∨ 16 ≤ i then OnlyResponded .indexOutOfRange posZero s t
    else ∃ k : Fin 256, k.val = flatNumber s.params.flatIndexOrder o i ∧
      OnlyResponded .ok (coefRead s.mm k) s t

/-- R78: `MM_SETCI` out of range writes nothing and reports it; in range it overwrites exactly its
entry. -/
def Obligations.SetciWritesOneFlatEntry : Prop :=
  (∀ (idx : Nat) (v : Word), encode (.mmSetci idx v) = [BitVec.ofNat 32 (0x0C000000 + idx), v]) ∧
  ∀ (s : State) (idx : Nat) (v : Word), ∃ t, exec (.mmSetci idx v) s = .next t ∧
    if 256 ≤ idx then OnlyResponded .indexOutOfRange posZero s t
    else
      (∀ k : Fin 256, coefRead t.mm k = if k.val = idx then v else coefRead s.mm k) ∧
      ChannelsKept s t ∧ StagingKept s t ∧ MixerCommand s t

/-- R79: `MM_GETCI` returns the exact pattern of its entry, or +0.0 with the condition; it writes
nothing. -/
def Obligations.GetciReturnsFlatEntry : Prop :=
  (∀ idx : Nat, encode (.mmGetci idx) = [BitVec.ofNat 32 (0x10000000 + idx)]) ∧
  ∀ (s : State) (idx : Nat), ∃ t, exec (.mmGetci idx) s = .next t ∧
    if 256 ≤ idx then OnlyResponded .indexOutOfRange posZero s t
    else ∃ k : Fin 256, k.val = idx ∧ OnlyResponded .ok (coefRead s.mm k) s t

/-- R80: `MM_BULK_BEGIN` clears `stage_cnt` and leaves `coeff` and the staged entries. -/
def Obligations.BulkBeginClearsOnlyTheCount : Prop :=
  encode .mmBulkBegin = [0x14000000#32] ∧
  ∀ s : State, ∃ t, exec .mmBulkBegin s = .next t ∧
    t.mm.stageCnt = 0 ∧ t.mm.stage = s.mm.stage ∧ TableKept s t ∧ ChannelsKept s t ∧
    MixerCommand s t

/-- R81: `MM_BULK_PUSH` appends while fewer than 256 values are staged, then only marks the payload as
too long. -/
def Obligations.BulkPushAppendsOrSaturates : Prop :=
  (∀ v : Word, encode (.mmBulkPush v) = [0x18000000#32, v]) ∧
  ∀ (s : State) (v : Word), ∃ t, exec (.mmBulkPush v) s = .next t ∧
    (∀ k : Fin 256, t.mm.stage[k] = if k.val = s.mm.stageCnt then v else s.mm.stage[k]) ∧
    t.mm.stageCnt = (if s.mm.stageCnt < 256 then s.mm.stageCnt + 1 else 257) ∧
    TableKept s t ∧ ChannelsKept s t ∧ MixerCommand s t

/-- R82: `MM_BULK_COMMIT` replaces all 256 coefficients when exactly 256 values were pushed, else none;
it clears `stage_cnt` in both outcomes. -/
def Obligations.BulkCommitIsAllOrNothing : Prop :=
  encode .mmBulkCommit = [0x1C000000#32] ∧
  ∀ s : State, ∃ t, exec .mmBulkCommit s = .next t ∧
    t.mm.stageCnt = 0 ∧ t.mm.stage = s.mm.stage ∧ ChannelsKept s t ∧
    OscillatorKept s t ∧ InterfaceKept s t ∧
    if s.mm.stageCnt = 256 then
      (∀ k : Fin 256, coefRead t.mm k = s.mm.stage[k]) ∧ Responded .ok posZero s t
    else TableKept s t ∧ Responded .malformedBulkInput posZero s t

/-- R83: `MM_RESTORE_COMMIT` writes the staged values, zero-padded up to 256; values beyond the 256th
were discarded by the pushes. -/
def Obligations.RestoreCommitPadsWithZero : Prop :=
  encode .mmRestoreCommit = [0x20000000#32] ∧
  ∀ s : State, ∃ t, exec .mmRestoreCommit s = .next t ∧
    (∀ k : Fin 256, coefRead t.mm k =
      if k.val < min s.mm.stageCnt 256 then s.mm.stage[k] else posZero) ∧
    t.mm.stageCnt = 0 ∧ t.mm.stage = s.mm.stage ∧ ChannelsKept s t ∧ MixerCommand s t

/-- R84: `MM_SET_INPUT` writes one input channel register. -/
def Obligations.SetInputWritesOneRegister : Prop :=
  (∀ (ch : Fin 16) (v : Word),
    encode (.mmSetInput ch v) = [BitVec.ofNat 32 (0x24000000 + ch.val), v]) ∧
  ∀ (s : State) (ch : Fin 16) (v : Word), ∃ t, exec (.mmSetInput ch v) s = .next t ∧
    (∀ c : Fin 16, t.mm.inReg[c] = if c = ch then v else s.mm.inReg[c]) ∧
    t.mm.outReg = s.mm.outReg ∧ t.mm.acc = s.mm.acc ∧ t.mmNanTick = s.mmNanTick ∧
    TableKept s t ∧ StagingKept s t ∧ MixerCommand s t

/-- R85 with R73 to R75: `MM_TICK` leaves in every accumulator lane the running sum of that lane, input
by input, and copies the first `nout` lanes to the output registers. It writes nothing else of the spec's
state. `mac` is the fused or the two-rounding form, and a coefficient is that of its pair. THE MODEL'S
CHOICE (log 4): each operation draws its own NaN pattern, and the counter `mmNanTick` is one more. -/
def Obligations.TickVectorScheduleGivesLaneSums : Prop :=
  (∀ nin nout : Nat, encode (.mmTick nin nout) = [BitVec.ofNat 32 (0x28000000 + 32 * nout + nin)]) ∧
  (∀ (p : Config.Params) (nan : Nat → Word) (site : Nat) (a c v : Word), mac p nan site a c v =
    if p.fusedMac then ffma p.ftz (nan (site + 1)) c v a
    else fadd p.ftz (nan (site + 1)) a (fmul p.ftz (nan site) c v)) ∧
  (∀ (p : Config.Params) (m : Mixer) (o i : Fin 16) (k : Fin 256),
    k.val = flatNumber p.flatIndexOrder o.val i.val → coeffAt p m o i = coefRead m k) ∧
  ∀ (s : State) (nin nout : Nat), ∃ t, exec (.mmTick nin nout) s = .next t ∧
    (∀ o : Fin 16,
      t.mm.acc[o] = laneSum s.params (mixerNans s) s.mm o (channelCount nin) ∧
      t.mm.outReg[o] =
        if o.val < channelCount nout then laneSum s.params (mixerNans s) s.mm o (channelCount nin)
        else s.mm.outReg[o]) ∧
    t.mm.inReg = s.mm.inReg ∧ TableKept s t ∧ StagingKept s t ∧
    t.mmNanTick = s.mmNanTick + 1 ∧ MixerCommand s t

/-- R86: `MM_GET_OUTPUT` returns the register and writes nothing, also for a channel the last tick did
not write. -/
def Obligations.GetOutputReturnsRegister : Prop :=
  (∀ ch : Fin 16, encode (.mmGetOutput ch) = [BitVec.ofNat 32 (0x2C000000 + ch.val)]) ∧
  ∀ (s : State) (ch : Fin 16), ∃ t, exec (.mmGetOutput ch) s = .next t ∧
    OnlyResponded .ok s.mm.outReg[ch] s t

/-- R107: `GO_SET_DT` stores any pattern in `dt` and has no other effect. -/
def Obligations.SetDtStoresAnyPattern : Prop :=
  (∀ v : Word, encode (.goSetDt v) = [0x40000000#32, v]) ∧
  ∀ (s : State) (v : Word), ∃ t, exec (.goSetDt v) s = .next t ∧
    t.go.dt = v ∧ t.go.cell = s.go.cell ∧ t.go.lfsr = s.go.lfsr ∧ t.go.x = s.go.x ∧
    t.go.W = s.go.W ∧ t.go.y = s.go.y ∧ t.go.goOut = s.go.goOut ∧
    t.go.seamPending = s.go.seamPending ∧ t.goNanTick = s.goNanTick ∧
    OscillatorCommand posZero s t

/-- R114, R127, with R106 and R108: from a legal phase and with an admissible increment, a `GO_TICK`
completes, for every requested length; `x` is in [0, W) again and `W` is the clamped length. For a
`MAX_PHASE_INC` up to its default 32.0 only: above it the wrap loop need not end (R126). THE MODEL'S
CHOICE (log 4): the NaN draws, and the counter `goNanTick` is one more. -/
def Obligations.GoTickCompletesWithLegalPhase : Prop :=
  ∀ (s : State) (len : Int) (freq : Word),
    let inc := fmul s.params.ftz (oscillatorNans s 0) freq s.go.dt
    PhaseLegal s.go → MaxIncDefault s.params →
    fle posZero inc = true → fle inc s.params.maxPhaseInc = true →
    ∃ t, exec (.goTick len freq) s = .next t ∧ PhaseLegal t.go ∧ t.go.W = cycleLength len ∧
      t.go.dt = s.go.dt ∧ t.go.y = s.go.y ∧ t.goNanTick = s.goNanTick + 1 ∧
      OscillatorCommand t.go.goOut s t

/-- R108, R105, R104: a `GO_TICK` that does not wrap applies the length edit, advances `x` by one
addition, and outputs the lower linear interpolation of the cell that holds `x`. The length edit writes
the right corners of the old and of the new boundary cell and no other value. THE MODEL'S CHOICE (log 4):
the sites of the NaN draws. -/
def Obligations.GoTickWithoutWrapSamplesLowerEdge : Prop :=
  ∀ (s : State) (len : Int) (freq : Word),
    let nan := oscillatorNans s
    let ftz := s.params.ftz
    let inc := fmul ftz (nan 0) freq s.go.dt
    let x' := fadd ftz (nan 1) s.go.x inc
    let Wn := cycleLength len
    PhaseLegal s.go → YIsZero s.go → fle posZero inc = true → fle inc s.params.maxPhaseInc = true →
    flt x' (f32 Wn) = true →
    ∃ (t : State) (c : Fin 32), exec (.goTick len freq) s = .next t ∧
      (c.val : Int) = floorVal x' ∧ t.go.x = x' ∧ t.go.W = Wn ∧
      (∀ e d : Fin 32, d.val = s.go.W % 32 →
        t.go.cell[e].LL = s.go.cell[e].LL ∧ t.go.cell[e].UL = s.go.cell[e].UL ∧
        if Wn ≠ s.go.W ∧ e.val = Wn - 1 then
          t.go.cell[e].LR = s.go.cell[0].LL ∧ t.go.cell[e].UR = s.go.cell[0].UL
        else if Wn ≠ s.go.W ∧ e.val = s.go.W - 1 then
          t.go.cell[e].LR = s.go.cell[d].LL ∧ t.go.cell[e].UR = s.go.cell[d].UL
        else t.go.cell[e].LR = s.go.cell[e].LR ∧ t.go.cell[e].UR = s.go.cell[e].UR) ∧
      t.go.seamPending = (decide (Wn ≠ s.go.W) || s.go.seamPending) ∧
      t.go.lfsr = s.go.lfsr ∧ t.go.y = s.go.y ∧ t.go.dt = s.go.dt ∧
      (let a := vertexComp t.go.cell[c].LL s.params.audioComp
       let b := vertexComp t.go.cell[c].LR s.params.audioComp
       let fx := fsub ftz (nan 3) x' (f32 (c.val : Int))
       t.go.goOut = fadd ftz (nan 6) a (fmul ftz (nan 5) fx (fsub ftz (nan 4) b a))) ∧
      OscillatorCommand t.go.goOut s t

/-- R126 with R106: a `GO_TICK` whose increment is a NaN, negative or above `MAX_PHASE_INC` has no next
state, whatever the length. -/
def Obligations.GoTickInadmissibleIncrementFaults : Prop :=
  ∀ (s : State) (len : Int) (freq : Word),
    let inc := fmul s.params.ftz (oscillatorNans s 0) freq s.go.dt
    (isNaN inc = true ∨ flt inc posZero = true ∨ fle inc s.params.maxPhaseInc = false) →
    exec (.goTick len freq) s = .fault .invalidPhaseIncrement

/-- R109 with R103, R99 and R93: a row advance, corner by corner and lane by lane; the phase, the
control registers and `seam_pending` are unchanged. -/
def Obligations.RowAdvanceShiftsAndGenerates : Prop :=
  encode .goRowAdvance = [0x48000000#32] ∧
  ∀ s : State, ∃ t, exec .goRowAdvance s = .next t ∧
    (∀ c : Fin 32, t.go.cell[c].LL = s.go.cell[c].UL ∧
      t.go.cell[c].UL = rowVertex s.params.sineLut s.go.lfsr c ∧
      t.go.cell[c].LR = t.go.cell[rowNeighbour s.params s.go.W c].LL ∧
      t.go.cell[c].UR = t.go.cell[rowNeighbour s.params s.go.W c].UL) ∧
    (∀ j : Fin 8, t.go.lfsr[j] = lfsrSteps 32 s.go.lfsr[j]) ∧ t.go = s.go.rowAdvance s.params ∧
    t.go.x = s.go.x ∧ t.go.W = s.go.W ∧ t.go.y = s.go.y ∧ t.go.dt = s.go.dt ∧
    t.go.goOut = s.go.goOut ∧ t.go.seamPending = s.go.seamPending ∧ t.goNanTick = s.goNanTick ∧
    OscillatorCommand posZero s t

/-- R110: `GO_GET_CELL` returns one grid value, of a live cell or not, and writes nothing. -/
def Obligations.GetCellReturnsGridValue : Prop :=
  (∀ (c : Fin 32) (k : Corner) (m : Comp), encode (.goGetCell c k m) =
    [BitVec.ofNat 32 (0x4C000000 + 8 * c.val +
      2 * (match k with | .LL => 0 | .LR => 1 | .UL => 2 | .UR => 3) +
      (match m with | .X => 0 | .Y => 1))]) ∧
  ∀ (s : State) (c : Fin 32) (k : Corner) (m : Comp), ∃ t, exec (.goGetCell c k m) s = .next t ∧
    OnlyResponded .ok
      (match k, m with
        | .LL, .X => s.go.cell[c].LL.X
        | .LL, .Y => s.go.cell[c].LL.Y
        | .LR, .X => s.go.cell[c].LR.X
        | .LR, .Y => s.go.cell[c].LR.Y
        | .UL, .X => s.go.cell[c].UL.X
        | .UL, .Y => s.go.cell[c].UL.Y
        | .UR, .X => s.go.cell[c].UR.X
        | .UR, .Y => s.go.cell[c].UR.Y) s t

/-- R111: `GO_GET_LFSR` returns the lane zero-extended, not 0 where the lanes are non-zero (R36); the
read does not advance the LFSR. -/
def Obligations.GetLfsrReturnsLaneZeroExtended : Prop :=
  (∀ j : Fin 8, encode (.goGetLfsr j) = [BitVec.ofNat 32 (0x50000000 + j.val)]) ∧
  ∀ (s : State) (j : Fin 8), ∃ (t : State) (d : Word), exec (.goGetLfsr j) s = .next t ∧
    d.toNat = s.go.lfsr[j].toNat ∧ OnlyResponded .ok d s t ∧ (LanesNonzero s.go.lfsr → d ≠ posZero)

/-- R112 with R42 and R67: each selector's register, and `IllegalCommand` for the reserved ones; no
state is written. -/
def Obligations.GetStatusSelectsRegister : Prop :=
  (∀ sel : Nat, encode (.goGetStatus sel) = [BitVec.ofNat 32 (0x54000000 + sel)]) ∧
  ∀ (s : State) (sel : Nat), ∃ t, exec (.goGetStatus sel) s = .next t ∧
    if sel = 0 then OnlyResponded .ok s.go.x s t
    else if sel = 1 then OnlyResponded .ok (BitVec.ofNat 32 s.go.W) s t
    else if sel = 2 then OnlyResponded .ok s.go.y s t
    else if sel = 3 then OnlyResponded .ok s.go.dt s t
    else if sel = 4 then OnlyResponded .ok s.go.goOut s t
    else if sel = 5 then OnlyResponded .ok (if s.go.seamPending then 1#32 else 0#32) s t
    else OnlyResponded .illegalCommand posZero s t

/-! ### The step -/

/-- R54, R60: when the port begins with the one or two words of a command, the step is `exec` of that
command with the port moved past them. -/
def Obligations.StepRunsTheDecodedCommand : Prop :=
  (∀ (s : State) (w d : Word) (rest : List PortItem) (i : Instr), carriesData w = true →
    decodeCommand w d = .ok i → s.port = .word w :: .word d :: rest →
    step s = exec i { s with port := rest }) ∧
  (∀ (s : State) (w : Word) (rest : List PortItem) (i : Instr), carriesData w = false →
    decodeCommand w 0 = .ok i → s.port = .word w :: rest →
    step s = exec i { s with port := rest })

/-- R120 with R66: an illegal word responds `IllegalCommand` and writes nothing; the data word of an
illegal word of a data-carrying opcode is consumed. -/
def Obligations.IllegalWordOnlyResponds : Prop :=
  (∀ (s : State) (w d : Word) (rest : List PortItem) (e : Illegal), carriesData w = true →
    decodeCommand w d = .error e → s.port = .word w :: .word d :: rest →
    ∃ t, step s = .next t ∧ t.port = rest ∧ t.params = s.params ∧ MixerKept s t ∧
      OscillatorKept s t ∧ Responded .illegalCommand posZero s t) ∧
  (∀ (s : State) (w : Word) (rest : List PortItem) (e : Illegal), carriesData w = false →
    decodeCommand w 0 = .error e → s.port = .word w :: rest →
    ∃ t, step s = .next t ∧ t.port = rest ∧ t.params = s.params ∧ MixerKept s t ∧
      OscillatorKept s t ∧ Responded .illegalCommand posZero s t)

/-- R139, R140: the mixer's reset action sets every mixer state element and leaves the oscillator. -/
def Obligations.ResetMmClearsTheMixerOnly : Prop :=
  ∀ (s : State) (rest : List PortItem), s.port = .resetMm :: rest →
    ∃ t, step s = .next t ∧ (∀ k : Fin 256, coefRead t.mm k = posZero ∧ t.mm.stage[k] = posZero) ∧
      (∀ c : Fin 16, t.mm.inReg[c] = posZero ∧ t.mm.outReg[c] = posZero ∧ t.mm.acc[c] = posZero) ∧
      t.mm.stageCnt = 0 ∧ OscillatorKept s t ∧ t.params = s.params ∧ t.port = rest

/-- R141, R101: the oscillator's reset action with an admissible seed, and its refusal of a seed with a
zero lane; the mixer is left as it was. R139: power-up performs both resets, with every element of the
mixer as R140 sets it. THE MODEL'S CHOICE (logs 4 and 21): the NaN counters are kept. -/
def Obligations.ResetGoSeedsTheOscillatorOnly : Prop :=
  (∀ (s : State) (seed : Seed) (rest : List PortItem), s.port = .resetGo seed :: rest →
    ((∀ j : Fin 8, seed[j] ≠ 0#16) →
      ∃ t, step s = .next t ∧
        t.go = (Oscillator.rowAdvance s.params)^[s.params.prefillRows.val] (Oscillator.cleared seed) ∧
        (∀ (c : Fin 32) (k : Corner) (m : Comp),
          vertexComp (cellCorner (Oscillator.cleared seed).cell[c] k) m = 0x00000000#32 ∧
          (s.params.prefillRows.val = 0 → vertexComp (cellCorner t.go.cell[c] k) m = 0x00000000#32)) ∧
        (∀ j : Fin 8, t.go.lfsr[j] = lfsrSteps (32 * s.params.prefillRows.val) seed[j]) ∧
        t.go.x = posZero ∧ t.go.y = posZero ∧ t.go.W = 32 ∧ t.go.dt = posZero ∧
        t.go.goOut = posZero ∧ t.go.seamPending = false ∧ MixerKept s t ∧
        t.params = s.params ∧ t.port = rest) ∧
    ((∃ j : Fin 8, seed[j] = 0#16) → step s = .refused .seedNotAdmitted)) ∧
  (∀ (s : State) (seed : Seed) (rest : List PortItem), s.port = .powerUp seed :: rest →
    ((∀ j : Fin 8, seed[j] ≠ 0#16) →
      ∃ t u, step s = .next t ∧ step { s with port := [.resetGo seed] } = .next u ∧ t.go = u.go ∧
        (∀ k : Fin 256, coefRead t.mm k = posZero ∧ t.mm.stage[k] = posZero) ∧
        (∀ c : Fin 16, t.mm.inReg[c] = posZero ∧ t.mm.outReg[c] = posZero ∧ t.mm.acc[c] = posZero) ∧
        t.mm.stageCnt = 0 ∧ t.mmNanTick = s.mmNanTick ∧ t.goNanTick = s.goNanTick ∧
        t.params = s.params ∧ t.port = rest) ∧
    ((∃ j : Fin 8, seed[j] = 0#16) → step s = .refused .seedNotAdmitted))

/-- THE MODEL'S CHOICE (logs 8 and 9, from R138 and R139): with nothing issued the core keeps its state;
a reset action of any kind in the place of a data word is not admitted. -/
def Obligations.IdlePortKeepsTheState : Prop :=
  (∀ s : State, s.port = [] → step s = .next s) ∧
  (∀ (s : State) (w : Word), carriesData w = true → s.port = [.word w] → step s = .next s) ∧
  (∀ (s : State) (w : Word) (item : PortItem) (rest : List PortItem), carriesData w = true →
    (item = .resetMm ∨ (∃ seed, item = .resetGo seed) ∨ ∃ seed, item = .powerUp seed) →
    s.port = .word w :: item :: rest → step s = .refused .resetDuringTransaction)

/-! ### Encoding -/

/-- R65: the mnemonic, the match and the mask of every row, as the table writes them. -/
def Obligations.OpcodeTableMatchAndMask : Prop :=
  ∀ r ∈ [(Opcode.nop, "NOP", 0x00000000#32, 0xFFFFFFFF#32),
      (.mmSetc, "MM_SETC", 0x04000000#32, 0xFFFF0000#32),
      (.mmGetc, "MM_GETC", 0x08000000#32, 0xFFFF0000#32),
      (.mmSetci, "MM_SETCI", 0x0C000000#32, 0xFFFF0000#32),
      (.mmGetci, "MM_GETCI", 0x10000000#32, 0xFFFF0000#32),
      (.mmBulkBegin, "MM_BULK_BEGIN", 0x14000000#32, 0xFFFFFFFF#32),
      (.mmBulkPush, "MM_BULK_PUSH", 0x18000000#32, 0xFFFFFFFF#32),
      (.mmBulkCommit, "MM_BULK_COMMIT", 0x1C000000#32, 0xFFFFFFFF#32),
      (.mmRestoreCommit, "MM_RESTORE_COMMIT", 0x20000000#32, 0xFFFFFFFF#32),
      (.mmSetInput, "MM_SET_INPUT", 0x24000000#32, 0xFFFFFFF0#32),
      (.mmTick, "MM_TICK", 0x28000000#32, 0xFFFFFC00#32),
      (.mmGetOutput, "MM_GET_OUTPUT", 0x2C000000#32, 0xFFFFFFF0#32),
      (.goSetDt, "GO_SET_DT", 0x40000000#32, 0xFFFFFFFF#32),
      (.goTick, "GO_TICK", 0x44000000#32, 0xFFFF0000#32),
      (.goRowAdvance, "GO_ROW_ADVANCE", 0x48000000#32, 0xFFFFFFFF#32),
      (.goGetCell, "GO_GET_CELL", 0x4C000000#32, 0xFFFFFF00#32),
      (.goGetLfsr, "GO_GET_LFSR", 0x50000000#32, 0xFFFFFFF8#32),
      (.goGetStatus, "GO_GET_STATUS", 0x54000000#32, 0xFFFFFFF8#32)],
    opcodeOfName r.2.1.toList = some r.1 ∧ matchWord r.1 = r.2.2.1 ∧ maskWord r.1 = r.2.2.2

/-- EN-3, EN-5, EN-9, EN-10, CA-10 of 95_test_vectors.md (R64): a few words and what they are. -/
def Obligations.KnownWordsDecode : Prop :=
  decode [0x04000F0A#32, 0x3F800000#32] = .command (.mmSetc 15 10 0x3F800000#32) [] ∧
  decode [0x280003FF#32] = .command (.mmTick 31 31) [] ∧
  decode [0x44008000#32, 0#32] = .command (.goTick (-32768) 0#32) [] ∧
  decode [0x4C0000FF#32] = .command (.goGetCell 31 .UR .Y) [] ∧
  decode [0x0C0000FF#32, 0x40000000#32] = .command (.mmSetci 255 0x40000000#32) [] ∧
  decode [0x28000400#32] = .illegal (.reservedBitSet .mmTick) []

/-- R62 to R65: every well-formed command decodes back from its words, whatever follows them. -/
def Obligations.DecodeOfEncodeIsTheCommand : Prop :=
  ∀ (i : Instr) (rest : List Word), WellFormed i → decode (encode i ++ rest) = .command i rest

/-- R63, R65: a word that decodes to a command is the encoding of that command: no two words stand for
one command, and its data word is used unchanged. -/
def Obligations.EncodeOfDecodeIsTheWords : Prop :=
  ∀ (w d : Word) (i : Instr), decodeCommand w d = .ok i →
    WellFormed i ∧ encode i = if carriesData w then [w, d] else [w]

/-- R69: every command word is either exactly one row, with all reserved bits zero, or illegal. -/
def Obligations.EveryWordIsOneRowOrIllegal : Prop :=
  ∀ w d : Word,
    (∃ op, (∀ op', w &&& maskWord op' = matchWord op' ↔ op' = op) ∧
      decodeCommand w d = .ok (operandsOf op w d)) ∨
    ((∀ op, w &&& maskWord op ≠ matchWord op) ∧ ∃ e, decodeCommand w d = .error e)

/-- R60: a data word follows exactly for six opcodes, decided by the opcode field alone. -/
def Obligations.DataWordDecidedByOpcodeField : Prop :=
  ∀ w : Word, carriesData w = true ↔
    (w.toNat / 2 ^ 26 = 0x01 ∨ w.toNat / 2 ^ 26 = 0x03 ∨ w.toNat / 2 ^ 26 = 0x06 ∨
     w.toNat / 2 ^ 26 = 0x09 ∨ w.toNat / 2 ^ 26 = 0x10 ∨ w.toNat / 2 ^ 26 = 0x11)

/-- R46: in either byte order the words of a byte transport come back as they were sent. -/
def Obligations.ByteTransportKeepsWords : Prop :=
  ∀ (o : Config.ByteOrder) (ws : List Word), wordsOfBytes o (ws.flatMap (wordBytes o)) = ws

/-- R70, R71: the assembler gives only commands whose operands fit their fields, and their words belong
to the row of the mnemonic; so does every line, a pseudo-instruction's too. Every well-formed command is
the assembly of the operands R70 lists for its mnemonic, in that order, with a value as an exact pattern
or a rounded decimal literal; and a line is the mnemonic, then its operands separated by commas. THE
MODEL'S CHOICE (log 16): how the text of an integer and of a literal is read. -/
def Obligations.AssembledCommandsFitTheirRow : Prop :=
  (∀ (op : Opcode) (operands : List AsmOperand) (i : Instr), assemble op operands = some i →
    WellFormed i ∧ ∃ w rest, encode i = w :: rest ∧ w &&& maskWord op = matchWord op) ∧
  (∀ (line : List Char) (is : List Instr), assembleLine line = some is → ∀ i ∈ is, WellFormed i) ∧
  (∀ (o i k nin nout sel : Nat) (len : Int) (ch : Fin 16) (c : Fin 32) (j : Fin 8) (kn : Corner)
      (m : Comp) (v : AsmValue),
    assemble .nop [] = some .nop ∧
    (o < 256 → i < 256 →
      assemble .mmSetc [.int o, .int i, .value v] = some (.mmSetc o i (asmWord v)) ∧
      assemble .mmGetc [.int o, .int i] = some (.mmGetc o i)) ∧
    (k < 65536 → assemble .mmSetci [.int k, .value v] = some (.mmSetci k (asmWord v)) ∧
      assemble .mmGetci [.int k] = some (.mmGetci k)) ∧
    assemble .mmBulkBegin [] = some .mmBulkBegin ∧
    assemble .mmBulkPush [.value v] = some (.mmBulkPush (asmWord v)) ∧
    assemble .mmBulkCommit [] = some .mmBulkCommit ∧
    assemble .mmRestoreCommit [] = some .mmRestoreCommit ∧
    assemble .mmSetInput [.int ch.val, .value v] = some (.mmSetInput ch (asmWord v)) ∧
    (nin < 32 → nout < 32 → assemble .mmTick [.int nin, .int nout] = some (.mmTick nin nout)) ∧
    assemble .mmGetOutput [.int ch.val] = some (.mmGetOutput ch) ∧
    assemble .goSetDt [.value v] = some (.goSetDt (asmWord v)) ∧
    (-32768 ≤ len → len ≤ 32767 →
      assemble .goTick [.int len, .value v] = some (.goTick len (asmWord v))) ∧
    assemble .goRowAdvance [] = some .goRowAdvance ∧
    assemble .goGetCell [.int c.val, .corner kn, .comp m] = some (.goGetCell c kn m) ∧
    assemble .goGetLfsr [.int j.val] = some (.goGetLfsr j) ∧
    (sel < 8 → assemble .goGetStatus [.int sel] = some (.goGetStatus sel)) ∧
    assemble .goGetStatus [.status .x] = some (.goGetStatus 0) ∧
    assemble .goGetStatus [.status .W] = some (.goGetStatus 1) ∧
    assemble .goGetStatus [.status .y] = some (.goGetStatus 2) ∧
    assemble .goGetStatus [.status .dt] = some (.goGetStatus 3) ∧
    assemble .goGetStatus [.status .out] = some (.goGetStatus 4) ∧
    assemble .goGetStatus [.status .seam] = some (.goGetStatus 5)) ∧
  (∀ w : Word, asmWord (.pattern w) = w) ∧
  (∀ (neg : Bool) (digits : Nat) (e : Int), RoundedFrom (asmWord (.decimal neg digits e)) neg
    ((if neg then -1 else 1) * (digits * 10 ^ e.toNat * 2 ^ 149 : Nat)) (10 ^ (-e).toNat)) ∧
  (∀ (name : String) (op : Opcode) (texts : List (List Char)) (operands : List AsmOperand),
    (name, op) ∈ opcodeNames → (∀ t ∈ texts, ',' ∉ t ∧ ' ' ∉ t) →
    operandsText (operandKinds op) texts = some operands →
    assembleLine (name.toList ++ [' '] ++ [',', ' '].intercalate texts) =
      (assemble op operands).map fun i => [i])

/-! ### Invariants that every step keeps -/

/-- R37, R38: `x` is not NaN, `0 ≤ x < f32(W)`, and `W` is in [2, 32] after every completed step. -/
def Obligations.EveryStepKeepsPhaseLegal : Prop :=
  ∀ s t : State, PhaseLegal s.go → step s = .next t → PhaseLegal t.go

/-- R36 with R35: every lane is non-zero after every completed step. -/
def Obligations.EveryStepKeepsLanesNonzero : Prop :=
  ∀ s t : State, LanesNonzero s.go.lfsr → step s = .next t → LanesNonzero t.go.lfsr

/-- R34: the shared-edge invariant after every completed step, with `RESEAM_ON_ROW_ADVANCE`. -/
def Obligations.EveryStepKeepsSharedEdges : Prop :=
  ∀ s t : State, s.params.reseamOnRowAdvance = true → 2 ≤ s.go.W → s.go.W ≤ 32 →
    SharedEdges s.go.W s.go.cell → step s = .next t → SharedEdges t.go.W t.go.cell

/-- R32 with R97: with a table in [-1, 1], every cell value stays in [-1, 1]. -/
def Obligations.EveryStepKeepsCellsInUnit : Prop :=
  ∀ s t : State, TableLegal s.params.sineLut → CellsInUnit s.go.cell → step s = .next t →
    CellsInUnit t.go.cell

/-- R27, R39, R9: `stage_cnt` stays in 0..257, `y` stays +0.0, and no step changes the parameters. -/
def Obligations.EveryStepKeepsCountYAndParameters : Prop :=
  ∀ s t : State, step s = .next t →
    (StageLegal s.mm → StageLegal t.mm) ∧ (YIsZero s.go → YIsZero t.go) ∧ t.params = s.params

/-- R27, R32, R34 to R39: the machine right after reset is legal in every one of these ways. THE MODEL'S
CHOICE: its lanes and its grid come from the seed `SEED_A` (log 6) and from the default values of the
parameter `SINE_LUT` (log 7, R97); `EveryPowerUpIsLegal` names neither. -/
def Obligations.ResetStateIsLegal : Prop :=
  PhaseLegal State.reset.go ∧ LanesNonzero State.reset.go.lfsr ∧
  SharedEdges State.reset.go.W State.reset.go.cell ∧ TableLegal State.reset.params.sineLut ∧
  CellsInUnit State.reset.go.cell ∧ StageLegal State.reset.mm ∧ YIsZero State.reset.go ∧
  MaxIncDefault State.reset.params

/-- R141 with R101: power-up with any table in [-1, 1], any parameters and any admissible seed is
legal. -/
def Obligations.EveryPowerUpIsLegal : Prop :=
  ∀ (p : Config.Params) (seed : Seed), TableLegal p.sineLut → (∀ j : Fin 8, seed[j] ≠ 0#16) →
    PhaseLegal (State.powerUp p seed).go ∧ LanesNonzero (State.powerUp p seed).go.lfsr ∧
    SharedEdges (State.powerUp p seed).go.W (State.powerUp p seed).go.cell ∧
    CellsInUnit (State.powerUp p seed).go.cell ∧ StageLegal (State.powerUp p seed).mm ∧
    YIsZero (State.powerUp p seed).go

/-! ### The LFSR and the ROM -/

/-- R94: the lane step is a bijection with the inverse the rule gives, and 0 is its own image. -/
def Obligations.LfsrStepIsABijection : Prop :=
  Function.Bijective lfsrStep ∧ (∀ v, lfsrUnstep (lfsrStep v) = v) ∧ lfsrStep 0#16 = 0#16 ∧
  ∀ v, v ≠ 0#16 → lfsrStep v ≠ 0#16

/-- R95: from any non-zero lane value the step returns to it after exactly 65535 steps and visits every
non-zero value on the way. -/
def Obligations.LfsrPeriodIsMaximal : Prop :=
  ∀ v : Lane, v ≠ 0#16 →
    lfsrSteps 65535 v = v ∧ (∀ n, 0 < n → n < 65535 → lfsrSteps n v ≠ v) ∧
    ∀ w : Lane, w ≠ 0#16 → ∃ n, n < 65535 ∧ lfsrSteps n v = w

/-- R100: after 4 steps the ROM address is a function of the top 4 bits of the lane alone. -/
def Obligations.RomAddressFromTopFourBits : Prop :=
  ∀ v : Lane, (quantize (lfsrSteps 4 v)).val =
    (if v.getLsbD 15 then 0x8 else 0) ^^^ (if v.getLsbD 14 then 0xC else 0) ^^^
    (if v.getLsbD 13 then 0x6 else 0) ^^^ (if v.getLsbD 12 then 0xB else 0)

/-! ### The mixer -/

/-- R75: the vector multiply-accumulates of a tick are those of groups 0, 1, 2, 3 in turn, and within a
group those of the active inputs in ascending order (from input 1 on with `FIRST_PRODUCT`, R74). -/
def Obligations.VectorMacsInGroupAndInputOrder : Prop :=
  ∀ (p : Config.Params) (n : Nat),
    (tickOps p (channelCount n)).filterMap
        (fun op => match op with | .init _ => none | .mac g i => some (g.val, i.val)) =
      (List.range 4).flatMap fun g =>
        ((List.range (channelCount n)).drop (firstInput p)).map fun i => (g, i)

/-- R89: raising `nout` does not change the outputs already written; raising `nin` adds one `mac` at
the end of every lane. THE MODEL'S CHOICE (log 4): the site of the NaN draw of that `mac`, and that the
two ticks compared draw the same patterns. -/
def Obligations.RaisingChannelCountsOnlyAdds : Prop :=
  (∀ (p : Config.Params) (nan : Nat → Word) (m : Mixer) (nin n : Nat) (o : Fin 16), o.val < n →
    (mixerTick p nan nin (n + 1) m).outReg[o] = (mixerTick p nan nin n m).outReg[o]) ∧
  (∀ (p : Config.Params) (nan : Nat → Word) (m : Mixer) (nin : Fin 16) (nout : Nat) (o : Fin 16),
    1 ≤ nin.val →
    (mixerTick p nan (nin.val + 1) nout m).acc[o] =
      mac p nan (macSite o nin) (mixerTick p nan nin.val nout m).acc[o] (coeffAt p m o nin)
        m.inReg[nin])

/-- R85: an input register that is not active is not read: two mixers that differ only there, in the old
outputs and in the old accumulator compute the same. THE MODEL'S CHOICE (log 4): the two ticks compared
draw the same NaN patterns. -/
def Obligations.InactiveInputsDoNotContribute : Prop :=
  ∀ (p : Config.Params) (nan : Nat → Word) (m m' : Mixer) (nin nout : Nat),
    1 ≤ nin → m'.coeff = m.coeff → (∀ c : Fin 16, c.val < nin → m'.inReg[c] = m.inReg[c]) →
    ∀ o : Fin 16, (mixerTick p nan nin nout m').acc[o] = (mixerTick p nan nin nout m).acc[o] ∧
      (o.val < nout →
        (mixerTick p nan nin nout m').outReg[o] = (mixerTick p nan nin nout m).outReg[o])

/-- R64, R85, R108, R124: the channel counts and the cycle length are the clamped operands, and the tick
commands act as with those. -/
def Obligations.TickOperandsAreClamped : Prop :=
  (∀ n : Nat, channelCount n = if n < 1 then 1 else if 16 < n then 16 else n) ∧
  (∀ len : Int, (cycleLength len : Int) = if len < 2 then 2 else if 32 < len then 32 else len) ∧
  (∀ (s : State) (nin nout : Nat), exec (.mmTick nin nout) s =
    exec (.mmTick (if nin < 1 then 1 else if 16 < nin then 16 else nin)
      (if nout < 1 then 1 else if 16 < nout then 16 else nout)) s) ∧
  (∀ (s : State) (len : Int) (freq : Word), exec (.goTick len freq) s =
    exec (.goTick (if len < 2 then 2 else if 32 < len then 32 else len) freq) s)

/-- R140 with R72, R73, for the default `ACC_INIT = ZERO`: with every coefficient +0.0 and finite active
inputs, a tick writes +0.0 on every active output. -/
def Obligations.ZeroTableTickOutputsZero : Prop :=
  ∀ (s : State) (nin nout : Nat), s.params.accInit = .zero →
    (∀ k : Fin 256, coefRead s.mm k = posZero) →
    (∀ c : Fin 16, c.val < channelCount nin → isFinite s.mm.inReg[c] = true) →
    ∃ t, exec (.mmTick nin nout) s = .next t ∧
      ∀ o : Fin 16, o.val < channelCount nout → t.mm.outReg[o] = posZero

/-- R87: what is set is what is read back, bit for bit, in the pair form and in the flat form. -/
def Obligations.SetThenGetRoundTrip : Prop :=
  (∀ (s : State) (o i : Fin 16) (v : Word),
    ∃ t, execAll [.mmSetc o.val i.val v, .mmGetc o.val i.val] s = .next t ∧
      t.responses = ⟨.ok, v⟩ :: ⟨.ok, posZero⟩ :: s.responses) ∧
  (∀ (s : State) (k : Fin 256) (v : Word),
    ∃ t, execAll [.mmSetci k.val v, .mmGetci k.val] s = .next t ∧
      t.responses = ⟨.ok, v⟩ :: ⟨.ok, posZero⟩ :: s.responses)

/-- R71 with R81, R82: `MM_BULK_REPLACE` of any list of values replaces the table when it has exactly
256 and leaves every coefficient unchanged otherwise. -/
def Obligations.BulkReplaceExpansionIsAllOrNothing : Prop :=
  ∀ (s : State) (vs : List Word), ∃ (is : List Instr) (t : State),
    expand (.mmBulkReplace vs) = some is ∧ execAll is s = .next t ∧ t.mm.stageCnt = 0 ∧
    OscillatorKept s t ∧ ChannelsKept s t ∧
    if vs.length = 256 then
      (∀ k : Fin 256, vs[k.val]? = some (coefRead t.mm k)) ∧
        t.responses.head? = some ⟨.ok, posZero⟩
    else TableKept s t ∧ t.responses.head? = some ⟨.malformedBulkInput, posZero⟩

/-- R71 with R81, R83, R84: `MM_RESTORE` of any list of values pads it with +0.0 or truncates it to 256,
`MM_CLEAR` sets every coefficient to +0.0, and `MM_SET_INPUTS` of at most 16 values writes them to the
input registers 0, 1, 2, ... in order and has no expansion for more. -/
def Obligations.RestoreExpansionPadsOrTruncates : Prop :=
  (∀ (s : State) (vs : List Word), ∃ (is : List Instr) (t : State),
    expand (.mmRestore vs) = some is ∧ execAll is s = .next t ∧ t.mm.stageCnt = 0 ∧
    OscillatorKept s t ∧ ChannelsKept s t ∧
    ∀ k : Fin 256, coefRead t.mm k = (vs[k.val]?).getD posZero) ∧
  (∀ s : State, ∃ (is : List Instr) (t : State),
    expand .mmClear = some is ∧ execAll is s = .next t ∧ t.mm.stageCnt = 0 ∧
    OscillatorKept s t ∧ ChannelsKept s t ∧ ∀ k : Fin 256, coefRead t.mm k = posZero) ∧
  (∀ (s : State) (vs : List Word), vs.length ≤ 16 → ∃ (is : List Instr) (t : State),
    expand (.mmSetInputs vs) = some is ∧ is.length = vs.length ∧
    (∀ (k : Fin 16) (v : Word), vs[k.val]? = some v → is[k.val]? = some (.mmSetInput k v)) ∧
    execAll is s = .next t ∧
    (∀ k : Fin 16, t.mm.inReg[k] = (vs[k.val]?).getD s.mm.inReg[k]) ∧
    t.mm.outReg = s.mm.outReg ∧ t.mm.acc = s.mm.acc ∧ t.mmNanTick = s.mmNanTick ∧
    TableKept s t ∧ StagingKept s t ∧ OscillatorKept s t ∧ InterfaceKept s t ∧
    t.responses = List.replicate vs.length ⟨.ok, posZero⟩ ++ s.responses) ∧
  ∀ vs : List Word, 16 < vs.length → expand (.mmSetInputs vs) = none

/-- R19 with R71 and D39: the 256 responses of `MM_SNAPSHOT` on one instance, in order, bulk-replaced
into another, copy the table; the snapshot itself changes no state. -/
def Obligations.SnapshotThenReplaceCopiesTheTable : Prop :=
  ∀ a b : State, ∃ (is js : List Instr) (a' b' : State) (vs : List Word),
    expand .mmSnapshot = some is ∧ execAll is a = .next a' ∧ MixerKept a a' ∧ OscillatorKept a a' ∧
    a'.responses = (vs.map fun v => ⟨.ok, v⟩).reverse ++ a.responses ∧
    expand (.mmBulkReplace vs) = some js ∧ execAll js b = .next b' ∧
    ∀ k : Fin 256, coefRead b'.mm k = coefRead a.mm k

/-! ### Independence of the engines -/

/-- R2: no command of one engine reads or writes the state of the other. THE MODEL'S CHOICE (log 4): the
NaN counters of the engines, and that equal counters draw the same patterns. -/
def Obligations.EnginesAreIndependent : Prop :=
  (∀ (i : Instr) (s s' : State), commandEngine i = .mixer →
    s'.mm = s.mm → s'.mmNanTick = s.mmNanTick → s'.params = s.params →
    ∃ (t t' : State) (r : Response), exec i s = .next t ∧ exec i s' = .next t' ∧
      t'.mm = t.mm ∧ t.responses = r :: s.responses ∧ t'.responses = r :: s'.responses ∧
      OscillatorKept s t ∧ OscillatorKept s' t') ∧
  (∀ (i : Instr) (s s' t : State), commandEngine i = .oscillator →
    s'.go = s.go → s'.goNanTick = s.goNanTick → s'.params = s.params → exec i s = .next t →
    ∃ (t' : State) (r : Response), exec i s' = .next t' ∧ t'.go = t.go ∧
      t.responses = r :: s.responses ∧ t'.responses = r :: s'.responses ∧
      MixerKept s t ∧ MixerKept s' t')

/-! ### Binary32 -/

/-- R11, R72: `fadd`, `fsub`, `fmul` and `ffma` of finite operands are the exact sum, difference,
product and fused sum rounded once to nearest, ties to even, with overflow to infinity; with `FTZ` the
subnormal operands and results of the same operations are zeros of their sign (log 14). -/
def Obligations.RoundingIsNearestTiesToEven : Prop :=
  (∀ (zeroNeg : Bool) (v : Int) (d : Nat), 0 < d →
    RoundedFrom (roundSigned zeroNeg v d) zeroNeg v d) ∧
  (∀ nan a b c : Word, isFinite a = true → isFinite b = true → isFinite c = true →
    RoundedFrom (fadd false nan a b) (fSign a && fSign b) (fVal a + fVal b) 1 ∧
    RoundedFrom (fsub false nan a b) (fSign a && !fSign b) (fVal a - fVal b) 1 ∧
    RoundedFrom (fmul false nan a b) (fSign a != fSign b) (fVal a * fVal b) (2 ^ 149) ∧
    RoundedFrom (ffma false nan a b c) ((fSign a != fSign b) && fSign c)
      (fVal a * fVal b + fVal c * 2 ^ 149) (2 ^ 149)) ∧
  (∀ nan a b c : Word,
    let z := fun w : Word =>
      if isSubnormal w then (if fSign w then 0x80000000#32 else 0x00000000#32) else w
    fadd true nan a b = z (fadd false nan (z a) (z b)) ∧
    fsub true nan a b = z (fsub false nan (z a) (z b)) ∧
    fmul true nan a b = z (fmul false nan (z a) (z b)) ∧
    ffma true nan a b c = z (ffma false nan (z a) (z b) (z c)))

/-- R72: a result that is a NaN is the drawn quiet NaN, and the drawn patterns are quiet NaNs. That bit
22 marks a quiet NaN is taken from outside the spec (PRESUMED, log 5). -/
def Obligations.NanResultIsTheDrawnQuietNan : Prop :=
  (∀ bits, isNaN (quietNaN bits) = true ∧ (quietNaN bits).getLsbD 22 = true) ∧
  ∀ (ftz : Bool) (bits : BitVec 23) (a b c : Word),
    (isNaN (fadd ftz (quietNaN bits) a b) = true → fadd ftz (quietNaN bits) a b = quietNaN bits) ∧
    (isNaN (fmul ftz (quietNaN bits) a b) = true → fmul ftz (quietNaN bits) a b = quietNaN bits) ∧
    (isNaN (ffma ftz (quietNaN bits) a b c) = true →
      ffma ftz (quietNaN bits) a b c = quietNaN bits)

/-- R74, for `FUSED_MAC = false`: starting a lane at +0.0 instead of at the first product changes that
product only when it is -0.0. THE MODEL'S CHOICE (log 4): the site of the product's NaN draw. -/
def Obligations.ZeroStartChangesOnlyNegativeZero : Prop :=
  ∀ (p : Config.Params) (nan : Nat → Word) (site : Nat) (c v : Word), p.fusedMac = false →
    isNaN (fmul p.ftz (nan site) c v) = false →
    mac p nan site posZero c v =
      if fmul p.ftz (nan site) c v = 0x80000000#32 then posZero else fmul p.ftz (nan site) c v

/-! ### The phase -/

/-- R113 with G5: from `f32(W) ≤ x ≤ 64.0` the subtraction of the wrap loop is exact, and so is the
subtraction of the cell index from a legal `x` (with `FTZ`, where `x` is not a subnormal). -/
def Obligations.PhaseSubtractionsAreExact : Prop :=
  (∀ (ftz : Bool) (nan x : Word) (W : Nat), 2 ≤ W → W ≤ 32 → fle (f32 W) x = true →
    fle x (f32 64) = true →
    isFinite (fsub ftz nan x (f32 W)) = true ∧
    fVal (fsub ftz nan x (f32 W)) = fVal x - fVal (f32 W) ∧ fVal (f32 W) = W * 2 ^ 149) ∧
  (∀ (ftz : Bool) (nan x : Word) (c : Nat), fle posZero x = true → flt x (f32 32) = true →
    floorVal x = c → (ftz = true → isSubnormal x = false) →
    fVal (fsub ftz nan x (f32 c)) = fVal x - c * 2 ^ 149)

/-- R114, R108, R105: a completed tick performs `k` wrap events with `k · W ≤ 64`; `x` is the advanced
phase less exactly `k` times `W` and legal again, the lanes have advanced 32 steps per wrap event, and
`go_out` and the response are the interpolation of cell `floor(x)` of the grid after the wrap events at
`x - floor(x)` and `y`. The first clause says what one wrap event does. THE MODEL'S CHOICE (log 4): the
sites of the NaN draws. -/
def Obligations.WrapEventsAreBoundedAndExact : Prop :=
  (∀ (p : Config.Params) (nan : Nat → Word) (o : Oscillator), 2 ≤ o.W → o.W ≤ 32 →
    let o' := wrapEvent p nan o
    o'.x = fsub p.ftz (nan 2) o.x (f32 o.W) ∧ o'.W = o.W ∧ o'.y = o.y ∧ o'.dt = o.dt ∧
    o'.goOut = o.goOut ∧ o'.seamPending = false ∧
    (∀ j : Fin 8, o'.lfsr[j] = if p.rowAdvanceOnWrap then lfsrSteps 32 o.lfsr[j] else o.lfsr[j]) ∧
    ∀ c : Fin 32,
      if p.rowAdvanceOnWrap then
        o'.cell[c].LL = o.cell[c].UL ∧ o'.cell[c].UL = rowVertex p.sineLut o.lfsr c ∧
        o'.cell[c].LR = o'.cell[rowNeighbour p o.W c].LL ∧
        o'.cell[c].UR = o'.cell[rowNeighbour p o.W c].UL
      else
        o'.cell[c] = if o.seamPending = true ∧ c.val = o.W - 1 then
          { o.cell[c] with LR := o.cell[0].LL, UR := o.cell[0].UL } else o.cell[c]) ∧
  ∀ (s t : State) (len : Int) (freq : Word), PhaseLegal s.go → MaxIncDefault s.params →
    exec (.goTick len freq) s = .next t →
    let nan := oscillatorNans s
    let ftz := s.params.ftz
    let inc := fmul ftz (nan 0) freq s.go.dt
    let o1 := advancePhase s.params nan inc (editLength (cycleLength len) s.go)
    ∃ (k : Nat) (c : Fin 32), k * cycleLength len ≤ 64 ∧ k ≤ 32 ∧
      t.go = { (wrapEvent s.params nan)^[k] o1 with goOut := t.go.goOut } ∧
      fVal t.go.x = fVal (fadd ftz (nan 1) s.go.x inc) - k * cycleLength len * 2 ^ 149 ∧
      PhaseLegal t.go ∧
      (∀ j : Fin 8, t.go.lfsr[j] =
        lfsrSteps (if s.params.rowAdvanceOnWrap then 32 * k else 0) s.go.lfsr[j]) ∧
      (0 < k → t.go.seamPending = false) ∧
      (c.val : Int) = floorVal t.go.x ∧
      (let comp := s.params.audioComp
       let g := t.go.cell[c]
       let fx := fsub ftz (nan 3) t.go.x (f32 (c.val : Int))
       let line := fun (site : Nat) (a b u : Word) =>
         fadd ftz (nan (site + 2)) a (fmul ftz (nan (site + 1)) u (fsub ftz (nan site) b a))
       let bot := line 4 (vertexComp g.LL comp) (vertexComp g.LR comp) fx
       let top := line 7 (vertexComp g.UL comp) (vertexComp g.UR comp) fx
       t.go.goOut = if feq s.go.y posZero then bot else line 10 bot top s.go.y) ∧
      OscillatorCommand t.go.goOut s t

/-- R115: where the shared-edge invariant holds, the wrap-time splice only clears `seam_pending`. -/
def Obligations.WrapSpliceIsANoOpOnCells : Prop :=
  ∀ o : Oscillator, 2 ≤ o.W → o.W ≤ 32 → SharedEdges o.W o.cell →
    wrapSplice o = { o with seamPending := false }

/-- R116 with R108, R105: a tick during which `x` wraps exactly once, whether or not it also changes the
length, performs exactly one row advance: the lower corners of every cell are the upper corners before it,
where the shared-edge invariant held. `go_out` is read from the new lower row. THE MODEL'S CHOICE (log 4):
the sites of the NaN draws. -/
def Obligations.OneWrapIsOneRowAdvance : Prop :=
  ∀ (s : State) (len : Int) (freq : Word),
    let nan := oscillatorNans s
    let ftz := s.params.ftz
    let inc := fmul ftz (nan 0) freq s.go.dt
    let x' := fadd ftz (nan 1) s.go.x inc
    let Wn := cycleLength len
    s.params.rowAdvanceOnWrap = true → PhaseLegal s.go →
    fle posZero inc = true → fle inc s.params.maxPhaseInc = true →
    fle (f32 Wn) x' = true → flt x' (f32 (2 * Wn)) = true →
    ∃ (t : State) (c : Fin 32), exec (.goTick len freq) s = .next t ∧
      (∀ e : Fin 32, t.go.cell[e].LL = s.go.cell[e].UL ∧
        t.go.cell[e].UL = rowVertex s.params.sineLut s.go.lfsr e ∧
        t.go.cell[e].LR = t.go.cell[rowNeighbour s.params Wn e].LL ∧
        t.go.cell[e].UR = t.go.cell[rowNeighbour s.params Wn e].UL ∧
        (s.params.reseamOnRowAdvance = true → SharedEdges s.go.W s.go.cell →
          t.go.cell[e].LR = (editLength Wn s.go).cell[e].UR ∧
          (Wn = s.go.W → t.go.cell[e].LR = s.go.cell[e].UR))) ∧
      (∀ j : Fin 8, t.go.lfsr[j] = lfsrSteps 32 s.go.lfsr[j]) ∧
      t.go.x = fsub ftz (nan 2) x' (f32 Wn) ∧ t.go.W = Wn ∧ t.go.seamPending = false ∧
      (c.val : Int) = floorVal t.go.x ∧
      (YIsZero s.go →
        let a := vertexComp s.go.cell[c].UL s.params.audioComp
        let b := vertexComp s.go.cell[rowNeighbour s.params Wn c].UL s.params.audioComp
        let fx := fsub ftz (nan 3) t.go.x (f32 (c.val : Int))
        t.go.goOut = fadd ftz (nan 6) a (fmul ftz (nan 5) fx (fsub ftz (nan 4) b a))) ∧
      OscillatorCommand t.go.goOut s t
end

