-- ==== Sys2Proof/Laws/Decode.lean ====
section
/-! SUPPORT. The encoding: the opcode numbers, the fields of a command word as arithmetic, the mask test
as a range (30_encoding.md R62, R65, R66). -/

namespace Sys2Proof

@[simp] theorem opcodeOfNumber_opcodeNumber (op : Opcode) : opcodeOfNumber (opcodeNumber op) = some op := by
  cases op <;> rfl

theorem opcodeNumber_lt (op : Opcode) : opcodeNumber op < 2 ^ 6 := by cases op <;> decide

theorem opcodeNumber_injective {a b : Opcode} (h : opcodeNumber a = opcodeNumber b) : a = b := by
  have := opcodeOfNumber_opcodeNumber a
  rw [h, opcodeOfNumber_opcodeNumber] at this
  exact (Option.some.inj this).symm

/-- A row's opcode number is the one it was looked up by. -/
theorem opcodeNumber_of_opcodeOfNumber {n : Nat} {op : Opcode} (h : opcodeOfNumber n = some op) :
    opcodeNumber op = n := by
  unfold opcodeOfNumber at h
  split at h <;> simp only [Option.some.injEq, reduceCtorEq] at h <;> subst h <;> rfl

/-- A mask of high ones keeps the multiple of `2^k` below a word. -/
theorem and_highMask_toNat (w : Word) {k : Nat} (hk : k ≤ 32) :
    (w &&& BitVec.ofNat 32 (2 ^ 32 - 2 ^ k)).toNat = w.toNat / 2 ^ k * 2 ^ k := by
  have hpow : 2 ^ k ≤ 2 ^ 32 := Nat.pow_le_pow_right (by decide) hk
  have hw := w.isLt
  apply Nat.eq_of_testBit_eq
  intro i
  rw [BitVec.toNat_and, BitVec.toNat_ofNat, Nat.testBit_and, Nat.mul_comm,
    Nat.testBit_two_pow_mul, Nat.testBit_div_two_pow]
  have hpos : 0 < 2 ^ k := by positivity
  have hlt : 2 ^ 32 - 2 ^ k < 2 ^ 32 := by omega
  rw [Nat.mod_eq_of_lt hlt]
  have hm : (2 ^ 32 - 2 ^ k).testBit i = (decide (i < 32) && decide (k ≤ i)) := by
    have h1 : 2 ^ 32 - 2 ^ k = 2 ^ 32 - (2 ^ k - 1 + 1) := by omega
    rw [h1, Nat.testBit_two_pow_sub_succ (by omega), Nat.testBit_two_pow_sub_one]
    by_cases h2 : i < k
    · simp [h2]
    · simp [h2]; omega
  rw [hm]
  by_cases h2 : k ≤ i
  · have h3 : i - k + k = i := by omega
    by_cases h4 : i < 32
    · simp [h2, h4, h3]
    · have h5 : w.toNat.testBit i = false :=
        Nat.testBit_lt_two_pow (Nat.lt_of_lt_of_le hw (Nat.pow_le_pow_right (by decide) (by omega)))
      simp [h2, h4, h3, h5]
  · simp [h2]

/-- The mask test of a row as a range of the word's number: the opcode is the row's and the reserved
bits are 0 (R62, R65, R66). -/
theorem matches_iff (op : Opcode) (w : Word) :
    (w &&& maskWord op = matchWord op) ↔
      w.toNat / 2 ^ operandBits (opcodeFormat op) * 2 ^ operandBits (opcodeFormat op) =
        opcodeNumber op * 2 ^ 26 := by
  have hk : operandBits (opcodeFormat op) ≤ 32 := by cases op <;> decide
  have hn := opcodeNumber_lt op
  rw [← BitVec.toNat_inj, maskWord, and_highMask_toNat w hk, matchWord, BitVec.toNat_ofNat,
    Nat.mod_eq_of_lt (Nat.lt_of_lt_of_le (Nat.mul_lt_mul_of_pos_right hn (Nat.two_pow_pos 26)) (by decide))]

/-- A command word as its number. -/
theorem commandWord_toNat (op : Opcode) {n : Nat} (h : n < 2 ^ 26) :
    (commandWord op n).toNat = opcodeNumber op * 2 ^ 26 + n := by
  have hlt : opcodeNumber op * 2 ^ 26 + n < 2 ^ 32 :=
    calc opcodeNumber op * 2 ^ 26 + n < opcodeNumber op * 2 ^ 26 + 2 ^ 26 := Nat.add_lt_add_left h _
      _ = (opcodeNumber op + 1) * 2 ^ 26 := (Nat.succ_mul _ _).symm
      _ ≤ 2 ^ 6 * 2 ^ 26 := Nat.mul_le_mul_right _ (opcodeNumber_lt op)
  rw [commandWord, BitVec.toNat_ofNat, Nat.mod_eq_of_lt hlt]

/-- The opcode of a command word. -/
theorem opcField_commandWord (op : Opcode) {n : Nat} (h : n < 2 ^ 26) :
    opcField (commandWord op n) = opcodeNumber op := by
  unfold opcField
  rw [commandWord_toNat op h, Nat.add_comm, Nat.add_mul_div_right _ _ (Nat.two_pow_pos 26),
    Nat.div_eq_of_lt h, Nat.zero_add]

/-- Which words carry data: decided by the row of the opcode field (R60). -/
theorem carriesData_of_opcField {w : Word} {op : Opcode} (h : opcodeOfNumber (opcField w) = some op) :
    carriesData w = opcodeCarriesData op := by
  unfold carriesData; rw [h]

/-- A word of an assigned opcode with every reserved bit 0 is its row's instruction (R65). -/
theorem decodeCommand_of_matches {w d : Word} {op : Opcode} (h : opcodeOfNumber (opcField w) = some op)
    (hm : w &&& maskWord op = matchWord op) : decodeCommand w d = .ok (operandsOf op w d) := by
  unfold decodeCommand; rw [h]; dsimp only; rw [if_pos hm]

/-- A word of an assigned opcode with a reserved bit set is illegal (R66). -/
theorem decodeCommand_of_not_matches {w d : Word} {op : Opcode}
    (h : opcodeOfNumber (opcField w) = some op) (hm : ¬ (w &&& maskWord op = matchWord op)) :
    decodeCommand w d = .error (.reservedBitSet op) := by
  unfold decodeCommand; rw [h]; dsimp only; rw [if_neg hm]

/-- A word of an unassigned opcode is illegal (R66). -/
theorem decodeCommand_of_unassigned {w d : Word} (h : opcodeOfNumber (opcField w) = none) :
    decodeCommand w d = .error (.unassignedOpcode (opcField w)) := by
  unfold decodeCommand; rw [h]

/-- The row of a command word that was built from it. -/
theorem opcodeOfNumber_commandWord (op : Opcode) {n : Nat} (h : n < 2 ^ 26) :
    opcodeOfNumber (opcField (commandWord op n)) = some op := by
  rw [opcField_commandWord op h, opcodeOfNumber_opcodeNumber]

/-- A command word whose operands fit its format decodes to its row's operands. -/
theorem decodeCommand_commandWord (op : Opcode) {n : Nat} (d : Word)
    (h : n < 2 ^ operandBits (opcodeFormat op)) :
    decodeCommand (commandWord op n) d = .ok (operandsOf op (commandWord op n) d) := by
  have hk : 2 ^ operandBits (opcodeFormat op) ∣ 2 ^ 26 := by
    apply Nat.pow_dvd_pow; cases op <;> decide
  have h26 : n < 2 ^ 26 := Nat.lt_of_lt_of_le h (Nat.le_of_dvd (by decide) hk)
  apply decodeCommand_of_matches (opcodeOfNumber_commandWord op h26)
  rw [matches_iff, commandWord_toNat op h26]
  obtain ⟨c, hc⟩ := hk
  generalize 2 ^ operandBits (opcodeFormat op) = K at h hc ⊢
  have hK : 0 < K := by omega
  rw [hc, show opcodeNumber op * (K * c) + n = n + K * (opcodeNumber op * c) by ring,
    Nat.add_mul_div_left _ _ hK, Nat.div_eq_of_lt h]
  ring

end Sys2Proof
end

