-- ==== Sys2Proof/Laws/Float.lean ====
section
/-! SUPPORT. The binary32 operations of Machine/Float.lean: what a rounded pattern stands for, that a
representable quantity is rounded to itself, that rounding stays below a representable bound, and what
`fadd` and `fsub` give on finite operands (00_scope.md R11, 40_matrix_mixer.md R72). -/

namespace Sys2Proof.Machine

/-! ### Fields of a packed word -/

theorem withSign_toNat (neg : Bool) (P : Nat) (h : P < 2 ^ 31) :
    (withSign neg P).toNat = (if neg then 2 ^ 31 else 0) + P := by
  have : (if neg then 2 ^ 31 else 0) + P < 2 ^ 32 := by split <;> omega
  rw [withSign, BitVec.toNat_ofNat, Nat.mod_eq_of_lt this]

theorem fSign_withSign (neg : Bool) (P : Nat) (h : P < 2 ^ 31) : fSign (withSign neg P) = neg := by
  unfold fSign
  rw [withSign_toNat neg P h]
  cases neg with
  | false => simpa using h
  | true => simp

theorem fExp_withSign (neg : Bool) (P : Nat) (h : P < 2 ^ 31) :
    fExp (withSign neg P) = P / 2 ^ 23 := by
  unfold fExp
  rw [withSign_toNat neg P h]
  split <;> omega

theorem fFrac_withSign (neg : Bool) (P : Nat) (h : P < 2 ^ 31) :
    fFrac (withSign neg P) = P % 2 ^ 23 := by
  unfold fFrac
  rw [withSign_toNat neg P h]
  split <;> omega

/-- The magnitude that the pattern `q · 2^23 + r` of a rounding stands for. -/
theorem fMag_pattern (neg : Bool) (q r : Nat) (hr : r ≤ 2 ^ 24) (hq : q = 0 ∨ 2 ^ 23 ≤ r)
    (hP : q * 2 ^ 23 + r < 0x7F800000) :
    fMag (withSign neg (q * 2 ^ 23 + r)) = r * 2 ^ q := by
  have hlt : q * 2 ^ 23 + r < 2 ^ 31 := by omega
  unfold fMag
  rw [fExp_withSign neg _ hlt, fFrac_withSign neg _ hlt]
  rcases Nat.lt_or_ge r (2 ^ 23) with h | h
  · have hq0 : q = 0 := by omega
    subst hq0
    have h1 : (0 * 2 ^ 23 + r) / 2 ^ 23 = 0 := by omega
    have h2 : (0 * 2 ^ 23 + r) % 2 ^ 23 = r := by omega
    rw [if_pos h1, h2]; simp
  · rcases Nat.lt_or_ge r (2 ^ 24) with h' | h'
    · have h1 : (q * 2 ^ 23 + r) / 2 ^ 23 = q + 1 := by omega
      have h2 : (q * 2 ^ 23 + r) % 2 ^ 23 = r - 2 ^ 23 := by omega
      rw [h1, h2, if_neg (by omega)]
      have h3 : 2 ^ 23 + (r - 2 ^ 23) = r := by omega
      rw [h3]; simp
    · have hr' : r = 2 ^ 24 := by omega
      subst hr'
      have h1 : (q * 2 ^ 23 + 2 ^ 24) / 2 ^ 23 = q + 2 := by omega
      have h2 : (q * 2 ^ 23 + 2 ^ 24) % 2 ^ 23 = 0 := by omega
      rw [h1, h2, if_neg (by omega)]
      have h3 : q + 2 - 1 = q + 1 := by omega
      rw [h3, Nat.pow_succ]; omega

/-- A pattern below that of infinity is finite. -/
theorem isFinite_withSign (neg : Bool) (P : Nat) (h : P < 0x7F800000) :
    isFinite (withSign neg P) = true := by
  unfold isFinite
  rw [fExp_withSign neg P (by omega)]
  simp; omega

theorem isNaN_eq_false_of_isFinite {w : Word} (h : isFinite w = true) : isNaN w = false := by
  unfold isFinite at h; unfold isNaN
  simp at h ⊢; intro h'; exact absurd h' h

theorem isInf_eq_false_of_isFinite {w : Word} (h : isFinite w = true) : isInf w = false := by
  unfold isFinite at h; unfold isInf
  simp at h ⊢; intro h'; exact absurd h' h

theorem fFrac_lt (w : Word) : fFrac w < 2 ^ 23 := Nat.mod_lt _ (by decide)

theorem fExp_lt (w : Word) : fExp w < 2 ^ 8 := Nat.mod_lt _ (by decide)

/-- Every finite magnitude is a 24-bit number times a power of 2. -/
theorem fMag_form (w : Word) : ∃ m k, fMag w = m * 2 ^ k ∧ m < 2 ^ 24 ∧ (k = 0 ∨ 2 ^ 23 ≤ m) ∧
    k = fExp w - 1 := by
  have hf := fFrac_lt w
  unfold fMag
  split
  · exact ⟨fFrac w, 0, by simp, by omega, Or.inl rfl, by omega⟩
  · exact ⟨2 ^ 23 + fFrac w, fExp w - 1, rfl, by omega, Or.inr (by omega), rfl⟩

/-! ### Rounding -/

/-- A rounding is one of the two neighbours, and exact when there is no remainder. -/
theorem roundHalfEven_cases (n d : Nat) :
    roundHalfEven n d = n / d ∨ (roundHalfEven n d = n / d + 1 ∧ 0 < n % d) := by
  unfold roundHalfEven
  split
  · exact Or.inl rfl
  · split
    · exact Or.inr ⟨rfl, by omega⟩
    · rcases Nat.mod_two_eq_zero_or_one (n / d) with h | h
      · exact Or.inl (by omega)
      · rcases Nat.eq_zero_or_pos (n % d) with h0 | h0
        · exfalso
          have hd : d = 0 := by omega
          subst hd; simp at h
        · exact Or.inr ⟨by omega, h0⟩

theorem roundHalfEven_of_dvd {n d : Nat} (hd : 0 < d) (h : n % d = 0) : roundHalfEven n d = n / d := by
  unfold roundHalfEven; rw [if_pos (by omega)]

/-- Rounding does not pass a whole number that bounds the exact quotient. -/
theorem roundHalfEven_le {n d R : Nat} (h : n ≤ R * d) : roundHalfEven n d ≤ R := by
  have h1 : n / d ≤ R := Nat.div_le_of_le_mul (by rw [Nat.mul_comm]; exact h)
  rcases roundHalfEven_cases n d with h2 | ⟨h2, h3⟩
  · omega
  · rw [h2]
    rcases Nat.lt_or_eq_of_le h1 with h4 | h4
    · omega
    · exfalso
      have h5 := Nat.div_add_mod n d
      rw [h4, Nat.mul_comm] at h5
      omega

/-- The magnitude a rounding stands for, in units of 2^-149. -/
def roundedValue (n d : Nat) : Nat :=
  roundHalfEven n (d * 2 ^ roundShift n d) * 2 ^ roundShift n d

/-- Where the significand of a rounding lies: at most 2^24, and at least 2^23 unless the result is a
subnormal. -/
theorem roundHalfEven_shift_range {n d : Nat} :
    roundHalfEven n (d * 2 ^ roundShift n d) ≤ 2 ^ 24 ∧
    (roundShift n d = 0 ∨ 2 ^ 23 ≤ roundHalfEven n (d * 2 ^ roundShift n d)) := by
  have hdiv : n / (d * 2 ^ roundShift n d) = n / d / 2 ^ roundShift n d := Nat.div_div_eq_div_mul _ _ _ ▸ rfl
  have key : n / d / 2 ^ roundShift n d < 2 ^ 24 ∧
      (roundShift n d = 0 ∨ 2 ^ 23 ≤ n / d / 2 ^ roundShift n d) := by
    unfold roundShift
    generalize n / d = v
    rcases Nat.eq_zero_or_pos v with hv | hv
    · subst hv; simp
    · have hlog := Nat.lt_log2_self (n := v)
      have hlow := Nat.log2_self_le (n := v) (by omega)
      rcases Nat.lt_or_ge (Nat.log2 v) 24 with h | h
      · have : Nat.log2 v - 23 = 0 := by omega
        rw [this]
        refine ⟨?_, Or.inl rfl⟩
        rw [Nat.pow_zero, Nat.div_one]
        exact Nat.lt_of_lt_of_le hlog (Nat.pow_le_pow_right (by decide) (by omega))
      · obtain ⟨e, he⟩ : ∃ e, Nat.log2 v = e + 23 := ⟨Nat.log2 v - 23, by omega⟩
        rw [he] at hlog hlow ⊢
        have : e + 23 - 23 = e := by omega
        rw [this]
        constructor
        · apply Nat.div_lt_of_lt_mul
          rw [← Nat.pow_add]
          have : e + 24 = e + 23 + 1 := by omega
          rw [this]; exact hlog
        · right
          rw [Nat.le_div_iff_mul_le (Nat.two_pow_pos e), ← Nat.pow_add, Nat.add_comm 23 e]
          exact hlow
  rw [← hdiv] at key
  have hc := roundHalfEven_cases n (d * 2 ^ roundShift n d)
  generalize roundHalfEven n (d * 2 ^ roundShift n d) = r at hc ⊢
  generalize n / (d * 2 ^ roundShift n d) = t at key hc
  generalize roundShift n d = q at key ⊢
  have hr : t ≤ r ∧ r ≤ t + 1 := by
    rcases hc with h | ⟨h, _⟩
    · exact ⟨Nat.le_of_eq h.symm, by rw [h]; exact Nat.le_succ t⟩
    · exact ⟨by rw [h]; exact Nat.le_succ t, Nat.le_of_eq h⟩
  clear hc hdiv
  refine ⟨by omega, ?_⟩
  rcases key.2 with h | h
  · exact Or.inl h
  · exact Or.inr (Nat.le_trans h hr.1)

/-- A rounding that does not overflow stands for `roundedValue`. -/
theorem fMag_roundMag {n d : Nat} (neg : Bool) (hfin : roundMag n d < 0x7F800000) :
    fMag (withSign neg (roundMag n d)) = roundedValue n d := by
  have hr := roundHalfEven_shift_range (n := n) (d := d)
  unfold roundMag at hfin ⊢
  have hlt : roundShift n d * 2 ^ 23 + roundHalfEven n (d * 2 ^ roundShift n d) < 0x7F800000 := by omega
  rw [Nat.min_eq_left (by omega)]
  exact fMag_pattern neg _ _ hr.1 hr.2 hlt

/-- The shift of a quotient below `2^(24+k)` is at most `k`. -/
theorem roundShift_le {n d k : Nat} (h : n / d < 2 ^ (24 + k)) : roundShift n d ≤ k := by
  unfold roundShift
  rcases Nat.eq_zero_or_pos (n / d) with hv | hv
  · rw [hv]; simp
  · have : Nat.log2 (n / d) < 24 + k := (Nat.log2_lt (by omega)).2 h
    omega

/-- ROUNDING A REPRESENTABLE QUANTITY IS EXACT: `m · 2^k` with a 24-bit `m`. -/
theorem roundedValue_exact {d m k : Nat} (hd : 0 < d) (hm : m < 2 ^ 24) :
    roundedValue (m * 2 ^ k * d) d = m * 2 ^ k := by
  have hq : m * 2 ^ k * d / d = m * 2 ^ k := Nat.mul_div_cancel _ hd
  have hs : roundShift (m * 2 ^ k * d) d ≤ k := by
    apply roundShift_le
    rw [hq, Nat.pow_add]
    exact Nat.mul_lt_mul_of_lt_of_le hm (Nat.le_refl _) (by positivity)
  unfold roundedValue
  generalize hsh : roundShift (m * 2 ^ k * d) d = s at hs
  obtain ⟨e, rfl⟩ : ∃ e, k = s + e := ⟨k - s, by omega⟩
  have hform : m * 2 ^ (s + e) * d = (m * 2 ^ e) * (d * 2 ^ s) := by rw [Nat.pow_add]; ring
  have hD : 0 < d * 2 ^ s := Nat.mul_pos hd (by positivity)
  rw [hform, roundHalfEven_of_dvd hD (Nat.mul_mod_left _ _), Nat.mul_div_cancel _ hD, Nat.pow_add]
  ring

/-- ROUNDING STAYS BELOW A REPRESENTABLE BOUND `m · 2^k`, `m ≤ 2^24`. -/
theorem roundedValue_le {n d m k : Nat} (hm : m ≤ 2 ^ 24) (h : n ≤ m * 2 ^ k * d) :
    roundedValue n d ≤ m * 2 ^ k := by
  have hq : n / d ≤ m * 2 ^ k := Nat.div_le_of_le_mul (by rw [Nat.mul_comm]; exact h)
  have hb : m * 2 ^ k ≤ 2 ^ (24 + k) := by
    rw [Nat.pow_add]; exact Nat.mul_le_mul_right _ hm
  have hs : ∃ R, m * 2 ^ k = R * 2 ^ roundShift n d := by
    rcases Nat.lt_or_ge (n / d) (2 ^ (24 + k)) with h1 | h1
    · have := roundShift_le h1
      obtain ⟨e, he⟩ : ∃ e, k = roundShift n d + e := ⟨k - roundShift n d, by omega⟩
      refine ⟨m * 2 ^ e, ?_⟩
      conv_lhs => rw [he, Nat.pow_add]
      ring
    · have h2 : n / d = 2 ^ (24 + k) := by omega
      have h3 : roundShift n d = k + 1 := by
        unfold roundShift; rw [h2, Nat.log2_two_pow]; omega
      refine ⟨2 ^ 23, ?_⟩
      rw [h3, ← Nat.pow_add]
      have h4 : m * 2 ^ k = 2 ^ (24 + k) := by omega
      rw [h4]; congr 1; omega
  obtain ⟨R, hR⟩ := hs
  unfold roundedValue
  rw [hR]
  apply Nat.mul_le_mul_right
  apply roundHalfEven_le
  calc n ≤ m * 2 ^ k * d := h
    _ = R * (d * 2 ^ roundShift n d) := by rw [hR]; ring

/-- The pattern of a rounding is below infinity's when its value is at most 2^277 less one unit of the
last place; here for a bound far below. -/
theorem roundMag_lt_of_le {n d K : Nat} (hK : K ≤ 200) (h : n ≤ 2 ^ K * d) :
    roundMag n d < 0x7F800000 := by
  have hq : n / d ≤ 2 ^ K := Nat.div_le_of_le_mul (by rw [Nat.mul_comm]; exact h)
  have hs : roundShift n d ≤ 177 := by
    apply roundShift_le
    exact Nat.lt_of_le_of_lt hq (Nat.pow_lt_pow_right (by decide) (by omega))
  have hr := (roundHalfEven_shift_range (n := n) (d := d)).1
  unfold roundMag
  have : roundShift n d * 2 ^ 23 ≤ 177 * 2 ^ 23 := Nat.mul_le_mul_right _ hs
  omega

/-! ### Values -/

theorem fVal_natAbs (w : Word) : (fVal w).natAbs = fMag w := by
  unfold fVal; split <;> simp

theorem fVal_withSign (neg : Bool) {P : Nat} (h : P < 2 ^ 31) :
    fVal (withSign neg P) = if neg then -(fMag (withSign neg P) : Int) else (fMag (withSign neg P) : Int) := by
  unfold fVal; rw [fSign_withSign neg P h]

@[simp] theorem fVal_signedZero (neg : Bool) : fVal (signedZero neg) = 0 := by cases neg <;> decide

@[simp] theorem isFinite_signedZero (neg : Bool) : isFinite (signedZero neg) = true := by
  cases neg <;> decide

/-- A signed rounding of a quantity of at most `2^K` units is finite, and its value is that of the
magnitude's rounding with the sign of the quantity. -/
theorem roundSigned_spec (zn : Bool) (v : Int) {d K : Nat} (hK : K ≤ 200)
    (h : v.natAbs ≤ 2 ^ K * d) :
    isFinite (roundSigned zn v d) = true ∧
    fVal (roundSigned zn v d) = v.sign * (roundedValue v.natAbs d : Int) := by
  unfold roundSigned
  split
  · rename_i h0
    subst h0; simp
  · rename_i h0
    have hlt := roundMag_lt_of_le hK h
    refine ⟨isFinite_withSign _ _ hlt, ?_⟩
    rw [fVal_withSign _ (by omega), fMag_roundMag _ hlt]
    rcases Int.lt_or_gt_of_ne h0 with hv | hv
    · simp [hv, Int.sign_eq_neg_one_of_neg hv]
    · have : ¬ v < 0 := by omega
      simp [this, Int.sign_eq_one_of_pos hv]

/-- A signed rounding of a representable quantity is exact. -/
theorem roundSigned_exact (zn : Bool) (v : Int) {d m k K : Nat} (hd : 0 < d) (hK : K ≤ 200)
    (hm : m < 2 ^ 24) (hv : v.natAbs = m * 2 ^ k * d) (h : v.natAbs ≤ 2 ^ K * d) :
    isFinite (roundSigned zn v d) = true ∧ fVal (roundSigned zn v d) * d = v := by
  obtain ⟨h1, h2⟩ := roundSigned_spec zn v hK h
  refine ⟨h1, ?_⟩
  rw [h2, hv, roundedValue_exact hd hm]
  have h3 := Int.sign_mul_natAbs v
  rw [hv] at h3
  push_cast at h3 ⊢
  rw [mul_assoc]; exact h3

/-! ### Flushing -/

@[simp] theorem flush_false (w : Word) : flush false w = w := by simp [flush]

theorem isFinite_flush {w : Word} (ftz : Bool) (h : isFinite w = true) : isFinite (flush ftz w) = true := by
  unfold flush; split
  · exact isFinite_signedZero _
  · exact h

/-- A flush leaves the value or makes it 0; a magnitude of 2^23 units or more it leaves. -/
theorem fVal_flush (ftz : Bool) (w : Word) :
    fVal (flush ftz w) = fVal w ∨ (fVal (flush ftz w) = 0 ∧ fMag w < 2 ^ 23) := by
  unfold flush; split
  · rename_i h
    right
    simp [isSubnormal] at h
    refine ⟨by simp, ?_⟩
    unfold fMag; rw [if_pos h.2.1]; exact fFrac_lt w
  · exact Or.inl rfl

theorem flush_of_normal (ftz : Bool) {w : Word} (h : 2 ^ 23 ≤ fMag w) : flush ftz w = w := by
  unfold flush; split
  · rename_i hs
    simp [isSubnormal] at hs
    have := fFrac_lt w
    unfold fMag at h; rw [if_pos hs.2.1] at h
    omega
  · rfl

theorem fVal_flush_of_zero (ftz : Bool) {w : Word} (h : fMag w = 0) : fVal (flush ftz w) = 0 := by
  rcases fVal_flush ftz w with h1 | h1
  · rw [h1]; unfold fVal; rw [h]; simp
  · exact h1.1

/-! ### Sums and differences -/

/-- The sum of finite operands is one rounding of the exact sum. -/
theorem addCore_finite {a b : Word} (nan : Word) (ha : isFinite a = true) (hb : isFinite b = true) :
    addCore nan a b = roundSigned (fSign a && fSign b) (fVal a + fVal b) 1 := by
  unfold addCore
  simp [isNaN_eq_false_of_isFinite ha, isNaN_eq_false_of_isFinite hb, isInf_eq_false_of_isFinite ha,
    isInf_eq_false_of_isFinite hb]

theorem fneg_toNat (w : Word) :
    (fneg w).toNat = if 2 ^ 31 ≤ w.toNat then w.toNat - 2 ^ 31 else w.toNat + 2 ^ 31 := by
  have hw := w.isLt
  have h : fneg w = w + 0x80000000#32 := by
    unfold fneg
    apply BitVec.eq_of_getLsbD_eq
    intro i hi
    rw [show w + 0x80000000#32 = 0x80000000#32 + w from BitVec.add_comm _ _]
    rcases Nat.lt_or_ge i 31 with h31 | h31
    · simp only [BitVec.getLsbD_xor, BitVec.getLsbD_add hi]
      have hc : BitVec.carry i 0x80000000#32 w false = false := by
        rw [BitVec.carry]
        simp only [Bool.toNat_false, Nat.add_zero, decide_eq_false_iff_not, Nat.not_le]
        have h0 : (0x80000000#32).toNat % 2 ^ i = 0 := by
          have : (2 : Nat) ^ i ∣ 2 ^ 31 := Nat.pow_dvd_pow 2 (by omega)
          exact Nat.mod_eq_zero_of_dvd this
        rw [h0, Nat.zero_add]
        exact Nat.mod_lt _ (by positivity)
      rw [hc]
      cases w.getLsbD i <;> cases (0x80000000#32).getLsbD i <;> rfl
    · have : i = 31 := by omega
      subst this
      simp only [BitVec.getLsbD_xor, BitVec.getLsbD_add hi]
      have hc : BitVec.carry 31 0x80000000#32 w false = false := by
        rw [BitVec.carry]
        simp only [Bool.toNat_false, Nat.add_zero, decide_eq_false_iff_not, Nat.not_le]
        have h0 : (0x80000000#32).toNat % 2 ^ 31 = 0 := by decide
        rw [h0, Nat.zero_add]
        exact Nat.mod_lt _ (by positivity)
      rw [hc]
      cases w.getLsbD 31 <;> rfl
  rw [h, BitVec.toNat_add]
  simp only [BitVec.toNat_ofNat]
  split <;> omega

@[simp] theorem fExp_fneg (w : Word) : fExp (fneg w) = fExp w := by
  have hw := w.isLt
  unfold fExp; rw [fneg_toNat]; split <;> omega

@[simp] theorem fFrac_fneg (w : Word) : fFrac (fneg w) = fFrac w := by
  have hw := w.isLt
  unfold fFrac; rw [fneg_toNat]; split <;> omega

@[simp] theorem fSign_fneg (w : Word) : fSign (fneg w) = !fSign w := by
  have hw := w.isLt
  unfold fSign; rw [fneg_toNat]
  split
  · rename_i h
    simp only [decide_eq_true h, Bool.not_true, decide_eq_false_iff_not]; omega
  · rename_i h
    simp only [decide_eq_false h, Bool.not_false, decide_eq_true_eq]; omega

@[simp] theorem fMag_fneg (w : Word) : fMag (fneg w) = fMag w := by simp [fMag]

@[simp] theorem isFinite_fneg (w : Word) : isFinite (fneg w) = isFinite w := by simp [isFinite]

@[simp] theorem isNaN_fneg (w : Word) : isNaN (fneg w) = isNaN w := by simp [isNaN]

@[simp] theorem fVal_fneg (w : Word) : fVal (fneg w) = -fVal w := by
  unfold fVal; simp; cases fSign w <;> simp

theorem flush_fneg (ftz : Bool) (w : Word) : flush ftz (fneg w) = fneg (flush ftz w) := by
  unfold flush isSubnormal
  simp only [fExp_fneg, fFrac_fneg, fSign_fneg]
  split
  · cases fSign w <;> rfl
  · rfl

/-- THE DIFFERENCE OF TWO FINITE VALUES THAT IS REPRESENTABLE IS EXACT (R113, G5): both operands and
the result are whole multiples of `2^k` units, and none of them is a subnormal when `FTZ` is on. -/
theorem fVal_fsub_exact (ftz : Bool) (nan : Word) {a b : Word} {m k : Nat}
    (ha : isFinite a = true) (hb : isFinite b = true)
    (hfa : flush ftz a = a) (hfb : flush ftz b = b)
    (hm : m < 2 ^ 24) (hk : k ≤ 176) (hv : fVal a - fVal b = (m * 2 ^ k : Nat))
    (hn : ftz = true → m = 0 ∨ 23 ≤ k) :
    isFinite (fsub ftz nan a b) = true ∧ fVal (fsub ftz nan a b) = fVal a - fVal b := by
  have hnb : isFinite (fneg b) = true := by simpa using hb
  have hsum : fVal a + fVal (fneg b) = (m * 2 ^ k : Nat) := by rw [fVal_fneg]; omega
  unfold fsub fadd
  rw [hfa, flush_fneg, hfb, addCore_finite nan ha hnb, hsum]
  have hb' : (((m * 2 ^ k : Nat) : Int)).natAbs = m * 2 ^ k * 1 := by rw [Int.natAbs_natCast, Nat.mul_one]
  have hle : (((m * 2 ^ k : Nat) : Int)).natAbs ≤ 2 ^ 200 * 1 := by
    rw [hb', Nat.mul_one, Nat.mul_one]
    calc m * 2 ^ k ≤ 2 ^ 24 * 2 ^ 176 :=
          Nat.mul_le_mul (by omega) (Nat.pow_le_pow_right (by decide) hk)
      _ = 2 ^ 200 := by rw [← Nat.pow_add]
  obtain ⟨h1, h2⟩ := roundSigned_exact (fSign a && fSign (fneg b)) _ (d := 1) (by decide)
    (Nat.le_refl 200) hm hb' hle
  simp only [Nat.cast_one, mul_one] at h2
  refine ⟨isFinite_flush ftz h1, ?_⟩
  rw [hv]
  rcases fVal_flush ftz (roundSigned (fSign a && fSign (fneg b)) ((m * 2 ^ k : Nat) : Int) 1) with h3 | ⟨h3, h4⟩
  · rw [h3, h2]
  · rw [h3]
    have hmag : fMag (roundSigned (fSign a && fSign (fneg b)) ((m * 2 ^ k : Nat) : Int) 1) = m * 2 ^ k := by
      rw [← fVal_natAbs, h2, Int.natAbs_natCast]
    rw [hmag] at h4
    cases ftz with
    | false => simp only [flush_false] at h3; rw [h2] at h3; exact h3.symm
    | true =>
      rcases hn rfl with h5 | h5
      · subst h5; simp
      · rcases Nat.eq_zero_or_pos m with h6 | h6
        · subst h6; simp
        · exfalso
          have : 2 ^ 23 ≤ m * 2 ^ k :=
            calc 2 ^ 23 ≤ 2 ^ k := Nat.pow_le_pow_right (by decide) h5
              _ ≤ m * 2 ^ k := Nat.le_mul_of_pos_left _ h6
          omega

/-- The sum of two finite non-negative values of at most `2^155` units (64.0) together is finite,
non-negative and at most 64.0: rounding does not pass a representable bound. -/
theorem fadd_le_sixtyFour (ftz : Bool) (nan : Word) {a b : Word}
    (ha : isFinite a = true) (hb : isFinite b = true) (ha0 : 0 ≤ fVal a) (hb0 : 0 ≤ fVal b)
    (h : fVal a + fVal b ≤ 2 ^ 155) :
    isFinite (fadd ftz nan a b) = true ∧ 0 ≤ fVal (fadd ftz nan a b) ∧
      fVal (fadd ftz nan a b) ≤ 2 ^ 155 := by
  have hfa := isFinite_flush ftz ha
  have hfb := isFinite_flush ftz hb
  have hva : 0 ≤ fVal (flush ftz a) ∧ fVal (flush ftz a) ≤ fVal a := by
    rcases fVal_flush ftz a with h1 | ⟨h1, _⟩ <;> rw [h1] <;> omega
  have hvb : 0 ≤ fVal (flush ftz b) ∧ fVal (flush ftz b) ≤ fVal b := by
    rcases fVal_flush ftz b with h1 | ⟨h1, _⟩ <;> rw [h1] <;> omega
  unfold fadd
  rw [addCore_finite nan hfa hfb]
  generalize hs : fVal (flush ftz a) + fVal (flush ftz b) = s
  have hs0 : 0 ≤ s := by omega
  have hsle : s ≤ 2 ^ 155 := by omega
  have hnat : s.natAbs ≤ 2 ^ 155 * 1 := by omega
  obtain ⟨h1, h2⟩ := roundSigned_spec (fSign (flush ftz a) && fSign (flush ftz b)) s (d := 1)
    (by decide : (155 : Nat) ≤ 200) hnat
  have hr : roundedValue s.natAbs 1 ≤ 2 ^ 155 := by
    have := roundedValue_le (n := s.natAbs) (d := 1) (m := 1) (k := 155) (by decide)
      (by omega)
    simpa using this
  have hval : 0 ≤ fVal (roundSigned (fSign (flush ftz a) && fSign (flush ftz b)) s 1) ∧
      fVal (roundSigned (fSign (flush ftz a) && fSign (flush ftz b)) s 1) ≤ 2 ^ 155 := by
    rw [h2]
    rcases Int.lt_or_eq_of_le hs0 with h3 | h3
    · rw [Int.sign_eq_one_of_pos h3]; omega
    · subst h3; simp
  refine ⟨isFinite_flush ftz h1, ?_⟩
  rcases fVal_flush ftz (roundSigned (fSign (flush ftz a) && fSign (flush ftz b)) s 1) with h3 | ⟨h3, _⟩ <;>
    rw [h3] <;> omega

/-- `f32(k)` is exact for `0 ≤ k < 2^24` (R11). -/
theorem f32_spec {k : Nat} (hk : k < 2 ^ 24) :
    isFinite (f32 (k : Int)) = true ∧ fVal (f32 (k : Int)) = (k * 2 ^ 149 : Nat) := by
  unfold f32
  have h1 : ((k : Int) * 2 ^ 149).natAbs = k * 2 ^ 149 * 1 := by
    rw [Int.natAbs_mul, Int.natAbs_natCast, Nat.mul_one]; rfl
  have h2 : ((k : Int) * 2 ^ 149).natAbs ≤ 2 ^ 173 * 1 := by
    rw [h1]
    have : k * 2 ^ 149 ≤ 2 ^ 24 * 2 ^ 149 := Nat.mul_le_mul_right _ (by omega)
    omega
  obtain ⟨h3, h4⟩ := roundSigned_exact false _ (d := 1) (by decide) (by decide : (173 : Nat) ≤ 200) hk h1 h2
  refine ⟨h3, ?_⟩
  simp only [Nat.cast_one, mul_one] at h4
  rw [h4]; push_cast; ring

end Sys2Proof.Machine
end

