-- ==== Sys2Proof/Laws/State.lean ====
section
/-! SUPPORT. One lemma per field per update, true by rfl: what each update of the state, of the mixer
engine and of the oscillator engine leaves in each field. No later proof unfolds a record update. -/

namespace Sys2Proof.Machine

/-! ### Updates of the state -/

@[simp] theorem respond_mm (st : Status) (d : Word) (s : State) :
    (respond st d s).mm = s.mm := rfl

@[simp] theorem respond_go (st : Status) (d : Word) (s : State) :
    (respond st d s).go = s.go := rfl

@[simp] theorem respond_params (st : Status) (d : Word) (s : State) :
    (respond st d s).params = s.params := rfl

@[simp] theorem respond_port (st : Status) (d : Word) (s : State) :
    (respond st d s).port = s.port := rfl

@[simp] theorem respond_responses (st : Status) (d : Word) (s : State) :
    (respond st d s).responses = ⟨st, d⟩ :: s.responses := rfl

@[simp] theorem respond_mmNanTick (st : Status) (d : Word) (s : State) :
    (respond st d s).mmNanTick = s.mmNanTick := rfl

@[simp] theorem respond_goNanTick (st : Status) (d : Word) (s : State) :
    (respond st d s).goNanTick = s.goNanTick := rfl

@[simp] theorem takePort_mm (rest : List PortItem) (s : State) :
    (takePort rest s).mm = s.mm := rfl

@[simp] theorem takePort_go (rest : List PortItem) (s : State) :
    (takePort rest s).go = s.go := rfl

@[simp] theorem takePort_params (rest : List PortItem) (s : State) :
    (takePort rest s).params = s.params := rfl

@[simp] theorem takePort_port (rest : List PortItem) (s : State) :
    (takePort rest s).port = rest := rfl

@[simp] theorem takePort_responses (rest : List PortItem) (s : State) :
    (takePort rest s).responses = s.responses := rfl

@[simp] theorem takePort_mmNanTick (rest : List PortItem) (s : State) :
    (takePort rest s).mmNanTick = s.mmNanTick := rfl

@[simp] theorem takePort_goNanTick (rest : List PortItem) (s : State) :
    (takePort rest s).goNanTick = s.goNanTick := rfl

@[simp] theorem resetMm_mm (s : State) :
    (resetMm s).mm = Mixer.reset := rfl

@[simp] theorem resetMm_go (s : State) :
    (resetMm s).go = s.go := rfl

@[simp] theorem resetMm_params (s : State) :
    (resetMm s).params = s.params := rfl

@[simp] theorem resetMm_port (s : State) :
    (resetMm s).port = s.port := rfl

@[simp] theorem resetMm_responses (s : State) :
    (resetMm s).responses = s.responses := rfl

@[simp] theorem resetMm_mmNanTick (s : State) :
    (resetMm s).mmNanTick = s.mmNanTick := rfl

@[simp] theorem resetMm_goNanTick (s : State) :
    (resetMm s).goNanTick = s.goNanTick := rfl

@[simp] theorem issueWords_mm (ws : List Word) (s : State) :
    (issueWords ws s).mm = s.mm := rfl

@[simp] theorem issueWords_go (ws : List Word) (s : State) :
    (issueWords ws s).go = s.go := rfl

@[simp] theorem issueWords_params (ws : List Word) (s : State) :
    (issueWords ws s).params = s.params := rfl

@[simp] theorem issueWords_port (ws : List Word) (s : State) :
    (issueWords ws s).port = s.port ++ ws.map .word := rfl

@[simp] theorem issueWords_responses (ws : List Word) (s : State) :
    (issueWords ws s).responses = s.responses := rfl

@[simp] theorem issueWords_mmNanTick (ws : List Word) (s : State) :
    (issueWords ws s).mmNanTick = s.mmNanTick := rfl

@[simp] theorem issueWords_goNanTick (ws : List Word) (s : State) :
    (issueWords ws s).goNanTick = s.goNanTick := rfl

@[simp] theorem withFetchWord_mm (s : State) (nbits w : Nat) :
    (s.withFetchWord nbits w).mm = s.mm := rfl

@[simp] theorem withFetchWord_go (s : State) (nbits w : Nat) :
    (s.withFetchWord nbits w).go = s.go := rfl

@[simp] theorem withFetchWord_params (s : State) (nbits w : Nat) :
    (s.withFetchWord nbits w).params = s.params := rfl

@[simp] theorem withFetchWord_port (s : State) (nbits w : Nat) :
    (s.withFetchWord nbits w).port = (tableWords nbits w).map .word ++ s.port := rfl

@[simp] theorem withFetchWord_responses (s : State) (nbits w : Nat) :
    (s.withFetchWord nbits w).responses = s.responses := rfl

@[simp] theorem withFetchWord_mmNanTick (s : State) (nbits w : Nat) :
    (s.withFetchWord nbits w).mmNanTick = s.mmNanTick := rfl

@[simp] theorem withFetchWord_goNanTick (s : State) (nbits w : Nat) :
    (s.withFetchWord nbits w).goNanTick = s.goNanTick := rfl

/-! ### Updates of the mixer engine -/

@[simp] theorem coefWrite_coeff (i : Fin 256) (v : Word) (m : Mixer) :
    (coefWrite i v m).coeff = m.coeff.set i v := rfl

@[simp] theorem coefWrite_inReg (i : Fin 256) (v : Word) (m : Mixer) :
    (coefWrite i v m).inReg = m.inReg := rfl

@[simp] theorem coefWrite_outReg (i : Fin 256) (v : Word) (m : Mixer) :
    (coefWrite i v m).outReg = m.outReg := rfl

@[simp] theorem coefWrite_acc (i : Fin 256) (v : Word) (m : Mixer) :
    (coefWrite i v m).acc = m.acc := rfl

@[simp] theorem coefWrite_stage (i : Fin 256) (v : Word) (m : Mixer) :
    (coefWrite i v m).stage = m.stage := rfl

@[simp] theorem coefWrite_stageCnt (i : Fin 256) (v : Word) (m : Mixer) :
    (coefWrite i v m).stageCnt = m.stageCnt := rfl

@[simp] theorem stagePush_coeff (v : Word) (m : Mixer) :
    (stagePush v m).coeff = m.coeff := rfl

@[simp] theorem stagePush_inReg (v : Word) (m : Mixer) :
    (stagePush v m).inReg = m.inReg := rfl

@[simp] theorem stagePush_outReg (v : Word) (m : Mixer) :
    (stagePush v m).outReg = m.outReg := rfl

@[simp] theorem stagePush_acc (v : Word) (m : Mixer) :
    (stagePush v m).acc = m.acc := rfl

@[simp] theorem stagePush_stageCnt (v : Word) (m : Mixer) :
    (stagePush v m).stageCnt = stageCntAfterPush m.stageCnt := rfl

@[simp] theorem stageClear_coeff (m : Mixer) :
    (stageClear m).coeff = m.coeff := rfl

@[simp] theorem stageClear_inReg (m : Mixer) :
    (stageClear m).inReg = m.inReg := rfl

@[simp] theorem stageClear_outReg (m : Mixer) :
    (stageClear m).outReg = m.outReg := rfl

@[simp] theorem stageClear_acc (m : Mixer) :
    (stageClear m).acc = m.acc := rfl

@[simp] theorem stageClear_stage (m : Mixer) :
    (stageClear m).stage = m.stage := rfl

@[simp] theorem stageClear_stageCnt (m : Mixer) :
    (stageClear m).stageCnt = 0 := rfl

@[simp] theorem bulkCopy_coeff (m : Mixer) :
    (bulkCopy m).coeff = m.stage := rfl

@[simp] theorem bulkCopy_inReg (m : Mixer) :
    (bulkCopy m).inReg = m.inReg := rfl

@[simp] theorem bulkCopy_outReg (m : Mixer) :
    (bulkCopy m).outReg = m.outReg := rfl

@[simp] theorem bulkCopy_acc (m : Mixer) :
    (bulkCopy m).acc = m.acc := rfl

@[simp] theorem bulkCopy_stage (m : Mixer) :
    (bulkCopy m).stage = m.stage := rfl

@[simp] theorem bulkCopy_stageCnt (m : Mixer) :
    (bulkCopy m).stageCnt = m.stageCnt := rfl

@[simp] theorem restoreCopy_coeff (m : Mixer) :
    (restoreCopy m).coeff = restoredTable m := by rw [restoreCopy]

@[simp] theorem restoreCopy_inReg (m : Mixer) :
    (restoreCopy m).inReg = m.inReg := by rw [restoreCopy]

@[simp] theorem restoreCopy_outReg (m : Mixer) :
    (restoreCopy m).outReg = m.outReg := by rw [restoreCopy]

@[simp] theorem restoreCopy_acc (m : Mixer) :
    (restoreCopy m).acc = m.acc := by rw [restoreCopy]

@[simp] theorem restoreCopy_stage (m : Mixer) :
    (restoreCopy m).stage = m.stage := by rw [restoreCopy]

@[simp] theorem restoreCopy_stageCnt (m : Mixer) :
    (restoreCopy m).stageCnt = m.stageCnt := by rw [restoreCopy]

@[simp] theorem inputWrite_coeff (ch : Fin 16) (v : Word) (m : Mixer) :
    (inputWrite ch v m).coeff = m.coeff := rfl

@[simp] theorem inputWrite_inReg (ch : Fin 16) (v : Word) (m : Mixer) :
    (inputWrite ch v m).inReg = m.inReg.set ch v := rfl

@[simp] theorem inputWrite_outReg (ch : Fin 16) (v : Word) (m : Mixer) :
    (inputWrite ch v m).outReg = m.outReg := rfl

@[simp] theorem inputWrite_acc (ch : Fin 16) (v : Word) (m : Mixer) :
    (inputWrite ch v m).acc = m.acc := rfl

@[simp] theorem inputWrite_stage (ch : Fin 16) (v : Word) (m : Mixer) :
    (inputWrite ch v m).stage = m.stage := rfl

@[simp] theorem inputWrite_stageCnt (ch : Fin 16) (v : Word) (m : Mixer) :
    (inputWrite ch v m).stageCnt = m.stageCnt := rfl

@[simp] theorem mixerTick_coeff (p : Config.Params) (nan : Nat → Word) (nin nout : Nat) (m : Mixer) :
    (mixerTick p nan nin nout m).coeff = m.coeff := rfl

@[simp] theorem mixerTick_inReg (p : Config.Params) (nan : Nat → Word) (nin nout : Nat) (m : Mixer) :
    (mixerTick p nan nin nout m).inReg = m.inReg := rfl

@[simp] theorem mixerTick_outReg (p : Config.Params) (nan : Nat → Word) (nin nout : Nat) (m : Mixer) :
    (mixerTick p nan nin nout m).outReg = tickOut (tickAcc p nan m nin) m.outReg nout := rfl

@[simp] theorem mixerTick_acc (p : Config.Params) (nan : Nat → Word) (nin nout : Nat) (m : Mixer) :
    (mixerTick p nan nin nout m).acc = tickAcc p nan m nin := rfl

@[simp] theorem mixerTick_stage (p : Config.Params) (nan : Nat → Word) (nin nout : Nat) (m : Mixer) :
    (mixerTick p nan nin nout m).stage = m.stage := rfl

@[simp] theorem mixerTick_stageCnt (p : Config.Params) (nan : Nat → Word) (nin nout : Nat) (m : Mixer) :
    (mixerTick p nan nin nout m).stageCnt = m.stageCnt := rfl

/-! ### Updates of the oscillator engine -/

@[simp] theorem rowAdvance_cell (p : Config.Params) (o : Oscillator) :
    (Oscillator.rowAdvance p o).cell = rowAdvanceGrid p o.W o.lfsr o.cell := rfl

@[simp] theorem rowAdvance_lfsr (p : Config.Params) (o : Oscillator) :
    (Oscillator.rowAdvance p o).lfsr = genRowLanes o.lfsr := rfl

@[simp] theorem rowAdvance_x (p : Config.Params) (o : Oscillator) :
    (Oscillator.rowAdvance p o).x = o.x := rfl

@[simp] theorem rowAdvance_W (p : Config.Params) (o : Oscillator) :
    (Oscillator.rowAdvance p o).W = o.W := rfl

@[simp] theorem rowAdvance_y (p : Config.Params) (o : Oscillator) :
    (Oscillator.rowAdvance p o).y = o.y := rfl

@[simp] theorem rowAdvance_dt (p : Config.Params) (o : Oscillator) :
    (Oscillator.rowAdvance p o).dt = o.dt := rfl

@[simp] theorem rowAdvance_goOut (p : Config.Params) (o : Oscillator) :
    (Oscillator.rowAdvance p o).goOut = o.goOut := rfl

@[simp] theorem rowAdvance_seamPending (p : Config.Params) (o : Oscillator) :
    (Oscillator.rowAdvance p o).seamPending = o.seamPending := rfl

@[simp] theorem editLength_cell (Wn : Nat) (o : Oscillator) :
    (editLength Wn o).cell = if Wn ≠ o.W then lengthEdit o.W Wn o.cell else o.cell := rfl

@[simp] theorem editLength_lfsr (Wn : Nat) (o : Oscillator) :
    (editLength Wn o).lfsr = o.lfsr := rfl

@[simp] theorem editLength_x (Wn : Nat) (o : Oscillator) :
    (editLength Wn o).x = o.x := rfl

@[simp] theorem editLength_W (Wn : Nat) (o : Oscillator) :
    (editLength Wn o).W = Wn := rfl

@[simp] theorem editLength_y (Wn : Nat) (o : Oscillator) :
    (editLength Wn o).y = o.y := rfl

@[simp] theorem editLength_dt (Wn : Nat) (o : Oscillator) :
    (editLength Wn o).dt = o.dt := rfl

@[simp] theorem editLength_goOut (Wn : Nat) (o : Oscillator) :
    (editLength Wn o).goOut = o.goOut := rfl

@[simp] theorem editLength_seamPending (Wn : Nat) (o : Oscillator) :
    (editLength Wn o).seamPending = seamAfterEdit o.W Wn o.seamPending := rfl

@[simp] theorem advancePhase_cell (p : Config.Params) (nan : Nat → Word) (inc : Word) (o : Oscillator) :
    (advancePhase p nan inc o).cell = o.cell := rfl

@[simp] theorem advancePhase_lfsr (p : Config.Params) (nan : Nat → Word) (inc : Word) (o : Oscillator) :
    (advancePhase p nan inc o).lfsr = o.lfsr := rfl

@[simp] theorem advancePhase_x (p : Config.Params) (nan : Nat → Word) (inc : Word) (o : Oscillator) :
    (advancePhase p nan inc o).x = fadd p.ftz (nan 1) o.x inc := rfl

@[simp] theorem advancePhase_W (p : Config.Params) (nan : Nat → Word) (inc : Word) (o : Oscillator) :
    (advancePhase p nan inc o).W = o.W := rfl

@[simp] theorem advancePhase_y (p : Config.Params) (nan : Nat → Word) (inc : Word) (o : Oscillator) :
    (advancePhase p nan inc o).y = o.y := rfl

@[simp] theorem advancePhase_dt (p : Config.Params) (nan : Nat → Word) (inc : Word) (o : Oscillator) :
    (advancePhase p nan inc o).dt = o.dt := rfl

@[simp] theorem advancePhase_goOut (p : Config.Params) (nan : Nat → Word) (inc : Word) (o : Oscillator) :
    (advancePhase p nan inc o).goOut = o.goOut := rfl

@[simp] theorem advancePhase_seamPending (p : Config.Params) (nan : Nat → Word) (inc : Word) (o : Oscillator) :
    (advancePhase p nan inc o).seamPending = o.seamPending := rfl

@[simp] theorem wrapSplice_cell (o : Oscillator) :
    (wrapSplice o).cell = if o.seamPending then splice o.W o.cell else o.cell := rfl

@[simp] theorem wrapSplice_lfsr (o : Oscillator) :
    (wrapSplice o).lfsr = o.lfsr := rfl

@[simp] theorem wrapSplice_x (o : Oscillator) :
    (wrapSplice o).x = o.x := rfl

@[simp] theorem wrapSplice_W (o : Oscillator) :
    (wrapSplice o).W = o.W := rfl

@[simp] theorem wrapSplice_y (o : Oscillator) :
    (wrapSplice o).y = o.y := rfl

@[simp] theorem wrapSplice_dt (o : Oscillator) :
    (wrapSplice o).dt = o.dt := rfl

@[simp] theorem wrapSplice_goOut (o : Oscillator) :
    (wrapSplice o).goOut = o.goOut := rfl

@[simp] theorem wrapSplice_seamPending (o : Oscillator) :
    (wrapSplice o).seamPending = false := rfl

@[simp] theorem wrapPhase_cell (p : Config.Params) (nan : Nat → Word) (o : Oscillator) :
    (wrapPhase p nan o).cell = o.cell := rfl

@[simp] theorem wrapPhase_lfsr (p : Config.Params) (nan : Nat → Word) (o : Oscillator) :
    (wrapPhase p nan o).lfsr = o.lfsr := rfl

@[simp] theorem wrapPhase_x (p : Config.Params) (nan : Nat → Word) (o : Oscillator) :
    (wrapPhase p nan o).x = fsub p.ftz (nan 2) o.x (f32 o.W) := rfl

@[simp] theorem wrapPhase_W (p : Config.Params) (nan : Nat → Word) (o : Oscillator) :
    (wrapPhase p nan o).W = o.W := rfl

@[simp] theorem wrapPhase_y (p : Config.Params) (nan : Nat → Word) (o : Oscillator) :
    (wrapPhase p nan o).y = o.y := rfl

@[simp] theorem wrapPhase_dt (p : Config.Params) (nan : Nat → Word) (o : Oscillator) :
    (wrapPhase p nan o).dt = o.dt := rfl

@[simp] theorem wrapPhase_goOut (p : Config.Params) (nan : Nat → Word) (o : Oscillator) :
    (wrapPhase p nan o).goOut = o.goOut := rfl

@[simp] theorem wrapPhase_seamPending (p : Config.Params) (nan : Nat → Word) (o : Oscillator) :
    (wrapPhase p nan o).seamPending = o.seamPending := rfl

@[simp] theorem emitSample_cell (p : Config.Params) (nan : Nat → Word) (c : Fin 32) (o : Oscillator) :
    (emitSample p nan c o).cell = o.cell := rfl

@[simp] theorem emitSample_lfsr (p : Config.Params) (nan : Nat → Word) (c : Fin 32) (o : Oscillator) :
    (emitSample p nan c o).lfsr = o.lfsr := rfl

@[simp] theorem emitSample_x (p : Config.Params) (nan : Nat → Word) (c : Fin 32) (o : Oscillator) :
    (emitSample p nan c o).x = o.x := rfl

@[simp] theorem emitSample_W (p : Config.Params) (nan : Nat → Word) (c : Fin 32) (o : Oscillator) :
    (emitSample p nan c o).W = o.W := rfl

@[simp] theorem emitSample_y (p : Config.Params) (nan : Nat → Word) (c : Fin 32) (o : Oscillator) :
    (emitSample p nan c o).y = o.y := rfl

@[simp] theorem emitSample_dt (p : Config.Params) (nan : Nat → Word) (c : Fin 32) (o : Oscillator) :
    (emitSample p nan c o).dt = o.dt := rfl

@[simp] theorem emitSample_goOut (p : Config.Params) (nan : Nat → Word) (c : Fin 32) (o : Oscillator) :
    (emitSample p nan c o).goOut = sample p nan o c (fsub p.ftz (nan 3) o.x (f32 (c.val : Int))) := rfl

@[simp] theorem emitSample_seamPending (p : Config.Params) (nan : Nat → Word) (c : Fin 32) (o : Oscillator) :
    (emitSample p nan c o).seamPending = o.seamPending := rfl

/-! ### The engines after their resets -/

@[simp] theorem mixerReset_coeff (i : Fin 256) : Mixer.reset.coeff[i] = posZero := by
  simp only [Mixer.reset, Fin.getElem_fin, Vector.getElem_replicate]

@[simp] theorem mixerReset_inReg (i : Fin 16) : Mixer.reset.inReg[i] = posZero := by
  simp only [Mixer.reset, Fin.getElem_fin, Vector.getElem_replicate]

@[simp] theorem mixerReset_outReg (i : Fin 16) : Mixer.reset.outReg[i] = posZero := by
  simp only [Mixer.reset, Fin.getElem_fin, Vector.getElem_replicate]

@[simp] theorem mixerReset_acc (i : Fin 16) : Mixer.reset.acc[i] = posZero := by
  simp only [Mixer.reset, Fin.getElem_fin, Vector.getElem_replicate]

@[simp] theorem mixerReset_stage (i : Fin 256) : Mixer.reset.stage[i] = posZero := by
  simp only [Mixer.reset, Fin.getElem_fin, Vector.getElem_replicate]

@[simp] theorem mixerReset_stageCnt : Mixer.reset.stageCnt = 0 := rfl

@[simp] theorem cleared_cell (seed : Seed) : (Oscillator.cleared seed).cell = Vector.replicate 32 zeroCell := by simp only [Oscillator.cleared]

@[simp] theorem cleared_lfsr (seed : Seed) : (Oscillator.cleared seed).lfsr = seed := by simp only [Oscillator.cleared]

@[simp] theorem cleared_x (seed : Seed) : (Oscillator.cleared seed).x = posZero := by simp only [Oscillator.cleared]

@[simp] theorem cleared_W (seed : Seed) : (Oscillator.cleared seed).W = 32 := by simp only [Oscillator.cleared]

@[simp] theorem cleared_y (seed : Seed) : (Oscillator.cleared seed).y = posZero := by simp only [Oscillator.cleared]

@[simp] theorem cleared_dt (seed : Seed) : (Oscillator.cleared seed).dt = posZero := by simp only [Oscillator.cleared]

@[simp] theorem cleared_goOut (seed : Seed) : (Oscillator.cleared seed).goOut = posZero := by simp only [Oscillator.cleared]

@[simp] theorem cleared_seamPending (seed : Seed) : (Oscillator.cleared seed).seamPending = false := by simp only [Oscillator.cleared]

@[simp] theorem powerUp_mm (p : Config.Params) (seed : Seed) : (State.powerUp p seed).mm = Mixer.reset := rfl

@[simp] theorem powerUp_go (p : Config.Params) (seed : Seed) : (State.powerUp p seed).go = Oscillator.reset p seed := rfl

@[simp] theorem powerUp_params (p : Config.Params) (seed : Seed) : (State.powerUp p seed).params = p := rfl

@[simp] theorem powerUp_port (p : Config.Params) (seed : Seed) : (State.powerUp p seed).port = [] := rfl

@[simp] theorem powerUp_responses (p : Config.Params) (seed : Seed) : (State.powerUp p seed).responses = [] := rfl

@[simp] theorem powerUp_mmNanTick (p : Config.Params) (seed : Seed) : (State.powerUp p seed).mmNanTick = 0 := rfl

@[simp] theorem powerUp_goNanTick (p : Config.Params) (seed : Seed) : (State.powerUp p seed).goNanTick = 0 := rfl

end Sys2Proof.Machine
end

