-- ==== Sys2Proof/Laws/Grid.lean ====
section
/-! SUPPORT. The grid procedures, cell by cell: what copy_right, splice, length_edit and row_advance
leave at each cell (42_grid_oscillator.md R102 to R104). -/

namespace Sys2Proof.Machine

@[simp] theorem withRightOf_LL (c d : Cell) : (withRightOf c d).LL = c.LL := rfl
@[simp] theorem withRightOf_UL (c d : Cell) : (withRightOf c d).UL = c.UL := rfl
@[simp] theorem withRightOf_LR (c d : Cell) : (withRightOf c d).LR = d.LL := rfl
@[simp] theorem withRightOf_UR (c d : Cell) : (withRightOf c d).UR = d.UL := rfl
@[simp] theorem shiftDown_LL (c : Cell) : (shiftDown c).LL = c.UL := rfl
@[simp] theorem shiftDown_LR (c : Cell) : (shiftDown c).LR = c.UR := rfl
@[simp] theorem shiftDown_UL (c : Cell) : (shiftDown c).UL = c.UL := rfl
@[simp] theorem shiftDown_UR (c : Cell) : (shiftDown c).UR = c.UR := rfl

theorem cellIdx_of_lt {n : Nat} (h : n < 32) : (cellIdx n).val = n := Nat.mod_eq_of_lt h

/-- The cells after `copy_right(c, d)`: only cell `c` changes, and only its right corners (R102). -/
theorem copyRight_getElem (c d e : Fin 32) (g : Grid) :
    (copyRight c d g)[e] = if e = c then withRightOf g[c] g[d] else g[e] := by
  unfold copyRight
  simp only [Fin.getElem_fin, Vector.getElem_set, Fin.ext_iff, eq_comm]

/-- copy_right leaves every left corner. -/
theorem copyRight_left (c d e : Fin 32) (g : Grid) :
    (copyRight c d g)[e].LL = g[e].LL ∧ (copyRight c d g)[e].UL = g[e].UL := by
  rw [copyRight_getElem]
  split
  · rename_i h; subst h; exact ⟨rfl, rfl⟩
  · exact ⟨rfl, rfl⟩

/-- WHAT A LENGTH EDIT DOES at each cell: the right corners of the new boundary cell, then of the old
one, and nothing else (R104). -/
theorem lengthEdit_getElem (Wold Wnew : Nat) (g : Grid) (e : Fin 32) :
    (lengthEdit Wold Wnew g)[e] =
      if e = cellIdx (Wnew - 1) then withRightOf g[e] g[(0 : Fin 32)]
      else if e = cellIdx (Wold - 1) then withRightOf g[e] g[cellIdx Wold]
      else g[e] := by
  have hl := fun d : Fin 32 => copyRight_left (cellIdx (Wold - 1)) (cellIdx Wold) d g
  unfold lengthEdit
  rw [copyRight_getElem]
  split
  · rename_i h; subst h
    simp only [withRightOf, hl]
  · rw [copyRight_getElem]
    split
    · rename_i h; subst h; rfl
    · rfl

/-- The grid after the shift and the new upper row (R103). -/
theorem shiftedGrid_getElem (nv : Vector Vertex 32) (g : Grid) (c : Fin 32) :
    (shiftedGrid nv g)[c] = { shiftDown g[c] with UL := nv[c] } := by
  simp only [shiftedGrid, Fin.getElem_fin, Vector.getElem_ofFn]

/-- The right corners after the recompute of a row advance (R103). -/
theorem recomputeRight_getElem (g : Grid) (c : Fin 32) :
    (recomputeRight g)[c] = withRightOf g[c] g[cellIdx (c.val + 1)] := by
  simp only [recomputeRight, Fin.getElem_fin, Vector.getElem_ofFn]

/-- The left corners after a row advance: the lower is the old upper, the upper is the generated row
(R103), whatever the reseam does. -/
theorem rowAdvanceGrid_left (p : Config.Params) (W : Nat) (l : Seed) (g : Grid) (c : Fin 32) :
    (rowAdvanceGrid p W l g)[c].LL = g[c].UL ∧
    (rowAdvanceGrid p W l g)[c].UL = (genRow p.sineLut l)[c] := by
  have h : (recomputeRight (shiftedGrid (genRow p.sineLut l) g))[c].LL = g[c].UL ∧
      (recomputeRight (shiftedGrid (genRow p.sineLut l) g))[c].UL = (genRow p.sineLut l)[c] := by
    rw [recomputeRight_getElem, withRightOf_LL, withRightOf_UL, shiftedGrid_getElem]
    exact ⟨rfl, rfl⟩
  unfold rowAdvanceGrid
  dsimp only
  split
  · unfold splice
    have h2 := copyRight_left (cellIdx (W - 1)) 0 c (recomputeRight (shiftedGrid (genRow p.sineLut l) g))
    rw [h2.1, h2.2]; exact h
  · exact h

/-- One vertex of a generated row (R99). -/
theorem genRow_getElem (t : Config.SineLut) (l : Seed) (c : Fin 32) :
    (genRow t l)[c] =
      batchVertex t (batchLanes l (c.val / 4)) ⟨c.val % 4, Nat.mod_lt _ (by decide)⟩ := by
  simp only [genRow, Fin.getElem_fin, Vector.getElem_ofFn]

/-- One lane after one step of all (R93). -/
theorem lanesStep_getElem (l : Seed) (j : Fin 8) : (lanesStep l)[j] = lfsrStep l[j] := by
  simp only [lanesStep, Fin.getElem_fin, Vector.getElem_ofFn]

/-- One lane after `n` steps of all: no bit passes between lanes (R93). -/
theorem lanesSteps_getElem (n : Nat) (l : Seed) (j : Fin 8) :
    (lanesSteps n l)[j] = lfsrSteps n l[j] := by
  induction n generalizing l with
  | zero => rfl
  | succ n ih => rw [lanesSteps, ih, lanesStep_getElem]; rfl

theorem lanesSteps_add (a b : Nat) (l : Seed) : lanesSteps (a + b) l = lanesSteps b (lanesSteps a l) := by
  induction a generalizing l with
  | zero => rw [Nat.zero_add]; rfl
  | succ a ih => rw [Nat.succ_add]; exact ih (lanesStep l)

end Sys2Proof.Machine
end

