-- ==== Sys2Proof/Laws/Mixer.lean ====
section
/-! SUPPORT. The mixer's shared operations: what each leaves at each index of the table, the staging
buffer and the channel registers, and one lane of one vector operation (40_matrix_mixer.md). -/

namespace Sys2Proof.Machine

/-! ### Operands -/

theorem channelOf_eq_some {n : Nat} {c : Fin 16} : channelOf n = some c ↔ n = c.val := by
  unfold channelOf
  split
  · simp only [Option.some.injEq, Fin.ext_iff]
  · rename_i h
    simp only [reduceCtorEq, false_iff]
    intro hc; exact h (hc ▸ c.isLt)

theorem channelOf_val (c : Fin 16) : channelOf c.val = some c := channelOf_eq_some.2 rfl

theorem channelOf_eq_none {n : Nat} : channelOf n = none ↔ 16 ≤ n := by
  unfold channelOf; split <;> simp <;> omega

theorem flatOf_eq_some {n : Nat} {k : Fin 256} : flatOf n = some k ↔ n = k.val := by
  unfold flatOf
  split
  · simp only [Option.some.injEq, Fin.ext_iff]
  · rename_i h
    simp only [reduceCtorEq, false_iff]
    intro hc; exact h (hc ▸ k.isLt)

theorem flatOf_val (k : Fin 256) : flatOf k.val = some k := flatOf_eq_some.2 rfl

theorem flatOf_eq_none {n : Nat} : flatOf n = none ↔ 256 ≤ n := by
  unfold flatOf; split <;> simp <;> omega

/-- A pair in range names its flat entry (R22). -/
theorem pairOf_val (order : Config.FlatIndexOrder) (o i : Fin 16) :
    pairOf order o.val i.val = some (flat order o i) := by
  unfold pairOf; rw [channelOf_val, channelOf_val]

/-- A pair with `OUT` or `IN` out of range names none (R51). -/
theorem pairOf_eq_none {order : Config.FlatIndexOrder} {o i : Nat} :
    pairOf order o i = none ↔ 16 ≤ o ∨ 16 ≤ i := by
  unfold pairOf channelOf
  by_cases ho : o < 16 <;> by_cases hi : i < 16 <;> simp [ho, hi] <;> omega

theorem flat_injective (order : Config.FlatIndexOrder) (o i o' i' : Fin 16)
    (h : flat order o i = flat order o' i') : o = o' ∧ i = i' := by
  unfold flat at h
  cases order <;> simp only [Fin.ext_iff] at h ⊢ <;> omega

/-- A channel count is in [1, 16] (R64). -/
theorem channelCount_range (n : Nat) : 1 ≤ channelCount n ∧ channelCount n ≤ 16 := by
  unfold channelCount clamp; split <;> (try split) <;> omega

theorem channelCount_of_range {n : Nat} (h1 : 1 ≤ n) (h2 : n ≤ 16) : channelCount n = n := by
  unfold channelCount clamp; split <;> (try split) <;> omega

/-- A cycle length is in [2, 32] (R64). -/
theorem cycleLength_range (k : Int) : 2 ≤ cycleLength k ∧ cycleLength k ≤ 32 := by
  unfold cycleLength clamp; split <;> (try split) <;> omega

theorem cycleLength_of_range {n : Nat} (h1 : 2 ≤ n) (h2 : n ≤ 32) : cycleLength (n : Int) = n := by
  unfold cycleLength clamp; split <;> (try split) <;> omega

/-! ### The coefficient table -/

/-- A read after a write: the value written at the index, what was there elsewhere (R14). -/
theorem coefRead_coefWrite (m : Mixer) (i k : Fin 256) (v : Word) :
    coefRead (coefWrite i v m) k = if k = i then v else coefRead m k := by
  unfold coefRead coefWrite
  simp only [Fin.getElem_fin, Vector.getElem_set, Fin.ext_iff, eq_comm]

@[simp] theorem coefRead_stageClear (m : Mixer) (k : Fin 256) :
    coefRead (stageClear m) k = coefRead m k := rfl

@[simp] theorem coefRead_bulkCopy (m : Mixer) (k : Fin 256) :
    coefRead (bulkCopy m) k = m.stage[k] := rfl

/-- What a restore leaves at index `k` (R83). -/
theorem coefRead_restoreCopy (m : Mixer) (k : Fin 256) :
    coefRead (restoreCopy m) k = if k.val < restoreLength m.stageCnt then m.stage[k] else posZero := by
  unfold coefRead
  rw [restoreCopy_coeff, restoredTable]
  simp only [Fin.getElem_fin, Vector.getElem_ofFn]

/-- What a push leaves at index `k` of the staging buffer (R81). -/
theorem stagePush_getElem (m : Mixer) (v : Word) (k : Fin 256) :
    (stagePush v m).stage[k] = if k.val = m.stageCnt then v else m.stage[k] := by
  unfold stagePush
  by_cases h : m.stageCnt < 256
  · simp only [h, dif_pos, Fin.getElem_fin, Vector.getElem_set]
    by_cases hk : m.stageCnt = k.val
    · simp [hk]
    · simp [hk, Ne.symm hk]
  · have hne : k.val ≠ m.stageCnt := by have := k.isLt; omega
    simp only [h, dif_neg, not_false_eq_true, hne, if_false]

/-- A read of an input register after a write (R84). -/
theorem inputWrite_getElem (m : Mixer) (ch c : Fin 16) (v : Word) :
    (inputWrite ch v m).inReg[c] = if c = ch then v else m.inReg[c] := by
  unfold inputWrite
  simp only [Fin.getElem_fin, Vector.getElem_set, Fin.ext_iff, eq_comm]

/-! ### The vector operations of a tick -/

/-- One lane of the start of a group (R74, R75). -/
theorem vectorStep_init_getElem (p : Config.Params) (nan : Nat → Word) (m : Mixer) (acc : Vector Word 16)
    (g : Fin 4) (o : Fin 16) :
    (vectorStep p nan m acc (.init g))[o] = if o.val / 4 = g.val then laneInit p nan m o else acc[o] := by
  simp only [vectorStep, Fin.getElem_fin, Vector.getElem_ofFn]

/-- One lane of a vector multiply-accumulate (R73, R75). -/
theorem vectorStep_mac_getElem (p : Config.Params) (nan : Nat → Word) (m : Mixer) (acc : Vector Word 16)
    (g : Fin 4) (i o : Fin 16) :
    (vectorStep p nan m acc (.mac g i))[o] =
      if o.val / 4 = g.val then mac p nan (macSite o i) acc[o] (coeffAt p m o i) m.inReg[i]
      else acc[o] := by
  simp only [vectorStep, Fin.getElem_fin, Vector.getElem_ofFn]

/-- What a tick leaves in an output register (R24, R85). -/
theorem tickOut_getElem (acc outReg : Vector Word 16) (nout : Nat) (o : Fin 16) :
    (tickOut acc outReg nout)[o] = if o.val < nout then acc[o] else outReg[o] := by
  simp only [tickOut, Fin.getElem_fin, Vector.getElem_ofFn]

end Sys2Proof.Machine
end

