-- ==== Sys2Proof/Laws/PerInstr.lean ====
section
/-! SUPPORT. The family TransactionLength (30_encoding.md R60): the words of a well-formed command are a
command word, and a data word exactly when the command word's opcode carries one. -/

namespace Sys2Proof.Laws.TransactionLength

/-- The transaction of `i` has one word, or two when its opcode carries data. -/
def Statement (i : Instr) : Prop :=
  WellFormed i → ∃ w rest, encode i = w :: rest ∧ rest.length = if carriesData w then 1 else 0

/-- A transaction without a data word. -/
theorem one_word (op : Opcode) {n : Nat} (h : n < 2 ^ 26) (hc : opcodeCarriesData op = false) :
    ∃ w rest, [commandWord op n] = w :: rest ∧ rest.length = if carriesData w then 1 else 0 := by
  refine ⟨_, [], rfl, ?_⟩
  rw [carriesData_of_opcField (opcodeOfNumber_commandWord op h), hc]; rfl

/-- A transaction with a data word. -/
theorem two_words (op : Opcode) {n : Nat} (v : Word) (h : n < 2 ^ 26)
    (hc : opcodeCarriesData op = true) :
    ∃ w rest, [commandWord op n, v] = w :: rest ∧ rest.length = if carriesData w then 1 else 0 := by
  refine ⟨_, [v], rfl, ?_⟩
  rw [carriesData_of_opcField (opcodeOfNumber_commandWord op h), hc]; rfl

theorem nop : Statement .nop := fun _ => one_word .nop (by decide) rfl

theorem mmSetc (o i : Nat) (v : Word) : Statement (.mmSetc o i v) := by
  intro h
  simp only [WellFormed, Instr.wellFormed, Bool.and_eq_true, decide_eq_true_eq] at h
  exact two_words .mmSetc v (by omega) rfl

theorem mmGetc (o i : Nat) : Statement (.mmGetc o i) := by
  intro h
  simp only [WellFormed, Instr.wellFormed, Bool.and_eq_true, decide_eq_true_eq] at h
  exact one_word .mmGetc (by omega) rfl

theorem mmSetci (idx : Nat) (v : Word) : Statement (.mmSetci idx v) := by
  intro h
  simp only [WellFormed, Instr.wellFormed, decide_eq_true_eq] at h
  exact two_words .mmSetci v (by omega) rfl

theorem mmGetci (idx : Nat) : Statement (.mmGetci idx) := by
  intro h
  simp only [WellFormed, Instr.wellFormed, decide_eq_true_eq] at h
  exact one_word .mmGetci (by omega) rfl

theorem mmBulkBegin : Statement .mmBulkBegin := fun _ => one_word .mmBulkBegin (by decide) rfl

theorem mmBulkPush (v : Word) : Statement (.mmBulkPush v) :=
  fun _ => two_words .mmBulkPush v (by decide) rfl

theorem mmBulkCommit : Statement .mmBulkCommit := fun _ => one_word .mmBulkCommit (by decide) rfl

theorem mmRestoreCommit : Statement .mmRestoreCommit :=
  fun _ => one_word .mmRestoreCommit (by decide) rfl

theorem mmSetInput (ch : Fin 16) (v : Word) : Statement (.mmSetInput ch v) := by
  intro _
  have h := ch.isLt
  exact two_words .mmSetInput v (by omega) rfl

theorem mmTick (nin nout : Nat) : Statement (.mmTick nin nout) := by
  intro h
  simp only [WellFormed, Instr.wellFormed, Bool.and_eq_true, decide_eq_true_eq] at h
  exact one_word .mmTick (by omega) rfl

theorem mmGetOutput (ch : Fin 16) : Statement (.mmGetOutput ch) := by
  intro _
  have h := ch.isLt
  exact one_word .mmGetOutput (by omega) rfl

theorem goSetDt (v : Word) : Statement (.goSetDt v) := fun _ => two_words .goSetDt v (by decide) rfl

theorem goTick (len : Int) (freq : Word) : Statement (.goTick len freq) := by
  intro _
  have h : bits16 len < 2 ^ 16 := by unfold bits16; omega
  exact two_words .goTick freq (by omega) rfl

theorem goRowAdvance : Statement .goRowAdvance := fun _ => one_word .goRowAdvance (by decide) rfl

theorem goGetCell (c : Fin 32) (k : Corner) (m : Comp) : Statement (.goGetCell c k m) := by
  intro _
  have h := c.isLt
  have h1 : cornerBits k < 4 := by cases k <;> decide
  have h2 : compBits m < 2 := by cases m <;> decide
  exact one_word .goGetCell (by omega) rfl

theorem goGetLfsr (j : Fin 8) : Statement (.goGetLfsr j) := by
  intro _
  have h := j.isLt
  exact one_word .goGetLfsr (by omega) rfl

theorem goGetStatus (sel : Nat) : Statement (.goGetStatus sel) := by
  intro h
  simp only [WellFormed, Instr.wellFormed, decide_eq_true_eq] at h
  exact one_word .goGetStatus (by omega) rfl

end Sys2Proof.Laws.TransactionLength
end

