-- ==== Sys2Proof/Laws/Tick.lean ====
section
/-! SUPPORT. The oscillator tick and the step: what each can come to, said once (42_grid_oscillator.md
R108, 30_encoding.md R60). -/

namespace Sys2Proof.Machine

/-- The fields of a wrap event (R108). -/
theorem wrapEvent_fields (p : Config.Params) (nan : Nat → Word) (o : Oscillator) :
    (wrapEvent p nan o).x = fsub p.ftz (nan 2) o.x (f32 o.W) ∧ (wrapEvent p nan o).W = o.W ∧
    (wrapEvent p nan o).y = o.y ∧ (wrapEvent p nan o).dt = o.dt ∧
    (wrapEvent p nan o).goOut = o.goOut ∧ (wrapEvent p nan o).seamPending = false ∧
    (wrapEvent p nan o).lfsr = (if p.rowAdvanceOnWrap then genRowLanes o.lfsr else o.lfsr) ∧
    (wrapEvent p nan o).cell =
      (if p.rowAdvanceOnWrap then rowAdvanceGrid p o.W o.lfsr (wrapSplice o).cell
       else (wrapSplice o).cell) := by
  unfold wrapEvent
  cases p.rowAdvanceOnWrap <;> exact ⟨rfl, rfl, rfl, rfl, rfl, rfl, rfl, rfl⟩

/-- WHAT A WRAP LOOP THAT ENDS HAS DONE: `k` wrap events, each on an engine that wraps, and then one
that does not. -/
theorem wrapLoop_some {p : Config.Params} {nan : Nat → Word} {n : Nat} {o o' : Oscillator}
    (h : wrapLoop p nan n o = some o') :
    ∃ k, k ≤ n ∧ o' = (wrapEvent p nan)^[k] o ∧ wraps o' = false ∧
      ∀ j, j < k → wraps ((wrapEvent p nan)^[j] o) = true := by
  induction n generalizing o with
  | zero =>
    unfold wrapLoop at h
    split at h
    · simp at h
    · rename_i hw
      simp only [Option.some.injEq] at h
      subst h
      exact ⟨0, Nat.le_refl _, rfl, by simpa using hw, fun j hj => absurd hj (Nat.not_lt_zero j)⟩
  | succ n ih =>
    unfold wrapLoop at h
    split at h
    · rename_i hw
      split at h
      · simp at h
      · obtain ⟨k, hk, he, hf, hall⟩ := ih h
        refine ⟨k + 1, by omega, by rw [Function.iterate_succ_apply]; exact he, hf, ?_⟩
        intro j hj
        cases j with
        | zero => exact hw
        | succ j => rw [Function.iterate_succ_apply]; exact hall j (by omega)
    · rename_i hw
      simp only [Option.some.injEq] at h
      subst h
      exact ⟨0, Nat.zero_le _, rfl, by simpa using hw, fun j hj => absurd hj (Nat.not_lt_zero j)⟩

/-- What a property kept by every wrap event is after the loop. -/
theorem wrapLoop_induct {p : Config.Params} {nan : Nat → Word} {n : Nat} {o o' : Oscillator}
    (P : Oscillator → Prop) (hstep : ∀ o, P o → wraps o = true → P (wrapEvent p nan o))
    (h : wrapLoop p nan n o = some o') (h0 : P o) : P o' := by
  obtain ⟨k, _, he, _, hall⟩ := wrapLoop_some h
  have : ∀ j, j ≤ k → P ((wrapEvent p nan)^[j] o) := by
    intro j
    induction j with
    | zero => intro _; exact h0
    | succ j ih =>
      intro hj
      rw [Function.iterate_succ_apply']
      exact hstep _ (ih (by omega)) (hall j (by omega))
  rw [he]; exact this k (Nat.le_refl k)

/-- What `floor(x)` naming a cell says (R108). -/
theorem phaseCell_some {o : Oscillator} {c : Fin 32} (h : phaseCell o = some c) :
    isNaN o.x = false ∧ 0 ≤ fVal o.x ∧ (floorVal o.x).toNat = c.val := by
  unfold phaseCell at h
  split at h
  · split at h
    · rename_i h1
      simp only [Option.some.injEq] at h
      simp only [Bool.and_eq_true, Bool.not_eq_true', decide_eq_true_eq] at h1
      exact ⟨h1.1, h1.2, by rw [← h]⟩
    · simp at h
  · simp at h

/-- WHAT A COMPLETED `GO_TICK` HAS DONE (R108), in the order of the rule: the increment was admissible,
the length edit, the phase advance, the wrap events, the cell, the sample. -/
theorem oscillatorTick_ok {p : Config.Params} {nan : Nat → Word} {len : Int} {freq : Word}
    {o o' : Oscillator} (h : oscillatorTick p nan len freq o = .ok o') :
    admissible p (increment p nan freq o) = true ∧
    ∃ o1 o2 c,
      o1 = advancePhase p nan (increment p nan freq o) (editLength (cycleLength len) o) ∧
      wrapLoop p nan (wrapBound o1) o1 = some o2 ∧ phaseCell o2 = some c ∧
      o' = emitSample p nan c o2 := by
  unfold oscillatorTick at h
  split at h
  · rename_i ha
    refine ⟨ha, ?_⟩
    unfold tickPhase at h
    dsimp only at h
    split at h
    · simp at h
    · rename_i o2 hw
      split at h
      · simp at h
      · rename_i c hc
        simp only [Except.ok.injEq] at h
        exact ⟨_, o2, c, rfl, hw, hc, h.symm⟩
  · simp at h

/-- An inadmissible increment faults (R126). -/
theorem oscillatorTick_inadmissible {p : Config.Params} {nan : Nat → Word} {len : Int} {freq : Word}
    {o : Oscillator} (h : admissible p (increment p nan freq o) = false) :
    oscillatorTick p nan len freq o = .error .invalidPhaseIncrement := by
  unfold oscillatorTick; rw [h]; rfl

/-- WHAT A STEP CAN DO: idle, refuse, reset, run a command, or answer an illegal one. -/
theorem step_cases (s : State) :
    (fetch s.port = .idle ∧ step s = .next s) ∨
    (fetch s.port = .brokenTransaction ∧ step s = .refused .resetDuringTransaction) ∨
    (∃ rest, fetch s.port = .resetMm rest ∧ step s = .next (resetMm (takePort rest s))) ∨
    (∃ seed rest, fetch s.port = .resetGo seed rest ∧ step s = resetGo seed (takePort rest s)) ∨
    (∃ seed rest, fetch s.port = .powerUp seed rest ∧
      step s = powerUpReset seed (takePort rest s)) ∨
    (∃ ws rest i r, fetch s.port = .transaction ws rest ∧ decode ws = .command i r ∧
      step s = exec i (takePort rest s)) ∨
    (∃ ws rest e r, fetch s.port = .transaction ws rest ∧ decode ws = .illegal e r ∧
      step s = illegalCommand (takePort rest s)) ∨
    (∃ ws rest, fetch s.port = .transaction ws rest ∧
      (decode ws = .dataWordMissing ∨ decode ws = .noCommandWord) ∧ step s = .next s) := by
  unfold step
  cases hf : fetch s.port with
  | idle => simp
  | brokenTransaction => simp
  | resetMm rest => simp
  | resetGo seed rest => simp
  | powerUp seed rest => simp
  | transaction ws rest => cases hd : decode ws <;> simp [hd]

end Sys2Proof.Machine
end

