-- ==== Sys2Proof/Tests/Slice0.lean ====
section
/-! SUPPORT. Tests of the model: the well-formedness smoke, decoding of words written out from
30_encoding.md R62 to R65, one-step tests whose expected values are those of 95_test_vectors.md (each
comment names the vector), and for every statement with hypotheses a state that meets them. -/

namespace Sys2Proof.Tests

set_option Elab.async false

open Sys2Proof Sys2Proof.Machine

/-! ### The well-formedness smoke: one ill-formed term per check -/

theorem test_wf_setc_out : ¬ WellFormed (.mmSetc 256 0 0) := by decide
theorem test_wf_setc_in : ¬ WellFormed (.mmSetc 0 256 0) := by decide
theorem test_wf_getc_out : ¬ WellFormed (.mmGetc 256 0) := by decide
theorem test_wf_getc_in : ¬ WellFormed (.mmGetc 0 256) := by decide
theorem test_wf_setci : ¬ WellFormed (.mmSetci 65536 0) := by decide
theorem test_wf_getci : ¬ WellFormed (.mmGetci 65536) := by decide
theorem test_wf_tick_nin : ¬ WellFormed (.mmTick 32 0) := by decide
theorem test_wf_tick_nout : ¬ WellFormed (.mmTick 0 32) := by decide
theorem test_wf_goTick_low : ¬ WellFormed (.goTick (-32769) 0) := by decide
theorem test_wf_goTick_high : ¬ WellFormed (.goTick 32768 0) := by decide
theorem test_wf_status : ¬ WellFormed (.goGetStatus 8) := by decide

/-! ### Decoding: one word per row, written as opcode bits, reserved bits, operand fields (R62, R65) -/

/-- `OPC = 0x00`; EN-1. -/
theorem test_decode_nop : decodeTableWord 32 0x00000000 = some .nop := by decide +kernel
/-- `000001 0000000000 00001111 00001010`, then the data word in bits 63:32; EN-3. -/
theorem test_decode_setc : decodeTableWord 64 0x3F80000004000F0A = some (.mmSetc 15 10 0x3F800000#32) := by
  decide +kernel
/-- `000010 0000000000 11001000 11001000`; CA-8. -/
theorem test_decode_getc :
    decode [0b000010_0000000000_11001000_11001000#32] = .command (.mmGetc 200 200) [] := by decide +kernel
/-- `000011 0000000000 1111111111111111`; CA-9. -/
theorem test_decode_setci :
    decode [0b000011_0000000000_1111111111111111#32, 1] = .command (.mmSetci 65535 1) [] := by decide +kernel
/-- `000100 0000000000 0000000100000000`; EN-18. -/
theorem test_decode_getci :
    decode [0b000100_0000000000_0000000100000000#32] = .command (.mmGetci 256) [] := by decide +kernel
theorem test_decode_bulkBegin :
    decode [0b000101_00000000000000000000000000#32] = .command .mmBulkBegin [] := by decide +kernel
theorem test_decode_bulkPush :
    decode [0b000110_00000000000000000000000000#32, 9, 7] = .command (.mmBulkPush 9) [7] := by decide +kernel
theorem test_decode_bulkCommit :
    decode [0b000111_00000000000000000000000000#32] = .command .mmBulkCommit [] := by decide +kernel
theorem test_decode_restoreCommit :
    decode [0b001000_00000000000000000000000000#32] = .command .mmRestoreCommit [] := by decide +kernel
/-- IO-1: `CH = 1111`. -/
theorem test_decode_setInput :
    decode [0b001001_0000000000000000000000_1111#32, 0xC0200000] =
      .command (.mmSetInput 15 0xC0200000) [] := by decide +kernel
/-- P1: `NOUT = 00010`, `NIN = 00011`: the two fields are not swapped. -/
theorem test_decode_mmTick :
    decode [0b001010_0000000000000000_00010_00011#32] = .command (.mmTick 3 2) [] := by decide +kernel
/-- IO-2: `CH = 0111`. -/
theorem test_decode_getOutput :
    decode [0b001011_0000000000000000000000_0111#32] = .command (.mmGetOutput 7) [] := by decide +kernel
/-- GT-19. -/
theorem test_decode_setDt :
    decode [0b010000_00000000000000000000000000#32, 0x3E800000] = .command (.goSetDt 0x3E800000) [] := by
  decide +kernel
/-- GT-15: `LEN = 0xFFFF` is -1. -/
theorem test_decode_goTick :
    decode [0b010001_0000000000_1111111111111111#32, 0] = .command (.goTick (-1) 0) [] := by decide +kernel
theorem test_decode_rowAdvance :
    decode [0b010010_00000000000000000000000000#32] = .command .goRowAdvance [] := by decide +kernel
/-- P3: `CELL = 00001`, `CORNER = 01` (LR), `COMP = 1` (Y). -/
theorem test_decode_getCell :
    decode [0b010011_000000000000000000_00001_01_1#32] = .command (.goGetCell 1 .LR .Y) [] := by
  decide +kernel
/-- RS-5: `LANE = 111`. -/
theorem test_decode_getLfsr :
    decode [0b010100_00000000000000000000000_111#32] = .command (.goGetLfsr 7) [] := by decide +kernel
/-- P3: `SEL = 101`. -/
theorem test_decode_getStatus :
    decode [0b010101_00000000000000000000000_101#32] = .command (.goGetStatus 5) [] := by decide +kernel

/-- EN-2, EN-4, EN-6, EN-15, EN-16, EN-17: a reserved bit. -/
theorem test_decode_reserved_bits :
    decode [0x00000001#32] = .illegal (.reservedBitSet .nop) [] ∧
    decode [0x04010000#32, 0x3F800000, 5] = .illegal (.reservedBitSet .mmSetc) [5] ∧
    decode [0x28000400#32, 5] = .illegal (.reservedBitSet .mmTick) [5] ∧
    decode [0x14000001#32] = .illegal (.reservedBitSet .mmBulkBegin) [] ∧
    decode [0x50000008#32] = .illegal (.reservedBitSet .goGetLfsr) [] ∧
    decode [0x2C000010#32] = .illegal (.reservedBitSet .mmGetOutput) [] := by decide +kernel

/-- EN-12, EN-13, EN-14: an unassigned opcode; it carries no data word. -/
theorem test_decode_unassigned :
    decode [0x3C000000#32, 5] = .illegal (.unassignedOpcode 0x0F) [5] ∧
    decode [0x58000000#32] = .illegal (.unassignedOpcode 0x16) [] ∧
    decode [0xFC000000#32] = .illegal (.unassignedOpcode 0x3F) [] := by decide +kernel

/-- R46: the two byte orders of a word on a byte transport. -/
theorem test_byte_orders :
    decodeBytes .little [0x35, 0x00, 0x00, 0x10] = .command (.mmGetci 53) [] ∧
    decodeBytes .big [0x10, 0x00, 0x00, 0x35] = .command (.mmGetci 53) [] := by decide +kernel

/-! ### Binary32 -/

/-- MX-7, MX-8: 2^-24 + 2^-24 = 2^-23, 1 + 2^-23 is exact, 1 + 2^-24 ties to even. -/
theorem test_fadd_ties :
    fadd false 0 0x33800000 0x33800000 = 0x34000000#32 ∧
    fadd false 0 0x3F800000 0x34000000 = 0x3F800001#32 ∧
    fadd false 0 0x3F800000 0x33800000 = 0x3F800000#32 := by decide +kernel
/-- MX-5, MX-10: overflow gives infinity; a subnormal result is kept, or flushed with `FTZ`. -/
theorem test_fmul_ends :
    fmul false 0 0x7F000000 0x40800000 = 0x7F800000#32 ∧
    fmul false 0 0x00800000 0x3F000000 = 0x00400000#32 ∧
    fmul true 0 0x00800000 0x3F000000 = 0x00000000#32 := by decide +kernel
/-- MX-9: the fused and the unfused multiply-accumulate. -/
theorem test_fma_one_rounding :
    ffma false 0 0x3F800800 0x3F800800 0xBF800000 = 0x3A000400#32 ∧
    fadd false 0 0xBF800000 (fmul false 0 0x3F800800 0x3F800800) = 0x3A000000#32 := by decide +kernel
/-- S2, P1, P4 and MX-14: `f32(k)`, and decimal literals (R70). -/
theorem test_literals :
    f32 16 = 0x41800000#32 ∧ f32 (-1) = 0xBF800000#32 ∧ ofDecimal false 1 (-1) = 0x3DCCCCCD#32 ∧
    ofDecimal false 35 (-2) = 0x3EB33333#32 ∧ ofDecimal true 25 (-1) = 0xC0200000#32 := by decide +kernel

/-! ### The LFSR and the ROM -/

/-- LF-1 to LF-7. -/
theorem test_lfsr_step :
    lfsrStep 0x0001 = 0x0002 ∧ lfsrStep 0x8000 = 0x100B ∧ lfsrStep 0xFFFF = 0xEFF5 ∧
    lfsrStep 0x7FFF = 0xFFFE ∧ lfsrStep 0x1234 = 0x2468 ∧ lfsrStep 0xACE1 = 0x49C9 ∧
    lfsrStep 0 = 0 := by decide +kernel
/-- LF-8 (its last value), LF-10, LF-11. -/
theorem test_lfsr_steps :
    lfsrSteps 20 0x0001 = 0x10BB ∧ lfsrUnstep 0x100B = 0x8000 ∧ lfsrUnstep 0xEFF5 = 0xFFFF ∧
    lfsrSteps 4 0x8000 = 0x8058 ∧ lfsrSteps 4 0xACE1 = 0x6E5E := by decide +kernel
/-- LU-1 to LU-5. -/
theorem test_lut :
    lut Config.defaultSineLut 0x1234 = 0x3F800000 ∧ lut Config.defaultSineLut 0xFFFF = 0xBEC3EF15 ∧
    lut Config.defaultSineLut 0x0008 = 0 ∧ lut Config.defaultSineLut 0xACE1 = 0x3EC3EF15 ∧
    lut Config.defaultSineLut 0xFFF0 = 0 := by decide +kernel
/-- LF-13: the lanes of the reset state. -/
theorem test_reset_lanes : State.reset.go.lfsr =
    #v[0x5C24, 0xB848, 0xE46C, 0x609B, 0x6801, 0x8CA9, 0x3B74, 0x66F9] := by decide +kernel
/-- RS-7: a zero lane is refused. -/
theorem test_seed_refused : seedAdmitted #v[1, 2, 3, 0, 5, 6, 7, 8] = false := by decide +kernel

/-! ### One step each: the small state and what a step answers -/

/-- The defaults without the prefill, which leaves the reset state cheap to compute. -/
def params0 : Config.Params := { Config.Params.default with prefillRows := 0 }

/-- Power-up with `SEED_A` and no prefill. -/
def state0 : State := State.powerUp params0 Config.seedA

/-- A mixer with the first inputs and the first coefficients given. -/
def mixerState (p : Config.Params) (coeffs inputs : List Word) : State :=
  { state0 with
    params := p
    mm := { Mixer.reset with
      coeff := Vector.ofFn fun k => coeffs.getD k.val 0
      inReg := Vector.ofFn fun k => inputs.getD k.val 0 } }

/-- The reset state with a sample interval, a phase and a cycle length. -/
def tickState (p : Config.Params) (dt x : Word) (W : Nat) (seam : Bool) : State :=
  { state0 with
    params := p
    go := { State.reset.go with dt := dt, x := x, W := W, seamPending := seam } }

/-- What a read of the next state gives. -/
def after {α : Type} (r : Outcome) (read : State → α) : Option α :=
  match r with
  | .next t => some (read t)
  | _ => none

/-- The response of the last command, status code and data. -/
def answer (r : Outcome) : Option (Nat × Word) :=
  match r with
  | .next t => t.responses.head?.map fun a => ((statusCode a.status).toNat, a.data)
  | _ => none

/-- EN-1. -/
theorem test_nop : answer (exec .nop state0) = some (0, 0) := by decide +kernel
/-- CA-3: `IN_MAJOR`, `flat(3, 5) = 83`. -/
theorem test_setc_inMajor :
    after (exec (.mmSetc 3 5 0x3F400000) { state0 with params := { params0 with flatIndexOrder := .inMajor } })
      (fun t => (t.mm.coeff[83], t.mm.coeff[53])) = some (0x3F400000, 0) := by decide +kernel
/-- CA-6: out of range. -/
theorem test_setc_range : answer (exec (.mmSetc 16 0 0x3F800000) state0) = some (1, 0) := by decide +kernel
/-- CA-2: `flat(3, 5) = 53`. -/
theorem test_getc :
    answer (exec (.mmGetc 3 5) { state0 with mm := coefWrite 53 0x3F400000 state0.mm }) =
      some (0, 0x3F400000) := by decide +kernel
/-- CA-8. -/
theorem test_getc_range : answer (exec (.mmGetc 200 200) state0) = some (1, 0) := by decide +kernel
/-- CA-10. -/
theorem test_setci :
    after (exec (.mmSetci 255 0x40000000) state0) (fun t => t.mm.coeff[255]) = some 0x40000000 := by
  decide +kernel
/-- CA-9. -/
theorem test_setci_range : answer (exec (.mmSetci 65535 0x3F800000) state0) = some (1, 0) := by
  decide +kernel
/-- CA-4: a NaN pattern is kept exactly. -/
theorem test_getci :
    answer (exec (.mmGetci 0) (mixerState params0 [0x7FC00001] [])) = some (0, 0x7FC00001) := by
  decide +kernel
/-- EN-18. -/
theorem test_getci_range : answer (exec (.mmGetci 256) state0) = some (1, 0) := by decide +kernel
/-- BK-8: the count is cleared. -/
theorem test_bulkBegin :
    after (exec .mmBulkBegin { state0 with mm := { Mixer.reset with stageCnt := 10 } })
      (fun t => t.mm.stageCnt) = some 0 := by decide +kernel
/-- BK-1, the 256th push; BK-3, the 257th. -/
theorem test_bulkPush :
    after (exec (.mmBulkPush 9) { state0 with mm := { Mixer.reset with stageCnt := 255 } })
      (fun t => (t.mm.stage[255], t.mm.stageCnt)) = some (9, 256) ∧
    after (exec (.mmBulkPush 9) { state0 with mm := { Mixer.reset with stageCnt := 256 } })
      (fun t => (t.mm.stage[255], t.mm.stageCnt)) = some (0, 257) := by decide +kernel
/-- BK-1. -/
theorem test_bulkCommit :
    after (exec .mmBulkCommit
      { state0 with mm := { Mixer.reset with stageCnt := 256, stage := Vector.replicate 256 5 } })
      (fun t => (t.mm.coeff[0], t.mm.coeff[255], t.mm.stageCnt)) = some (5, 5, 0) := by decide +kernel
/-- BK-2, BK-3: one short and one long are rejected. -/
theorem test_bulkCommit_malformed :
    answer (exec .mmBulkCommit { state0 with mm := { Mixer.reset with stageCnt := 255 } }) = some (2, 0) ∧
    answer (exec .mmBulkCommit { state0 with mm := { Mixer.reset with stageCnt := 257 } }) = some (2, 0) := by
  decide +kernel
/-- P2: one value staged, the rest zero-padded over stale staged values. -/
theorem test_restoreCommit :
    after (exec .mmRestoreCommit
      { state0 with mm := { Mixer.reset with stageCnt := 1, stage := Vector.replicate 256 5 } })
      (fun t => (t.mm.coeff[0], t.mm.coeff[1], t.mm.stageCnt)) = some (5, 0, 0) := by decide +kernel
/-- IO-1. -/
theorem test_setInput :
    after (exec (.mmSetInput 15 0xC0200000) state0) (fun t => (t.mm.inReg[15], t.mm.inReg[14])) =
      some (0xC0200000, 0) := by decide +kernel
/-- P0: 2.0 times 3.0. -/
theorem test_mmTick :
    after (exec (.mmTick 1 1) (mixerState params0 [0x40000000] [0x40400000]))
      (fun t => (t.mm.outReg[0], t.mm.acc[0], t.mm.outReg[1])) = some (0x40C00000, 0x40C00000, 0) := by
  decide +kernel
/-- MX-11: `ACC_INIT`. -/
theorem test_mmTick_accInit :
    after (exec (.mmTick 2 1) (mixerState params0 [0xBF800000, 0x3F800000] [0, 0x80000000]))
      (fun t => t.mm.outReg[0]) = some 0 ∧
    after (exec (.mmTick 2 1)
      (mixerState { params0 with accInit := .firstProduct } [0xBF800000, 0x3F800000] [0, 0x80000000]))
      (fun t => t.mm.outReg[0]) = some 0x80000000 := by decide +kernel
/-- IO-3, IO-2. -/
theorem test_getOutput :
    answer (exec (.mmGetOutput 7)
      { state0 with mm := { Mixer.reset with outReg := Vector.ofFn fun k => BitVec.ofNat 32 k.val } }) =
      some (0, 7) := by decide +kernel
/-- GT-19. -/
theorem test_setDt : after (exec (.goSetDt 0x3E800000) state0) (fun t => t.go.dt) = some 0x3E800000 := by
  decide +kernel
/-- GT-1. -/
theorem test_goTick_edit :
    after (exec (.goTick 2 0x3F800000) (tickState Config.Params.default 0x3E800000 0 32 false))
      (fun t => (t.go.goOut, t.go.x, t.go.W, t.go.seamPending)) =
      some (0xBF5EA3C3, 0x3E800000, 2, true) := by decide +kernel
/-- GT-9: the fault of R126. -/
theorem test_goTick_faults :
    exec (.goTick 32 0x42040000) (tickState params0 0x3F800000 0 32 false) =
      .fault .invalidPhaseIncrement := by
  rfl
/-- GT-18. -/
theorem test_rowAdvance :
    after (exec .goRowAdvance State.reset) (fun t => t.go.lfsr) =
      some #v[0xFCFD, 0xE9F1, 0x150C, 0xC3E9, 0x7C97, 0xB6A6, 0xF4D2, 0xF27D] ∧
    after (exec .goRowAdvance State.reset) (fun t => (t.go.cell[5].LL, t.go.cell[5].LR)) =
      some (State.reset.go.cell[5].UL, State.reset.go.cell[5].UR) := by decide +kernel
/-- RS-2, RS-3. -/
theorem test_getCell :
    answer (exec (.goGetCell 1 .UR .Y) State.reset) = some (0, 0xBF6C835E) ∧
    answer (exec (.goGetCell 12 .LL .X) State.reset) = some (0, 0xBF6C835E) := by decide +kernel
/-- RS-5. -/
theorem test_getLfsr : answer (exec (.goGetLfsr 7) State.reset) = some (0, 0x000066F9) := by decide +kernel
/-- RS-6. -/
theorem test_getStatus_W : answer (exec (.goGetStatus 1) State.reset) = some (0, 0x20) := by decide +kernel
/-- EN-11. -/
theorem test_getStatus_reserved : answer (exec (.goGetStatus 6) state0) = some (3, 0) := by decide +kernel
/-- HK-2: an illegal word leaves `stage_cnt`. -/
theorem test_illegal_keeps_count :
    after (step { state0 with mm := { Mixer.reset with stageCnt := 5 }, port := [.word 0xFC000000] })
      (fun t => (t.mm.stageCnt, t.port)) = some (5, []) := by decide +kernel
/-- GT-7, its second tick: from 31.75 by 0.5 over the seam. -/
theorem test_goTick_wrap :
    after (exec (.goTick 32 0x3F000000) (tickState Config.Params.default 0x3F800000 0x41FE0000 32 false))
      (fun t => (t.go.goOut, t.go.x, t.go.lfsr[0])) = some (0x3E6C835E, 0x3E800000, 0xFCFD) := by
  decide +kernel
/-- GT-8, its second tick: 6 wraps with an increment of zero. -/
theorem test_goTick_many_wraps :
    after (exec (.goTick 3 0) (tickState Config.Params.default 0x3F800000 0x41A00000 32 false))
      (fun t => (t.go.goOut, t.go.x, t.go.seamPending)) = some (0x3EC3EF15, 0x40000000, false) := by
  decide +kernel

/-- The first instruction placed at the port runs: the `MM_SETCI` of CA-10, data word included. -/
theorem test_withFetchWord :
    after (step (state0.withFetchWord 64 0x400000000C0000FF)) (fun t => (t.mm.coeff[255], t.port)) =
      some (0x40000000, []) := by decide +kernel

/-- P3, its last tick: from 1.75 by 0.25 with `W = 2` and a pending seam, exactly one wrap. -/
theorem test_goTick_scenario3 :
    after (exec (.goTick 2 0x3F800000)
        { state0 with
          params := Config.Params.default
          go := { State.reset.go with
            cell := lengthEdit 32 2 State.reset.go.cell
            dt := 0x3E800000, x := 0x3FE00000, W := 2, seamPending := true } })
      (fun t => (t.go.goOut, t.go.cell[1].LL.Y, t.go.cell[1].LR.Y, t.go.seamPending)) =
      some (0, 0x3F6C835E, 0, false) := by decide +kernel

/-! ### Boundary values of the statements whose clauses divide a range -/

/-- R76, R77: pairs 15, 15 and the first values out of range of each operand. -/
theorem witness_pair_bounds :
    answer (exec (.mmSetc 15 15 7) state0) = some (0, 0) ∧ answer (exec (.mmSetc 16 0 7) state0) = some (1, 0) ∧
    answer (exec (.mmSetc 0 16 7) state0) = some (1, 0) ∧ answer (exec (.mmGetc 15 15) state0) = some (0, 0) ∧
    answer (exec (.mmGetc 16 0) state0) = some (1, 0) ∧ answer (exec (.mmGetc 0 16) state0) = some (1, 0) := by
  decide +kernel
/-- R78, R79: index 255 and index 256. -/
theorem witness_flat_bounds :
    answer (exec (.mmSetci 255 7) state0) = some (0, 0) ∧ answer (exec (.mmSetci 256 7) state0) = some (1, 0) ∧
    answer (exec (.mmGetci 255) state0) = some (0, 0) ∧ answer (exec (.mmGetci 256) state0) = some (1, 0) := by
  decide +kernel
/-- R112: every selector. -/
theorem witness_status_selectors :
    (List.range 8).map (fun sel => answer (exec (.goGetStatus sel)
      { state0 with go := { state0.go with x := 10, W := 11, y := 12, dt := 13, goOut := 14, seamPending := true } })) =
      [some (0, 10), some (0, 11), some (0, 12), some (0, 13), some (0, 14), some (0, 1), some (3, 0),
        some (3, 0)] := by decide +kernel
/-- R85: channel counts 0, 1, 16, 31. -/
theorem witness_channel_counts :
    channelCount 0 = 1 ∧ channelCount 1 = 1 ∧ channelCount 16 = 16 ∧ channelCount 31 = 16 ∧
    cycleLength 1 = 2 ∧ cycleLength 2 = 2 ∧ cycleLength 32 = 32 ∧ cycleLength 33 = 32 := by decide

/-! ### For every statement with hypotheses, a state and operands that meet them -/

/-- A step has a next state when a read of its next state gives something. -/
theorem completes_of_after {r : Outcome} (h : after r (fun _ => true) = some true) : ∃ t, r = .next t := by
  cases r with
  | next t => exact ⟨t, rfl⟩
  | fault f => cases h
  | refused f => cases h

/-- The reset state with `dt = 1.0` and `x = 20.0`, at full length. -/
def legalState : State := tickState Config.Params.default 0x3F800000 0x41A00000 32 false

/-- The same with one command on the port. -/
def legalWith (words : List Word) : State := { legalState with port := words.map .word }

/-- The increment of a tick from the legal state. -/
def legalInc (freq : Word) : Word :=
  fmul legalState.params.ftz (oscillatorNans legalState 0) freq legalState.go.dt
/-- The advanced phase of a tick from the legal state. -/
def legalNext (freq : Word) : Word :=
  fadd legalState.params.ftz (oscillatorNans legalState 1) legalState.go.x (legalInc freq)
/-- GoTickCompletesWithLegalPhase, with the smallest and the largest admissible increment 0 and 32.0. -/
theorem witness_goTick_completes :
    PhaseLegal legalState.go ∧ MaxIncDefault legalState.params ∧
    (fle posZero (legalInc 0) = true ∧ fle (legalInc 0) legalState.params.maxPhaseInc = true) ∧
    (fle posZero (legalInc 0x42000000) = true ∧
      fle (legalInc 0x42000000) legalState.params.maxPhaseInc = true) := by decide +kernel
/-- GoTickWithoutWrapSamplesLowerEdge: from 20.0 by 11.75, just short of the seam, and by 0 with the
length changed to 21. -/
theorem witness_goTick_no_wrap :
    PhaseLegal legalState.go ∧ YIsZero legalState.go ∧
    (fle posZero (legalInc 0x413C0000) = true ∧
      fle (legalInc 0x413C0000) legalState.params.maxPhaseInc = true ∧
      flt (legalNext 0x413C0000) (f32 (cycleLength 32)) = true) ∧
    (cycleLength 21 ≠ legalState.go.W ∧ flt (legalNext 0) (f32 (cycleLength 21)) = true ∧
      ((0 : Fin 32).val = legalState.go.W % 32)) := by decide +kernel
/-- A drawn pattern is a NaN, whichever it is. -/
theorem isNaN_quietNaN (bits : BitVec 23) : isNaN (quietNaN bits) = true := by
  have h := bits.isLt
  simp only [isNaN, quietNaN, fExp, fFrac, BitVec.toNat_ofNat, Bool.and_eq_true, decide_eq_true_eq]
  omega
/-- GoTickInadmissibleIncrementFaults: GT-12 (a NaN whatever its pattern), GT-10, GT-9. -/
theorem witness_goTick_inadmissible :
    isNaN (fmul state0.params.ftz (oscillatorNans state0 0) 0x7F800000 state0.go.dt) = true ∧
    flt (fmul legalState.params.ftz (oscillatorNans legalState 0) 0xBF800000 legalState.go.dt) posZero = true ∧
    fle (fmul legalState.params.ftz (oscillatorNans legalState 0) 0x42040000 legalState.go.dt)
      legalState.params.maxPhaseInc = false :=
  ⟨isNaN_quietNaN _, by decide +kernel, by decide +kernel⟩
/-- StepRunsTheDecodedCommand, with and without a data word. -/
theorem witness_step_runs :
    (carriesData 0x44000020 = true ∧ decodeCommand 0x44000020 0x3F800000 = .ok (.goTick 32 0x3F800000) ∧
      (legalWith [0x44000020, 0x3F800000]).port = .word 0x44000020 :: .word 0x3F800000 :: []) ∧
    (carriesData 0x48000000 = false ∧ decodeCommand 0x48000000 0 = .ok .goRowAdvance ∧
      (legalWith [0x48000000]).port = .word 0x48000000 :: []) := by
  exact ⟨⟨by decide +kernel, by rfl, rfl⟩, by decide +kernel, by rfl, rfl⟩
/-- IllegalWordOnlyResponds, with and without a data word (EN-4, EN-14). -/
theorem witness_illegal :
    (carriesData 0x04010000 = true ∧ decodeCommand 0x04010000 1 = .error (.reservedBitSet .mmSetc) ∧
      (legalWith [0x04010000, 1]).port = .word 0x04010000 :: .word 1 :: []) ∧
    (carriesData 0xFC000000 = false ∧ decodeCommand 0xFC000000 0 = .error (.unassignedOpcode 0x3F) ∧
      (legalWith [0xFC000000]).port = .word 0xFC000000 :: []) := by
  exact ⟨⟨by decide +kernel, by rfl, rfl⟩, by decide +kernel, by rfl, rfl⟩
/-- ResetGoSeedsTheOscillatorOnly, its clauses on power-up and on a reset without a prefill. -/
theorem witness_powerUp :
    (({ state0 with port := [.powerUp Config.seedA] }).port = .powerUp Config.seedA :: [] ∧
      ∀ j : Fin 8, Config.seedA[j] ≠ 0#16) ∧
    (({ state0 with port := [.powerUp (Vector.replicate 8 0)] }).port =
        .powerUp (Vector.replicate 8 0) :: [] ∧
      ∃ j : Fin 8, (Vector.replicate 8 0 : Seed)[j] = 0#16) ∧
    state0.params.prefillRows.val = 0 :=
  ⟨⟨rfl, by decide +kernel⟩, ⟨rfl, by decide +kernel⟩, rfl⟩
/-- ResetMmClearsTheMixerOnly and ResetGoSeedsTheOscillatorOnly, both clauses of its reset action. -/
theorem witness_resets :
    ({ state0 with port := [.resetMm] }).port = .resetMm :: [] ∧
    (({ state0 with port := [.resetGo Config.seedA] }).port = .resetGo Config.seedA :: [] ∧
      ∀ j : Fin 8, Config.seedA[j] ≠ 0#16) ∧
    (({ state0 with port := [.resetGo (Vector.replicate 8 0)] }).port =
        .resetGo (Vector.replicate 8 0) :: [] ∧
      ∃ j : Fin 8, (Vector.replicate 8 0 : Seed)[j] = 0#16) :=
  ⟨rfl, ⟨rfl, by decide +kernel⟩, rfl, by decide +kernel⟩
/-- IdlePortKeepsTheState, its three clauses, the last with each of the three reset actions. -/
theorem witness_idle :
    state0.port = [] ∧ carriesData 0x40000000 = true ∧
    (legalWith [0x40000000]).port = [.word 0x40000000] ∧
    ∀ item : PortItem, item ∈ [.resetMm, .resetGo Config.seedA, .powerUp Config.seedA] →
      (item = .resetMm ∨ (∃ seed, item = .resetGo seed) ∨ ∃ seed, item = .powerUp seed) ∧
      ({ state0 with port := [.word 0x40000000, item] }).port = .word 0x40000000 :: item :: [] := by
  refine ⟨rfl, by decide +kernel, rfl, fun item h => ⟨?_, rfl⟩⟩
  simp only [List.mem_cons, List.not_mem_nil, or_false] at h
  rcases h with h | h | h
  · exact .inl h
  · exact .inr (.inl ⟨_, h⟩)
  · exact .inr (.inr ⟨_, h⟩)
/-- DecodeOfEncodeIsTheCommand, at the ends of the operand ranges. -/
theorem witness_wellFormed :
    WellFormed (.mmSetc 255 255 0) ∧ WellFormed (.mmSetci 65535 0) ∧ WellFormed (.mmTick 31 31) ∧
    WellFormed (.goTick (-32768) 0) ∧ WellFormed (.goTick 32767 0) ∧ WellFormed (.goGetStatus 7) := by decide
/-- EncodeOfDecodeIsTheWords, with and without a data word. -/
theorem witness_decodes :
    decodeCommand 0x44008000 5 = .ok (.goTick (-32768) 5) ∧
    decodeCommand 0x4C0000FF 5 = .ok (.goGetCell 31 .UR .Y) := ⟨by rfl, by rfl⟩
/-- AssembledCommandsFitTheirRow: an operand at the end of its field, a literal, a status name. -/
theorem witness_assembles :
    assemble .mmSetc [.int 255, .int 0, .value (.decimal false 75 (-2))] = some (.mmSetc 255 0 0x3F400000) ∧
    assemble .goGetStatus [.status .seam] = some (.goGetStatus 5) ∧
    assemble .mmTick [.int 32, .int 1] = none := by decide +kernel
/-- The same, its second clause: P0's and IO-1's lines, CA-2's, a status name, R70's own error. -/
theorem witness_assembles_lines :
    assembleLine "MM_SETC 0, 0, 2.0".toList = some [.mmSetc 0 0 0x40000000] ∧
    assembleLine "MM_SET_INPUT 15, -2.5".toList = some [.mmSetInput 15 0xC0200000] ∧
    assembleLine "MM_SETC 3, 5, 0x3F400000".toList = some [.mmSetc 3 5 0x3F400000] ∧
    assembleLine "GO_GET_CELL 1, UR, Y".toList = some [.goGetCell 1 .UR .Y] ∧
    assembleLine "MM_CLEAR".toList = some [.mmBulkBegin, .mmRestoreCommit] ∧
    assembleLine "MM_SETC 300, 0, 1.0".toList = none := by decide +kernel
/-- The same, its last clause: a mnemonic with its operand texts, and one with none. -/
theorem witness_assembles_operands :
    (("GO_TICK", .goTick) ∈ opcodeNames ∧
      (∀ t ∈ ["-5".toList, "0.5".toList], ',' ∉ t ∧ ' ' ∉ t) ∧
      operandsText (operandKinds .goTick) ["-5".toList, "0.5".toList] =
        some [.int (-5), .value (.decimal false 5 (-1))] ∧
      assembleLine ("GO_TICK".toList ++ [' '] ++ [',', ' '].intercalate ["-5".toList, "0.5".toList]) =
        some [.goTick (-5) 0x3F000000]) ∧
    (("NOP", .nop) ∈ opcodeNames ∧ operandsText (operandKinds .nop) [] = some []) := by
  decide +kernel
/-- RestoreExpansionPadsOrTruncates, its clauses on `MM_SET_INPUTS` at 16 and at 17 values. -/
theorem witness_set_inputs :
    (List.replicate 16 (0 : Word)).length ≤ 16 ∧ 16 < (List.replicate 17 (0 : Word)).length ∧
    (expand (.mmSetInputs [7, 8])) = some [.mmSetInput 0 7, .mmSetInput 1 8] ∧
    expand (.mmSetInputs (List.replicate 17 0)) = none := by decide +kernel
/-- The step of the three invariants below: a `GO_TICK` that wraps, completing. -/
theorem witness_wrapping_step : ∃ t, step (legalWith [0x44000020, 0x41A00000]) = .next t :=
  completes_of_after (by decide +kernel)
/-- EveryStepKeepsPhaseLegal and EveryStepKeepsLanesNonzero (with the step above). -/
theorem witness_keeps_phase_and_lanes :
    PhaseLegal (legalWith [0x44000020, 0x41A00000]).go ∧
    LanesNonzero (legalWith [0x44000020, 0x41A00000]).go.lfsr := by decide +kernel
/-- EveryStepKeepsSharedEdges (with the step above). -/
theorem witness_keeps_edges :
    legalState.params.reseamOnRowAdvance = true ∧ 2 ≤ legalState.go.W ∧ legalState.go.W ≤ 32 ∧
    SharedEdges legalState.go.W legalState.go.cell := by decide +kernel
/-- EveryStepKeepsCellsInUnit (with the step above), and the seed and table of EveryPowerUpIsLegal. -/
theorem witness_keeps_unit :
    TableLegal legalState.params.sineLut ∧ CellsInUnit legalState.go.cell ∧
    ∀ j : Fin 8, Config.seedA[j] ≠ 0#16 := by
  refine ⟨by decide +kernel, fun c k m => ?_, by decide +kernel⟩
  cases k <;> cases m <;> revert c <;> decide +kernel
/-- EveryStepKeepsCountYAndParameters, at the largest count. -/
theorem witness_keeps_count :
    StageLegal { Mixer.reset with stageCnt := 257 } ∧ YIsZero legalState.go ∧
    ∃ t, step { state0 with mm := { Mixer.reset with stageCnt := 257 }, port := [.word 0x18000000, .word 1] } =
      .next t :=
  ⟨by decide, by decide +kernel, completes_of_after (by decide +kernel)⟩
/-- LfsrStepIsABijection and LfsrPeriodIsMaximal. -/
theorem witness_lane : (0x8000#16 : Lane) ≠ 0#16 ∧ 0 < 65534 ∧ 65534 < 65535 := by decide
/-- RaisingChannelCountsOnlyAdds, its two clauses at the last channel. -/
theorem witness_raising : (15 : Fin 16).val < 16 ∧ 1 ≤ (15 : Fin 16).val ∧ 1 ≤ (1 : Fin 16).val := by decide
/-- InactiveInputsDoNotContribute: MX-3 and the same with another inactive input. -/
theorem witness_inactive :
    let m := (mixerState params0 [1, 1] [5, 0x7FC00000]).mm
    let m' := (mixerState params0 [1, 1] [5, 6]).mm
    m'.coeff = m.coeff ∧ (∀ c : Fin 16, c.val < 1 → m'.inReg[c] = m.inReg[c]) ∧
      m'.inReg[1] ≠ m.inReg[1] := ⟨rfl, by decide +kernel, by decide +kernel⟩
/-- ZeroTableTickOutputsZero: finite inputs, a negative one among them. -/
theorem witness_zero_table :
    let s := mixerState params0 [] [0x40400000, 0xC0400000]
    s.params.accInit = .zero ∧ (∀ k : Fin 256, coefRead s.mm k = posZero) ∧
    ∀ c : Fin 16, c.val < channelCount 16 → isFinite s.mm.inReg[c] = true := by decide +kernel
/-- EnginesAreIndependent: a mixer command with two oscillators, an oscillator command with two
mixers. -/
theorem witness_engines :
    (commandEngine (.mmTick 16 16) = .mixer ∧ legalState.mm = state0.mm ∧
      ({ legalState with params := params0 }).params = state0.params) ∧
    (commandEngine (.goTick 32 0) = .oscillator ∧
      ({ legalState with mm := stagePush 1 state0.mm }).go = legalState.go ∧
      ∃ t, exec (.goTick 32 0) legalState = .next t) :=
  ⟨⟨rfl, rfl, rfl⟩, rfl, rfl, completes_of_after (by decide +kernel)⟩
/-- RoundingIsNearestTiesToEven: 1 + 2^-24 ties between 1 and 1 + 2^-23, and 1 is even. -/
theorem witness_tie :
    isFinite (roundSigned false (2 ^ 149 + 2 ^ 125) 1) = true ∧ isFinite 0x3F800001 = true ∧
    (2 ^ 149 + 2 ^ 125 - fVal (roundSigned false (2 ^ 149 + 2 ^ 125) 1) * 1).natAbs =
      (2 ^ 149 + 2 ^ 125 - fVal 0x3F800001 * 1).natAbs ∧
    fVal 0x3F800001 ≠ fVal (roundSigned false (2 ^ 149 + 2 ^ 125) 1) := by decide +kernel
/-- The same, its clause on the operations: finite operands whose sum overflows, by the least overflow
(half a unit in the last place over the greatest finite value), and a finite one just below it. -/
theorem witness_overflow :
    isFinite 0x7F7FFFFF = true ∧ isFinite 0x73000000 = true ∧ isFinite 0x72FFFFFF = true ∧
    (fVal 0x7F7FFFFF + fVal 0x73000000).natAbs = overflowBound ∧
    fadd false 0 0x7F7FFFFF 0x73000000 = 0x7F800000#32 ∧
    (fVal 0x7F7FFFFF + fVal 0x72FFFFFF).natAbs < overflowBound ∧
    fadd false 0 0x7F7FFFFF 0x72FFFFFF = 0x7F7FFFFF#32 := by decide +kernel
/-- NanResultIsTheDrawnQuietNan: ∞ - ∞, 0 · ∞, and both in one operation, whatever is drawn. -/
theorem witness_nan (bits : BitVec 23) :
    isNaN (fadd false (quietNaN bits) 0x7F800000 0xFF800000) = true ∧
    isNaN (fmul false (quietNaN bits) 0 0x7F800000) = true ∧
    isNaN (ffma false (quietNaN bits) 0 0x7F800000 0x3F800000) = true :=
  ⟨isNaN_quietNaN bits, isNaN_quietNaN bits, isNaN_quietNaN bits⟩
/-- ZeroStartChangesOnlyNegativeZero, with the product -0.0 (MX-11). -/
theorem witness_zero_start :
    Config.Params.default.fusedMac = false ∧ isNaN (fmul false 0 0xBF800000 0) = false ∧
    fmul false 0 0xBF800000 0 = 0x80000000#32 := by decide +kernel
/-- PhaseSubtractionsAreExact: `W` and `x` at their ends, and the last cell. -/
theorem witness_subtractions :
    (fle (f32 2) (f32 64) = true ∧ fle (f32 64) (f32 64) = true ∧ fle (f32 32) (f32 32) = true) ∧
    (fle posZero 0x41FFFFFF = true ∧ flt 0x41FFFFFF (f32 32) = true ∧ floorVal 0x41FFFFFF = (31 : Nat) ∧
      isSubnormal 0x41FFFFFF = false) := by decide +kernel
/-- WrapEventsAreBoundedAndExact: GT-8, six wraps, and one wrap event at the shortest and at the longest
length. -/
theorem witness_wrap_events :
    (editLength 2 legalState.go).W = 2 ∧ legalState.go.W = 32 ∧
    PhaseLegal legalState.go ∧ MaxIncDefault legalState.params ∧
    ∃ t, exec (.goTick 3 0) legalState = .next t :=
  ⟨rfl, rfl, by decide +kernel, by decide +kernel, completes_of_after (by decide +kernel)⟩
/-- WrapSpliceIsANoOpOnCells, at the full length and after a length edit with a pending seam. -/
theorem witness_splice :
    SharedEdges 32 State.reset.go.cell ∧
    SharedEdges (editLength 2 State.reset.go).W (editLength 2 State.reset.go).cell ∧
    (editLength 2 State.reset.go).seamPending = true := by decide +kernel
/-- OneWrapIsOneRowAdvance: from 20.0 by 20.0, and by 0 with the length changed to 16. -/
theorem witness_one_wrap :
    legalState.params.rowAdvanceOnWrap = true ∧ PhaseLegal legalState.go ∧ YIsZero legalState.go ∧
    legalState.params.reseamOnRowAdvance = true ∧ SharedEdges legalState.go.W legalState.go.cell ∧
    (fle posZero (legalInc 0x41A00000) = true ∧
      fle (legalInc 0x41A00000) legalState.params.maxPhaseInc = true ∧
      cycleLength 32 = legalState.go.W ∧ fle (f32 (cycleLength 32)) (legalNext 0x41A00000) = true ∧
      flt (legalNext 0x41A00000) (f32 (2 * cycleLength 32)) = true) ∧
    (fle posZero (legalInc 0) = true ∧ fle (legalInc 0) legalState.params.maxPhaseInc = true ∧
      fle (f32 (cycleLength 16)) (legalNext 0) = true ∧
      flt (legalNext 0) (f32 (2 * cycleLength 16)) = true) := by decide +kernel

end Sys2Proof.Tests
end

section
/-! The commands with branches, one equation per branch; the others are their meaning by definition. -/

namespace Sys2Proof.Machine

theorem exec_mmSetc_some {o i : Nat} {k : Fin 256} {s : State} (v : Word)
    (h : pairOf s.params.flatIndexOrder o i = some k) :
    exec (.mmSetc o i v) s = done posZero { s with mm := coefWrite k v s.mm } := by
  simp only [exec, execMmSetc, h]

theorem exec_mmSetc_none {o i : Nat} {s : State} (v : Word)
    (h : pairOf s.params.flatIndexOrder o i = none) :
    exec (.mmSetc o i v) s = raise .indexOutOfRange s := by
  simp only [exec, execMmSetc, h]

theorem exec_mmGetc_some {o i : Nat} {k : Fin 256} {s : State}
    (h : pairOf s.params.flatIndexOrder o i = some k) :
    exec (.mmGetc o i) s = done (coefRead s.mm k) s := by
  simp only [exec, execMmGetc, h]

theorem exec_mmGetc_none {o i : Nat} {s : State} (h : pairOf s.params.flatIndexOrder o i = none) :
    exec (.mmGetc o i) s = raise .indexOutOfRange s := by
  simp only [exec, execMmGetc, h]

theorem exec_mmSetci_some {idx : Nat} {k : Fin 256} (v : Word) (s : State) (h : flatOf idx = some k) :
    exec (.mmSetci idx v) s = done posZero { s with mm := coefWrite k v s.mm } := by
  simp only [exec, execMmSetci, h]

theorem exec_mmSetci_none {idx : Nat} (v : Word) (s : State) (h : flatOf idx = none) :
    exec (.mmSetci idx v) s = raise .indexOutOfRange s := by
  simp only [exec, execMmSetci, h]

theorem exec_mmGetci_some {idx : Nat} {k : Fin 256} (s : State) (h : flatOf idx = some k) :
    exec (.mmGetci idx) s = done (coefRead s.mm k) s := by
  simp only [exec, execMmGetci, h]

theorem exec_mmGetci_none {idx : Nat} (s : State) (h : flatOf idx = none) :
    exec (.mmGetci idx) s = raise .indexOutOfRange s := by
  simp only [exec, execMmGetci, h]

theorem exec_mmBulkCommit_accepted {s : State} (h : s.mm.stageCnt = 256) :
    exec .mmBulkCommit s = done posZero { s with mm := stageClear (bulkCopy s.mm) } := by
  simp only [exec, execMmBulkCommit, bulkAccepted, h, decide_true, if_true]

theorem exec_mmBulkCommit_malformed {s : State} (h : s.mm.stageCnt ≠ 256) :
    exec .mmBulkCommit s = raise .malformedBulkInput { s with mm := stageClear s.mm } := by
  simp only [exec, execMmBulkCommit, bulkAccepted, h, decide_false, Bool.false_eq_true, if_false]

theorem exec_goTick_ok {len : Int} {freq : Word} {s : State} {o : Oscillator}
    (h : oscillatorTick s.params (oscillatorNans s) len freq s.go = .ok o) :
    exec (.goTick len freq) s = done o.goOut { s with go := o, goNanTick := s.goNanTick + 1 } := by
  simp only [exec, execGoTick, h]

theorem exec_goTick_error {len : Int} {freq : Word} {s : State} {f : Fault}
    (h : oscillatorTick s.params (oscillatorNans s) len freq s.go = .error f) :
    exec (.goTick len freq) s = .fault f := by
  simp only [exec, execGoTick, h]

theorem exec_goGetStatus_some {sel : Nat} {v : Word} {s : State}
    (h : statusRegister s.go sel = some v) : exec (.goGetStatus sel) s = done v s := by
  simp only [exec, execGoGetStatus, h]

theorem exec_goGetStatus_none {sel : Nat} {s : State} (h : statusRegister s.go sel = none) :
    exec (.goGetStatus sel) s = raise .illegalCommand s := by
  simp only [exec, execGoGetStatus, h]

end Sys2Proof.Machine
end

section
/-! R2, 00_scope.md: the engines are independent. What a command of one engine does is a function of
that engine, its NaN counter and the parameters. It is said by putting given values of these into an
otherwise arbitrary state (`withMixer`, `withOscillator`): the rest of the state comes through as it was. -/

namespace Sys2Proof.Machine

/-- The NaN patterns of one tick of an engine, from its counter alone (log 4). -/
def tickNans (e : Config.Engine) (n site : Nat) : Word := quietNaN (Config.nanBits e n site)

/-- A state with everything a mixer command may read set. -/
def withMixer (p : Config.Params) (m : Mixer) (n : Nat) (s : State) : State :=
  { s with params := p, mm := m, mmNanTick := n }

/-- A state with everything an oscillator command may read set. -/
def withOscillator (p : Config.Params) (g : Oscillator) (n : Nat) (s : State) : State :=
  { s with params := p, go := g, goNanTick := n }

theorem mixerNans_withMixer (p : Config.Params) (m : Mixer) (n : Nat) (s : State) :
    mixerNans (withMixer p m n s) = tickNans .mixer n := rfl

theorem oscillatorNans_withOscillator (p : Config.Params) (g : Oscillator) (n : Nat) (s : State) :
    oscillatorNans (withOscillator p g n s) = tickNans .oscillator n := rfl

theorem withMixer_of_agrees {s s' : State} (hm : s'.mm = s.mm) (hn : s'.mmNanTick = s.mmNanTick)
    (hp : s'.params = s.params) : withMixer s.params s.mm s.mmNanTick s' = s' := by
  rw [← hm, ← hn, ← hp]; rfl

theorem withOscillator_of_agrees {s s' : State} (hg : s'.go = s.go)
    (hn : s'.goNanTick = s.goNanTick) (hp : s'.params = s.params) :
    withOscillator s.params s.go s.goNanTick s' = s' := by
  rw [← hg, ← hn, ← hp]; rfl

/-- What a mixer command leaves in the mixer, and what it answers, is fixed before the rest of the
state is known. -/
theorem exec_withMixer {i : Instr} (hi : commandEngine i = .mixer) (p : Config.Params) (m : Mixer)
    (n : Nat) : ∃ (m' : Mixer) (n' : Nat) (st : Status) (d : Word), ∀ s : State,
      exec i (withMixer p m n s) = .next (respond st d (withMixer p m' n' s)) := by
  cases i with
  | mmSetc o k v =>
    cases hk : pairOf p.flatIndexOrder o k with
    | none => exact ⟨m, n, .indexOutOfRange, posZero, fun _ => exec_mmSetc_none v hk⟩
    | some f => exact ⟨coefWrite f v m, n, .ok, posZero, fun _ => exec_mmSetc_some v hk⟩
  | mmGetc o k =>
    cases hk : pairOf p.flatIndexOrder o k with
    | none => exact ⟨m, n, .indexOutOfRange, posZero, fun _ => exec_mmGetc_none hk⟩
    | some f => exact ⟨m, n, .ok, coefRead m f, fun _ => exec_mmGetc_some hk⟩
  | mmSetci idx v =>
    cases hk : flatOf idx with
    | none => exact ⟨m, n, .indexOutOfRange, posZero, fun _ => exec_mmSetci_none v _ hk⟩
    | some f => exact ⟨coefWrite f v m, n, .ok, posZero, fun _ => exec_mmSetci_some v _ hk⟩
  | mmGetci idx =>
    cases hk : flatOf idx with
    | none => exact ⟨m, n, .indexOutOfRange, posZero, fun _ => exec_mmGetci_none _ hk⟩
    | some f => exact ⟨m, n, .ok, coefRead m f, fun _ => exec_mmGetci_some _ hk⟩
  | mmBulkBegin => exact ⟨stageClear m, n, .ok, posZero, fun _ => rfl⟩
  | mmBulkPush v => exact ⟨stagePush v m, n, .ok, posZero, fun _ => rfl⟩
  | mmBulkCommit =>
    by_cases hc : m.stageCnt = 256
    · exact ⟨stageClear (bulkCopy m), n, .ok, posZero, fun _ => exec_mmBulkCommit_accepted hc⟩
    · exact ⟨stageClear m, n, .malformedBulkInput, posZero, fun _ => exec_mmBulkCommit_malformed hc⟩
  | mmRestoreCommit => exact ⟨stageClear (restoreCopy m), n, .ok, posZero, fun _ => rfl⟩
  | mmSetInput ch v => exact ⟨inputWrite ch v m, n, .ok, posZero, fun _ => rfl⟩
  | mmTick nin nout =>
    exact ⟨mixerTick p (tickNans .mixer n) (channelCount nin) (channelCount nout) m, n + 1, .ok, posZero,
      fun s => by rw [← mixerNans_withMixer p m n s]; rfl⟩
  | mmGetOutput ch => exact ⟨m, n, .ok, m.outReg[ch], fun _ => rfl⟩
  | _ => cases hi

/-- The same for an oscillator command, which either faults or answers a next state, whatever the rest
of the state is. -/
theorem exec_withOscillator {i : Instr} (hi : commandEngine i = .oscillator) (p : Config.Params)
    (g : Oscillator) (n : Nat) :
    (∃ f : Fault, ∀ s : State, exec i (withOscillator p g n s) = .fault f) ∨
    ∃ (g' : Oscillator) (n' : Nat) (st : Status) (d : Word), ∀ s : State,
      exec i (withOscillator p g n s) = .next (respond st d (withOscillator p g' n' s)) := by
  cases i with
  | goSetDt v => exact .inr ⟨{ g with dt := v }, n, .ok, posZero, fun _ => rfl⟩
  | goTick len freq =>
    cases ht : oscillatorTick p (tickNans .oscillator n) len freq g with
    | error f => exact .inl ⟨f, fun s => exec_goTick_error (oscillatorNans_withOscillator p g n s ▸ ht)⟩
    | ok o =>
      exact .inr ⟨o, n + 1, .ok, o.goOut,
        fun s => exec_goTick_ok (oscillatorNans_withOscillator p g n s ▸ ht)⟩
  | goRowAdvance => exact .inr ⟨g.rowAdvance p, n, .ok, posZero, fun _ => rfl⟩
  | goGetCell c k m => exact .inr ⟨g, n, .ok, vertexComp (cellCorner g.cell[c] k) m, fun _ => rfl⟩
  | goGetLfsr j => exact .inr ⟨g, n, .ok, g.lfsr[j].setWidth 32, fun _ => rfl⟩
  | goGetStatus sel =>
    cases hr : statusRegister g sel with
    | none => exact .inr ⟨g, n, .illegalCommand, posZero, fun _ => exec_goGetStatus_none hr⟩
    | some v => exact .inr ⟨g, n, .ok, v, fun _ => exec_goGetStatus_some hr⟩
  | _ => cases hi

/-- Settles O53: what a command of an engine does is a function of that engine, its NaN counter and the
parameters (`exec_withMixer`, `exec_withOscillator`), so states that agree on these get the same. -/
theorem enginesAreIndependent : Obligations.EnginesAreIndependent := by
  constructor
  · intro i s s' hi hm hn hp
    obtain ⟨m', n', st, d, hexec⟩ := exec_withMixer hi s.params s.mm s.mmNanTick
    have hs' := hexec s'
    rw [withMixer_of_agrees hm hn hp] at hs'
    exact ⟨_, _, ⟨st, d⟩, hexec s, hs', rfl, rfl, rfl, ⟨rfl, rfl⟩, ⟨rfl, rfl⟩⟩
  · intro i s s' t hi hg hn hp ht
    obtain ⟨f, hfault⟩ | ⟨g', n', st, d, hexec⟩ := exec_withOscillator hi s.params s.go s.goNanTick
    · cases ht.symm.trans (hfault s)
    · have hs' := hexec s'
      rw [withOscillator_of_agrees hg hn hp] at hs'
      cases ht.symm.trans (hexec s)
      exact ⟨_, ⟨st, d⟩, hs', rfl, rfl, rfl, ⟨rfl, rfl⟩, ⟨rfl, rfl⟩⟩

end Sys2Proof.Machine
end

section
/-! R54, R71: the commands of an expansion, run one after the other. -/

namespace Sys2Proof.Machine

theorem execAll_cons {i : Instr} {is : List Instr} {s t : State} (h : exec i s = .next t) :
    execAll (i :: is) s = execAll is t := by
  simp only [execAll, h]

theorem execAll_append {is js : List Instr} {s t : State} (h : execAll is s = .next t) :
    execAll (is ++ js) s = execAll js t := by
  induction is generalizing s with
  | nil => cases h; rfl
  | cons i is ih =>
    cases hi : exec i s with
    | next u =>
      rw [execAll_cons hi] at h
      rw [List.cons_append, execAll_cons hi, ih h]
    | fault f => simp only [execAll, hi, reduceCtorEq] at h
    | refused r => simp only [execAll, hi, reduceCtorEq] at h

/-! ### A list of pushes (R81) -/

/-- The mixer after a list of values is pushed. -/
def pushAll (vs : List Word) (m : Mixer) : Mixer := vs.foldl (fun m v => stagePush v m) m

@[simp] theorem pushAll_nil (m : Mixer) : pushAll [] m = m := rfl

@[simp] theorem pushAll_cons (v : Word) (vs : List Word) (m : Mixer) :
    pushAll (v :: vs) m = pushAll vs (stagePush v m) := rfl

theorem stageCntAfterPush_le_iff {n k : Nat} (hk : k < 256) : stageCntAfterPush n ≤ k ↔ n < k := by
  rw [stageCntAfterPush]; split <;> omega

/-- The count goes up by one per push and stays at 257 when the buffer has overflowed. -/
theorem pushAll_stageCnt {m : Mixer} (h : m.stageCnt ≤ 257) (vs : List Word) :
    (pushAll vs m).stageCnt = min (m.stageCnt + vs.length) 257 := by
  induction vs generalizing m with
  | nil => simp only [pushAll_nil, List.length_nil]; omega
  | cons v vs ih =>
    have hpush : (stagePush v m).stageCnt = min (m.stageCnt + 1) 257 := by
      rw [stagePush_stageCnt, stageCntAfterPush]; split <;> omega
    rw [pushAll_cons, ih (by omega), hpush, List.length_cons]
    omega

/-- The pushed values stand from the old count on, in order; entries below it, and entries no value
reaches, are kept. -/
theorem pushAll_stage_getElem (vs : List Word) (m : Mixer) (k : Fin 256) :
    (pushAll vs m).stage[k] =
      if m.stageCnt ≤ k.val then vs[k.val - m.stageCnt]?.getD m.stage[k] else m.stage[k] := by
  induction vs generalizing m with
  | nil => simp
  | cons v vs ih =>
    simp only [pushAll_cons, ih, stagePush_getElem, stagePush_stageCnt, stageCntAfterPush_le_iff k.isLt]
    obtain hlt | heq | hgt := Nat.lt_trichotomy k.val m.stageCnt
    · rw [if_neg (by omega), if_neg (by omega), if_neg (by omega)]
    · have hfirst : k.val - m.stageCnt = 0 := by omega
      rw [if_neg (by omega), if_pos heq, if_pos (by omega), hfirst]
      rfl
    · have hlater : k.val - m.stageCnt = k.val - stageCntAfterPush m.stageCnt + 1 := by
        rw [stageCntAfterPush, if_pos (by omega)]; omega
      rw [if_pos hgt, if_neg (by omega), if_pos (by omega), hlater, List.getElem?_cons_succ]

theorem execAll_mmBulkPush (vs : List Word) (s : State) :
    execAll (vs.map .mmBulkPush) s =
      .next { s with
        mm := pushAll vs s.mm
        responses := List.replicate vs.length ⟨.ok, posZero⟩ ++ s.responses } := by
  induction vs generalizing s with
  | nil => rfl
  | cons v vs ih =>
    have hpush : exec (.mmBulkPush v) s = done posZero { s with mm := stagePush v s.mm } := rfl
    rw [List.map_cons, execAll_cons hpush, ih, List.length_cons, List.replicate_succ']
    simp

/-! ### A bulk replace (R71, R82) -/

/-- The state a bulk replace or a restore of `vs` has before its commit. -/
def staged (vs : List Word) (s : State) : State :=
  { s with
    mm := pushAll vs (stageClear s.mm)
    responses := List.replicate (vs.length + 1) ⟨.ok, posZero⟩ ++ s.responses }

theorem staged_stageCnt (vs : List Word) (s : State) :
    (staged vs s).mm.stageCnt = min vs.length 257 := by
  rw [staged, pushAll_stageCnt (Nat.zero_le _), stageClear_stageCnt, Nat.zero_add]

theorem staged_stage_getElem {vs : List Word} {k : Fin 256} {v : Word} (s : State)
    (h : vs[k.val]? = some v) : (staged vs s).mm.stage[k] = v := by
  rw [staged, pushAll_stage_getElem]
  simp [h]

/-- The commands up to the commit, whichever commit it is. -/
theorem execAll_staged (vs : List Word) (commit : Instr) (s : State) :
    execAll ([.mmBulkBegin] ++ vs.map .mmBulkPush ++ [commit]) s = execAll [commit] (staged vs s) := by
  have hbegin : exec .mmBulkBegin s = done posZero { s with mm := stageClear s.mm } := rfl
  rw [List.append_assoc, List.singleton_append, execAll_cons hbegin,
    execAll_append (execAll_mmBulkPush vs _), staged, List.replicate_succ']
  simp

theorem execAll_bulkReplace_accepted {vs : List Word} (hlen : vs.length = 256) (s : State) :
    ∃ t : State, execAll ([.mmBulkBegin] ++ vs.map .mmBulkPush ++ [.mmBulkCommit]) s = .next t ∧
      t.mm = stageClear (bulkCopy (staged vs s).mm) := by
  have hcnt : (staged vs s).mm.stageCnt = 256 := by rw [staged_stageCnt, hlen]; rfl
  rw [execAll_staged, execAll_cons (exec_mmBulkCommit_accepted hcnt)]
  exact ⟨_, rfl, rfl⟩

/-! ### A snapshot (R71, R79) -/

theorem execAll_mmGetci (ks : List (Fin 256)) (s : State) :
    execAll (ks.map fun k => .mmGetci k.val) s =
      .next { s with
        responses := (ks.map fun k => ⟨.ok, coefRead s.mm k⟩).reverse ++ s.responses } := by
  induction ks generalizing s with
  | nil => rfl
  | cons k ks ih =>
    rw [List.map_cons, execAll_cons (exec_mmGetci_some s (flatOf_val k)), ih]
    simp

/-- The coefficients in flat order. -/
def tableValues (m : Mixer) : List Word := (List.finRange 256).map (coefRead m)

theorem tableValues_length (m : Mixer) : (tableValues m).length = 256 := by
  rw [tableValues, List.length_map, List.length_finRange]

theorem tableValues_getElem? (m : Mixer) (k : Fin 256) :
    (tableValues m)[k.val]? = some (coefRead m k) := by
  simp [tableValues]

/-- The expansion of a snapshot reads the 256 indices in flat order. -/
theorem expand_mmSnapshot :
    expand .mmSnapshot = some ((List.finRange 256).map fun k => .mmGetci k.val) := by
  rw [expand, ← List.map_coe_finRange_eq_range, List.map_map]; rfl

/-- Settles O52: the snapshot answers the table's values in flat order, and staging these 256 values
and committing them copies them. -/
theorem snapshotThenReplaceCopiesTheTable : Obligations.SnapshotThenReplaceCopiesTheTable := by
  intro a b
  obtain ⟨b', hreplace, hb'⟩ := execAll_bulkReplace_accepted (tableValues_length a.mm) b
  refine ⟨_, _, _, b', tableValues a.mm, expand_mmSnapshot, execAll_mmGetci _ a, ⟨rfl, rfl⟩, ⟨rfl, rfl⟩,
    ?_, rfl, hreplace, fun k => ?_⟩
  · rw [tableValues, List.map_map]; rfl
  · rw [hb', coefRead_stageClear, coefRead_bulkCopy, staged_stage_getElem b (tableValues_getElem? a.mm k)]

end Sys2Proof.Machine
end

section
/-! What a step does to the oscillator engine, to `stage_cnt` and to the parameters, said once: the
invariants of 10_state.md are derived from it. -/

namespace Sys2Proof.Machine

/-- What a step can make of the oscillator engine. -/
inductive OscillatorMove (p : Config.Params) (o : Oscillator) : Oscillator → Prop
  | kept : OscillatorMove p o o
  | setDt (v : Word) : OscillatorMove p o { o with dt := v }
  | tick {nan : Nat → Word} {len : Int} {freq : Word} {o' : Oscillator}
      (h : oscillatorTick p nan len freq o = .ok o') : OscillatorMove p o o'
  | rowAdvance : OscillatorMove p o (o.rowAdvance p)
  | reset {seed : Seed} (h : seedAdmitted seed = true) : OscillatorMove p o (Oscillator.reset p seed)

/-- What a step can make of `stage_cnt` (R27). -/
inductive CountMove (n : Nat) : Nat → Prop
  | kept : CountMove n n
  | push : CountMove n (stageCntAfterPush n)
  | clear : CountMove n 0

/-- What every step does. -/
structure StepMove (s t : State) : Prop where
  oscillator : OscillatorMove s.params s.go t.go
  count : CountMove s.mm.stageCnt t.mm.stageCnt
  params : t.params = s.params

theorem StepMove.refl (s : State) : StepMove s s := ⟨.kept, .kept, rfl⟩

/-- A response and a taken transaction are no part of a move. -/
theorem StepMove.respond {s t : State} (h : StepMove s t) (st : Status) (d : Word) :
    StepMove s (respond st d t) := ⟨h.oscillator, h.count, h.params⟩

theorem StepMove.of_takePort {s t : State} {rest : List PortItem} (h : StepMove (takePort rest s) t) :
    StepMove s t := ⟨h.oscillator, h.count, h.params⟩

theorem StepMove.of_done {s t u : State} {d : Word} (h : StepMove s u) (ht : done d u = .next t) :
    StepMove s t := by
  cases ht; exact h.respond .ok d

theorem StepMove.of_raise {s t u : State} {c : Condition} (h : StepMove s u)
    (ht : raise c u = .next t) : StepMove s t := by
  cases ht; exact h.respond (conditionStatus c) posZero

/-- WHAT EVERY COMMAND DOES to the three. -/
theorem exec_stepMove {i : Instr} {s t : State} (ht : exec i s = .next t) : StepMove s t := by
  have same := StepMove.refl s
  have cleared (m : Mixer) : StepMove s { s with mm := stageClear m } := ⟨.kept, .clear, rfl⟩
  have coef (f : Fin 256) (v : Word) : StepMove s { s with mm := coefWrite f v s.mm } :=
    ⟨.kept, .kept, rfl⟩
  cases i with
  | nop => exact same.of_done ht
  | mmSetc o k v =>
    cases hk : pairOf s.params.flatIndexOrder o k with
    | none => exact same.of_raise (exec_mmSetc_none v hk ▸ ht)
    | some f => exact (coef f v).of_done (exec_mmSetc_some v hk ▸ ht)
  | mmGetc o k =>
    cases hk : pairOf s.params.flatIndexOrder o k with
    | none => exact same.of_raise (exec_mmGetc_none hk ▸ ht)
    | some f => exact same.of_done (exec_mmGetc_some hk ▸ ht)
  | mmSetci idx v =>
    cases hk : flatOf idx with
    | none => exact same.of_raise (exec_mmSetci_none v s hk ▸ ht)
    | some f => exact (coef f v).of_done (exec_mmSetci_some v s hk ▸ ht)
  | mmGetci idx =>
    cases hk : flatOf idx with
    | none => exact same.of_raise (exec_mmGetci_none s hk ▸ ht)
    | some f => exact same.of_done (exec_mmGetci_some s hk ▸ ht)
  | mmBulkBegin => exact (cleared s.mm).of_done ht
  | mmBulkPush v => cases ht; exact ⟨.kept, .push, rfl⟩
  | mmBulkCommit =>
    by_cases hc : s.mm.stageCnt = 256
    · exact (cleared (bulkCopy s.mm)).of_done (exec_mmBulkCommit_accepted hc ▸ ht)
    · exact (cleared s.mm).of_raise (exec_mmBulkCommit_malformed hc ▸ ht)
  | mmRestoreCommit => exact (cleared (restoreCopy s.mm)).of_done ht
  | mmSetInput ch v => cases ht; exact ⟨.kept, .kept, rfl⟩
  | mmTick nin nout => cases ht; exact ⟨.kept, .kept, rfl⟩
  | mmGetOutput ch => exact same.of_done ht
  | goSetDt v => cases ht; exact ⟨.setDt v, .kept, rfl⟩
  | goTick len freq =>
    cases ho : oscillatorTick s.params (oscillatorNans s) len freq s.go with
    | error f => cases ht.symm.trans (exec_goTick_error ho)
    | ok o => cases ht.symm.trans (exec_goTick_ok ho); exact ⟨.tick ho, .kept, rfl⟩
  | goRowAdvance => cases ht; exact ⟨.rowAdvance, .kept, rfl⟩
  | goGetCell c k m => exact same.of_done ht
  | goGetLfsr j => exact same.of_done ht
  | goGetStatus sel =>
    cases hr : statusRegister s.go sel with
    | none => exact same.of_raise (exec_goGetStatus_none hr ▸ ht)
    | some v => exact same.of_done (exec_goGetStatus_some hr ▸ ht)

theorem resetMm_stepMove (s : State) : StepMove s (resetMm s) := ⟨.kept, .clear, rfl⟩

/-- A completed oscillator reset had an admitted seed (R101). -/
theorem resetGo_next {seed : Seed} {s t : State} (ht : resetGo seed s = .next t) :
    seedAdmitted seed = true ∧ t = { s with go := Oscillator.reset s.params seed } := by
  unfold resetGo at ht
  split at ht
  · next hseed => cases ht; exact ⟨hseed, rfl⟩
  · cases ht

theorem resetGo_stepMove {seed : Seed} {s t : State} (ht : resetGo seed s = .next t) :
    StepMove s t := by
  obtain ⟨hseed, rfl⟩ := resetGo_next ht
  exact ⟨.reset hseed, .kept, rfl⟩

theorem powerUpReset_stepMove {seed : Seed} {s t : State} (ht : powerUpReset seed s = .next t) :
    StepMove s t := by
  obtain ⟨hseed, rfl⟩ := resetGo_next ht
  exact ⟨.reset hseed, .clear, rfl⟩

/-- WHAT EVERY STEP DOES to the three, by the cases of `step_cases`. -/
theorem step_stepMove {s t : State} (ht : step s = .next t) : StepMove s t := by
  obtain ⟨-, h⟩ | ⟨-, h⟩ | ⟨rest, -, h⟩ | ⟨seed, rest, -, h⟩ | ⟨seed, rest, -, h⟩ |
    ⟨_, rest, i, _, -, -, h⟩ | ⟨_, rest, _, _, -, -, h⟩ | ⟨_, _, -, -, h⟩ := step_cases s <;>
    rw [h] at ht
  · cases ht; exact .refl s
  · cases ht
  · cases ht; exact (resetMm_stepMove _).of_takePort
  · exact (resetGo_stepMove ht).of_takePort
  · exact (powerUpReset_stepMove ht).of_takePort
  · exact (exec_stepMove ht).of_takePort
  · exact ((StepMove.refl _).of_raise ht).of_takePort
  · cases ht; exact .refl s

/-! ### The induction behind the invariants of the grid, the lanes and `y` -/

theorem rowAdvances_induct {p : Config.Params} {P : Oscillator → Prop}
    (hrow : ∀ o, P o → P (o.rowAdvance p)) (n : Nat) {o : Oscillator} (h : P o) :
    P (Oscillator.rowAdvances p n o) := by
  induction n generalizing o with
  | zero => exact h
  | succ n ih => exact ih (hrow o h)

/-- A property of the engine that does not read `x`, `dt` or `go_out`, holds of the engine a reset
starts from, and is kept by each procedure that writes the grid, the lanes or `W`. -/
structure OscillatorInvariant (p : Config.Params) (P : Oscillator → Prop) : Prop where
  registers : ∀ (o : Oscillator) (x dt out : Word), P o → P { o with x := x, dt := dt, goOut := out }
  editLength : ∀ (o : Oscillator) (Wn : Nat), 2 ≤ Wn → Wn ≤ 32 → P o → P (editLength Wn o)
  wrapSplice : ∀ o : Oscillator, P o → P (wrapSplice o)
  rowAdvance : ∀ o : Oscillator, P o → P (o.rowAdvance p)
  cleared : ∀ seed : Seed, seedAdmitted seed = true → P (Oscillator.cleared seed)

section
variable {p : Config.Params} {P : Oscillator → Prop}

theorem OscillatorInvariant.wrapEvent (inv : OscillatorInvariant p P) (nan : Nat → Word)
    {o : Oscillator} (h : P o) : P (wrapEvent p nan o) := by
  have hphase : P (wrapPhase p nan (Machine.wrapSplice o)) :=
    inv.registers _ _ o.dt o.goOut (inv.wrapSplice o h)
  unfold Machine.wrapEvent
  cases p.rowAdvanceOnWrap with
  | true => exact inv.rowAdvance _ hphase
  | false => exact hphase

theorem OscillatorInvariant.tick (inv : OscillatorInvariant p P) {nan : Nat → Word} {len : Int}
    {freq : Word} {o o' : Oscillator} (ht : oscillatorTick p nan len freq o = .ok o') (h : P o) :
    P o' := by
  obtain ⟨-, o1, o2, c, rfl, hloop, -, rfl⟩ := oscillatorTick_ok ht
  obtain ⟨hlow, hhigh⟩ := cycleLength_range len
  have hedit : P (Machine.editLength (cycleLength len) o) := inv.editLength o _ hlow hhigh h
  have hwrapped : P o2 :=
    wrapLoop_induct P (fun _ h' _ => inv.wrapEvent nan h') hloop
      (inv.registers _ _ o.dt o.goOut hedit)
  exact inv.registers o2 o2.x o2.dt _ hwrapped

theorem OscillatorInvariant.move (inv : OscillatorInvariant p P) {o o' : Oscillator}
    (hmove : OscillatorMove p o o') (h : P o) : P o' := by
  cases hmove with
  | kept => exact h
  | setDt v => exact inv.registers o o.x v o.goOut h
  | tick ht => exact inv.tick ht h
  | rowAdvance => exact inv.rowAdvance o h
  | reset hseed => exact rowAdvances_induct inv.rowAdvance _ (inv.cleared _ hseed)

/-- Every step keeps an invariant of the oscillator engine. -/
theorem OscillatorInvariant.step {s t : State} (inv : OscillatorInvariant s.params P)
    (ht : step s = .next t) (h : P s.go) : P t.go :=
  inv.move (step_stepMove ht).oscillator h

end

end Sys2Proof.Machine
end

section
/-! R37, R38: the phase stays legal. -/

namespace Sys2Proof.Machine

theorem phaseLegal_cleared (seed : Seed) : PhaseLegal (Oscillator.cleared seed) := by
  rw [PhaseLegal, cleared_x, cleared_W]
  decide

/-- A tick that completes ends below `f32(W)`, because its wrap loop ended, and at 0 or above, because
`floor(x)` named a cell; the legality of the phase before it is not needed. -/
theorem phaseLegal_of_oscillatorTick {p : Config.Params} {nan : Nat → Word} {len : Int} {freq : Word}
    {o o' : Oscillator} (h : oscillatorTick p nan len freq o = .ok o') : PhaseLegal o' := by
  obtain ⟨-, o1, o2, c, rfl, hloop, hcell, rfl⟩ := oscillatorTick_ok h
  obtain ⟨hnum, hnonneg, -⟩ := phaseCell_some hcell
  have hW : o2.W = cycleLength len :=
    wrapLoop_induct (fun e => e.W = cycleLength len)
      (fun e he _ => by rw [(wrapEvent_fields p nan e).2.1, he]) hloop rfl
  obtain ⟨hlow, hhigh⟩ := cycleLength_range len
  have hbound : isNaN (f32 o2.W) = false :=
    isNaN_eq_false_of_isFinite (f32_spec (by omega)).1
  obtain ⟨-, -, -, hended, -⟩ := wrapLoop_some hloop
  have hbelow : fVal o2.x < fVal (f32 o2.W) := by
    simpa [wraps, fle, hnum, hbound] using hended
  have hzero : isNaN posZero = false ∧ fVal posZero = 0 := by decide
  refine ⟨hW ▸ hlow, hW ▸ hhigh, ?_, ?_⟩
  · simp [fle, hnum, hzero.1, hzero.2, hnonneg]
  · simp [flt, hnum, hbound, hbelow]

/-- Only a tick and a reset write `x` or `W`. -/
theorem phaseLegal_of_move {p : Config.Params} {o o' : Oscillator} (hmove : OscillatorMove p o o')
    (hlegal : PhaseLegal o) : PhaseLegal o' := by
  cases hmove with
  | kept => exact hlegal
  | setDt v => exact hlegal
  | tick ht => exact phaseLegal_of_oscillatorTick ht
  | rowAdvance => exact hlegal
  | reset _ =>
    exact rowAdvances_induct (P := PhaseLegal) (fun _ h => h) _ (phaseLegal_cleared _)

/-- Settles O34: a step is one of the moves of `step_stepMove`, and each leaves the phase legal. -/
theorem everyStepKeepsPhaseLegal : Obligations.EveryStepKeepsPhaseLegal :=
  fun _ _ hlegal ht => phaseLegal_of_move (step_stepMove ht).oscillator hlegal

end Sys2Proof.Machine
end

section
/-! R34: the shared edges. Each procedure that breaks an edge at the boundary cell of the cycle ends
with a splice, and a splice of `W` leaves the shared edges wherever every other cell has the left
corners of its in-row neighbour (`sharedEdges_splice`). -/

namespace Sys2Proof.Machine

/-- The right corners of cell `c` are the left corners of cell `d` (R34). -/
def RightOf (g : Grid) (c d : Fin 32) : Prop := g[c].LR = g[d].LL ∧ g[c].UR = g[d].UL

theorem sharedEdges_iff {W : Nat} {g : Grid} :
    SharedEdges W g ↔ ∀ c, RightOf g c (nextCell W c) := Iff.rfl

theorem nextCell_boundary {W : Nat} {c : Fin 32} (h : c.val + 1 = W) : nextCell W c = 0 := if_pos h

theorem nextCell_inner {W : Nat} {c : Fin 32} (h : c.val + 1 ≠ W) :
    nextCell W c = cellIdx (c.val + 1) := if_neg h

/-- The boundary cell of a cycle of length `W`. -/
theorem eq_cellIdx_pred_iff {W : Nat} (hlow : 2 ≤ W) (hhigh : W ≤ 32) (c : Fin 32) :
    c = cellIdx (W - 1) ↔ c.val + 1 = W := by
  rw [Fin.ext_iff, cellIdx_of_lt (by omega)]; omega

theorem rightOf_copyRight_self (c d : Fin 32) (g : Grid) : RightOf (copyRight c d g) c d := by
  obtain ⟨hLL, hUL⟩ := copyRight_left c d d g
  rw [RightOf, hLL, hUL, copyRight_getElem, if_pos rfl]
  exact ⟨rfl, rfl⟩

theorem rightOf_copyRight_of_ne {c d e f : Fin 32} {g : Grid} (hne : e ≠ c) (h : RightOf g e f) :
    RightOf (copyRight c d g) e f := by
  obtain ⟨hLL, hUL⟩ := copyRight_left c d f g
  rw [RightOf, hLL, hUL, copyRight_getElem, if_neg hne]
  exact h

theorem rightOf_recomputeRight (g : Grid) (c : Fin 32) :
    RightOf (recomputeRight g) c (cellIdx (c.val + 1)) := by
  simp only [RightOf, recomputeRight_getElem, withRightOf_LL, withRightOf_UL, withRightOf_LR,
    withRightOf_UR, and_self]

/-- A splice makes the boundary cell share its edge, so the other cells decide. -/
theorem sharedEdges_splice {W : Nat} (hlow : 2 ≤ W) (hhigh : W ≤ 32) {g : Grid}
    (h : ∀ c : Fin 32, c.val + 1 ≠ W → RightOf g c (cellIdx (c.val + 1))) :
    SharedEdges W (splice W g) := by
  rw [sharedEdges_iff]
  intro c
  have hboundary := eq_cellIdx_pred_iff hlow hhigh c
  by_cases hc : c.val + 1 = W
  · rw [nextCell_boundary hc, splice, ← hboundary.2 hc]
    exact rightOf_copyRight_self c 0 g
  · rw [nextCell_inner hc]
    exact rightOf_copyRight_of_ne (hboundary.not.2 hc) (h c hc)

theorem rightOf_of_sharedEdges {W : Nat} {g : Grid} (h : SharedEdges W g) {c : Fin 32}
    (hc : c.val + 1 ≠ W) : RightOf g c (cellIdx (c.val + 1)) :=
  nextCell_inner hc ▸ h c

/-- R104: a length edit gives the old boundary cell its in-row neighbour back and splices at the new
length. -/
theorem sharedEdges_lengthEdit {Wold Wnew : Nat} (hlow : 2 ≤ Wold) (hhigh : Wold ≤ 32)
    (hlow' : 2 ≤ Wnew) (hhigh' : Wnew ≤ 32) {g : Grid} (h : SharedEdges Wold g) :
    SharedEdges Wnew (lengthEdit Wold Wnew g) := by
  refine sharedEdges_splice hlow' hhigh' fun c _ => ?_
  have hboundary := eq_cellIdx_pred_iff hlow hhigh c
  by_cases hc : c.val + 1 = Wold
  · rw [← hboundary.2 hc, hc]
    exact rightOf_copyRight_self c (cellIdx Wold) g
  · exact rightOf_copyRight_of_ne (hboundary.not.2 hc) (rightOf_of_sharedEdges h hc)

/-- R103 with `RESEAM_ON_ROW_ADVANCE`: whatever the grid was, a row advance leaves the shared edges. At
`W = 32` the in-row neighbour of the boundary cell is cell 0 already. -/
theorem sharedEdges_rowAdvanceGrid {p : Config.Params} (hp : p.reseamOnRowAdvance = true) {W : Nat}
    (hlow : 2 ≤ W) (hhigh : W ≤ 32) (l : Seed) (g : Grid) :
    SharedEdges W (rowAdvanceGrid p W l g) := by
  have hrow := rightOf_recomputeRight (shiftedGrid (genRow p.sineLut l) g)
  unfold rowAdvanceGrid
  by_cases hW : W < 32
  · simp only [hp, hW, decide_true, Bool.and_self, if_true]
    exact sharedEdges_splice hlow hhigh fun c _ => hrow c
  · obtain rfl : W = 32 := by omega
    have hnext : ∀ c, nextCell 32 c = cellIdx (c.val + 1) := by decide
    simp only [hp, hW, decide_false, Bool.and_false, Bool.false_eq_true, if_false]
    rw [sharedEdges_iff]
    exact fun c => hnext c ▸ hrow c

/-- The shared-edge invariant of an engine, with the range of `W` that it needs. -/
def EdgesLegal (o : Oscillator) : Prop := 2 ≤ o.W ∧ o.W ≤ 32 ∧ SharedEdges o.W o.cell

theorem edgesLegal_invariant {p : Config.Params} (hp : p.reseamOnRowAdvance = true) :
    OscillatorInvariant p EdgesLegal where
  registers _ _ _ _ h := h
  editLength o Wn hlow' hhigh' h := by
    obtain ⟨hlow, hhigh, hedges⟩ := h
    refine ⟨hlow', hhigh', ?_⟩
    rw [editLength_W, editLength_cell]
    split
    · exact sharedEdges_lengthEdit hlow hhigh hlow' hhigh' hedges
    · next hW => rw [not_not.1 hW]; exact hedges
  wrapSplice o h := by
    obtain ⟨hlow, hhigh, hedges⟩ := h
    refine ⟨hlow, hhigh, ?_⟩
    rw [wrapSplice_W, wrapSplice_cell]
    split
    · exact sharedEdges_splice hlow hhigh fun _ hc => rightOf_of_sharedEdges hedges hc
    · exact hedges
  rowAdvance o h := by
    obtain ⟨hlow, hhigh, -⟩ := h
    exact ⟨hlow, hhigh, sharedEdges_rowAdvanceGrid hp hlow hhigh _ _⟩
  cleared seed _ := by
    rw [EdgesLegal, cleared_W, cleared_cell]
    refine ⟨by decide, by decide, fun c => ?_⟩
    simp only [Fin.getElem_fin, Vector.getElem_replicate]
    exact ⟨rfl, rfl⟩

/-- Settles O36: the shared edges with the range of `W` are an invariant of the engine. -/
theorem everyStepKeepsSharedEdges : Obligations.EveryStepKeepsSharedEdges := by
  intro s t hp hlow hhigh hedges ht
  obtain ⟨-, -, hkept⟩ := (edgesLegal_invariant hp).step ht ⟨hlow, hhigh, hedges⟩
  exact hkept

end Sys2Proof.Machine
end

section
/-! R35, R36: the lanes stay non-zero. -/

namespace Sys2Proof.Machine

/-- R94: only 0 steps to 0. With bit 15 set, the tap mask sets bit 0; otherwise the shift loses no
bit. -/
theorem lfsrStep_ne_zero {v : Lane} (hv : v ≠ 0#16) : lfsrStep v ≠ 0#16 := by
  intro hzero
  unfold lfsrStep at hzero
  split at hzero
  · have hbit : ((v <<< 1) ^^^ tapMask).getLsbD 0 = true := by
      rw [BitVec.getLsbD_xor, BitVec.getLsbD_shiftLeft]; rfl
    rw [hzero] at hbit
    cases hbit
  · next htop =>
    refine hv (BitVec.eq_of_getLsbD_eq fun i hi => ?_)
    obtain hlast | hlow : i = 15 ∨ i + 1 < 16 := by omega
    · simpa [hlast] using htop
    · have hbit : (v <<< 1).getLsbD (i + 1) = v.getLsbD i := by
        rw [BitVec.getLsbD_shiftLeft]; simp [hlow]
      rw [← hbit, hzero]
      simp

theorem lfsrSteps_ne_zero (n : Nat) {v : Lane} (hv : v ≠ 0#16) : lfsrSteps n v ≠ 0#16 := by
  induction n generalizing v with
  | zero => exact hv
  | succ n ih => exact ih (lfsrStep_ne_zero hv)

theorem lanesNonzero_genRowLanes {l : Seed} (h : LanesNonzero l) : LanesNonzero (genRowLanes l) := by
  intro j
  rw [genRowLanes, lanesSteps_getElem]
  exact lfsrSteps_ne_zero 32 (h j)

/-- An admitted seed has no zero lane (R101). -/
theorem lanesNonzero_of_seedAdmitted {seed : Seed} (h : seedAdmitted seed = true) :
    LanesNonzero seed := by
  intro j
  rw [seedAdmitted, List.all_eq_true] at h
  simpa using h seed[j] (Vector.mem_toList_iff.2 (Vector.getElem_mem j.isLt))

theorem lanesNonzero_invariant (p : Config.Params) :
    OscillatorInvariant p fun o => LanesNonzero o.lfsr where
  registers _ _ _ _ h := h
  editLength _ _ _ _ h := h
  wrapSplice _ h := h
  rowAdvance _ h := lanesNonzero_genRowLanes h
  cleared _ hseed := lanesNonzero_of_seedAdmitted hseed

/-- Settles O35: only a row advance and a reset write the lanes. -/
theorem everyStepKeepsLanesNonzero : Obligations.EveryStepKeepsLanesNonzero :=
  fun s _ hlanes ht => (lanesNonzero_invariant s.params).step ht hlanes

end Sys2Proof.Machine
end

section
/-! R32, R97: the cell values stay in [-1, 1]. Every vertex the procedures write is copied from the grid
or read from the table. -/

namespace Sys2Proof.Machine

def VertexInUnit (v : Vertex) : Prop := ∀ m : Comp, InUnit (vertexComp v m)

/-- The vertices of a cell, corner by corner. -/
structure CellInUnit (c : Cell) : Prop where
  LL : VertexInUnit c.LL
  LR : VertexInUnit c.LR
  UL : VertexInUnit c.UL
  UR : VertexInUnit c.UR

theorem cellsInUnit_iff {g : Grid} : CellsInUnit g ↔ ∀ c : Fin 32, CellInUnit g[c] := by
  constructor
  · exact fun h c => ⟨h c .LL, h c .LR, h c .UL, h c .UR⟩
  · intro h c k
    obtain ⟨hLL, hLR, hUL, hUR⟩ := h c
    cases k with
    | LL => exact hLL
    | LR => exact hLR
    | UL => exact hUL
    | UR => exact hUR

theorem vertexInUnit_zeroVertex : VertexInUnit zeroVertex := by
  have hzero : InUnit posZero := by decide
  intro m
  cases m <;> exact hzero

theorem cellInUnit_withRightOf {c d : Cell} (hc : CellInUnit c) (hd : CellInUnit d) :
    CellInUnit (withRightOf c d) := ⟨hc.LL, hd.LL, hc.UL, hd.UL⟩

theorem cellsInUnit_copyRight {g : Grid} (h : CellsInUnit g) (c d : Fin 32) :
    CellsInUnit (copyRight c d g) := by
  rw [cellsInUnit_iff] at h ⊢
  intro e
  rw [copyRight_getElem]
  split
  · exact cellInUnit_withRightOf (h c) (h d)
  · exact h e

theorem vertexInUnit_genRow {t : Config.SineLut} (ht : TableLegal t) (l : Seed) (c : Fin 32) :
    VertexInUnit (genRow t l)[c] := by
  intro m
  rw [genRow_getElem]
  cases m with
  | X => exact ht _
  | Y => exact ht _

theorem cellsInUnit_shiftedGrid {nv : Vector Vertex 32} (hnv : ∀ c : Fin 32, VertexInUnit nv[c])
    {g : Grid} (h : CellsInUnit g) : CellsInUnit (shiftedGrid nv g) := by
  rw [cellsInUnit_iff] at h ⊢
  intro c
  rw [shiftedGrid_getElem]
  exact ⟨(h c).UL, (h c).UR, hnv c, (h c).UR⟩

theorem cellsInUnit_recomputeRight {g : Grid} (h : CellsInUnit g) :
    CellsInUnit (recomputeRight g) := by
  rw [cellsInUnit_iff] at h ⊢
  intro c
  rw [recomputeRight_getElem]
  exact cellInUnit_withRightOf (h c) (h _)

theorem cellsInUnit_rowAdvanceGrid {p : Config.Params} (ht : TableLegal p.sineLut) (W : Nat)
    (l : Seed) {g : Grid} (h : CellsInUnit g) : CellsInUnit (rowAdvanceGrid p W l g) := by
  have hrow := cellsInUnit_recomputeRight (cellsInUnit_shiftedGrid (vertexInUnit_genRow ht l) h)
  unfold rowAdvanceGrid
  dsimp only
  split
  · exact cellsInUnit_copyRight hrow _ _
  · exact hrow

theorem cellsInUnit_invariant {p : Config.Params} (ht : TableLegal p.sineLut) :
    OscillatorInvariant p fun o => CellsInUnit o.cell where
  registers _ _ _ _ h := h
  editLength o Wn _ _ h := by
    rw [editLength_cell]
    split
    · exact cellsInUnit_copyRight (cellsInUnit_copyRight h _ _) _ _
    · exact h
  wrapSplice o h := by
    rw [wrapSplice_cell]
    split
    · exact cellsInUnit_copyRight h _ _
    · exact h
  rowAdvance o h := cellsInUnit_rowAdvanceGrid ht o.W o.lfsr h
  cleared seed _ := by
    rw [cellsInUnit_iff]
    intro c
    have hzero := vertexInUnit_zeroVertex
    simp only [cleared_cell, Fin.getElem_fin, Vector.getElem_replicate]
    exact ⟨hzero, hzero, hzero, hzero⟩

/-- Settles O37: with a legal table, cell values in [-1, 1] are an invariant of the engine. -/
theorem everyStepKeepsCellsInUnit : Obligations.EveryStepKeepsCellsInUnit :=
  fun _ _ htable hcells ht => (cellsInUnit_invariant htable).step ht hcells

end Sys2Proof.Machine
end

section
/-! R27, R39, R9: the staging counter, `y` and the parameters. -/

namespace Sys2Proof.Machine

theorem CountMove.le_257 {n n' : Nat} (h : CountMove n n') (hn : n ≤ 257) : n' ≤ 257 := by
  cases h with
  | kept => exact hn
  | push => rw [stageCntAfterPush]; split <;> omega
  | clear => exact Nat.zero_le _

/-- No procedure but the reset writes `y`, and the reset writes +0.0 (R39). -/
theorem yIsZero_invariant (p : Config.Params) : OscillatorInvariant p YIsZero where
  registers _ _ _ _ h := h
  editLength _ _ _ _ h := h
  wrapSplice _ h := h
  rowAdvance _ h := h
  cleared seed _ := cleared_y seed

/-- Settles O38, by the moves of `step_stepMove`. -/
theorem everyStepKeepsCountYAndParameters : Obligations.EveryStepKeepsCountYAndParameters := by
  intro s t ht
  have hmove := step_stepMove ht
  exact ⟨hmove.count.le_257, (yIsZero_invariant s.params).step ht, hmove.params⟩

end Sys2Proof.Machine
end

section
/-! R46: the byte serialisation of words, a word's four bytes at a time. -/

namespace Sys2Proof

/-- The one arithmetic fact of R46: a word is the positional value of its four bytes. -/
theorem ofNat_sum_of_wordBytes (w : Word) :
    BitVec.ofNat 32 ((BitVec.ofNat 8 w.toNat).toNat +
      (BitVec.ofNat 8 (w.toNat / 2 ^ 8)).toNat * 2 ^ 8 +
      (BitVec.ofNat 8 (w.toNat / 2 ^ 16)).toNat * 2 ^ 16 +
      (BitVec.ofNat 8 (w.toNat / 2 ^ 24)).toNat * 2 ^ 24) = w := by
  apply BitVec.eq_of_toNat_eq
  have hw := w.isLt
  simp only [BitVec.toNat_ofNat]
  omega

/-- A stream that begins with the bytes of `w` gives `w` first: in either order a byte is read with the
weight it was sent with. -/
theorem wordsOfBytes_wordBytes_append (o : Config.ByteOrder) (w : Word) (bs : List Byte) :
    wordsOfBytes o (wordBytes o w ++ bs) = w :: wordsOfBytes o bs := by
  cases o with
  | little =>
    simp only [wordBytes, List.cons_append, List.nil_append, wordsOfBytes, wordOfBytes,
      ofNat_sum_of_wordBytes]
  | big =>
    simp only [wordBytes, List.reverse_cons, List.reverse_nil, List.cons_append, List.nil_append,
      wordsOfBytes, wordOfBytes, ofNat_sum_of_wordBytes]

/-- Settles O32, by induction on the list of words sent. -/
theorem byteTransportKeepsWords : Obligations.ByteTransportKeepsWords := by
  intro o ws
  induction ws with
  | nil => rfl
  | cons w ws ih => rw [List.flatMap_cons, wordsOfBytes_wordBytes_append, ih]

end Sys2Proof
end

section
/-! R62 to R69: a command as its row, the number of its operand bits and its data word. The encoder
writes these three and the decoder reads them back. -/

namespace Sys2Proof

/-! ### The three parts of a command -/

/-- The row of a command (R65). -/
def Instr.opcode : Instr → Opcode
  | .nop => .nop
  | .mmSetc _ _ _ => .mmSetc
  | .mmGetc _ _ => .mmGetc
  | .mmSetci _ _ => .mmSetci
  | .mmGetci _ => .mmGetci
  | .mmBulkBegin => .mmBulkBegin
  | .mmBulkPush _ => .mmBulkPush
  | .mmBulkCommit => .mmBulkCommit
  | .mmRestoreCommit => .mmRestoreCommit
  | .mmSetInput _ _ => .mmSetInput
  | .mmTick _ _ => .mmTick
  | .mmGetOutput _ => .mmGetOutput
  | .goSetDt _ => .goSetDt
  | .goTick _ _ => .goTick
  | .goRowAdvance => .goRowAdvance
  | .goGetCell _ _ _ => .goGetCell
  | .goGetLfsr _ => .goGetLfsr
  | .goGetStatus _ => .goGetStatus

/-- The operand bits of a command word, as a number (R62, R64). -/
def Instr.operands : Instr → Nat
  | .mmSetc o i _ | .mmGetc o i => o * 2 ^ 8 + i
  | .mmSetci idx _ | .mmGetci idx => idx
  | .mmSetInput ch _ | .mmGetOutput ch => ch.val
  | .mmTick nin nout => nout * 2 ^ 5 + nin
  | .goTick len _ => bits16 len
  | .goGetCell c k m => c.val * 2 ^ 3 + cornerBits k * 2 + compBits m
  | .goGetLfsr j => j.val
  | .goGetStatus sel => sel
  | _ => 0

/-- The data word of a command (R63); the word 0, which the decoder puts in its place, when it has none. -/
def Instr.data : Instr → Word
  | .mmSetc _ _ v | .mmSetci _ v | .mmBulkPush v | .mmSetInput _ v | .goSetDt v | .goTick _ v => v
  | _ => 0

/-- The encoder writes the row with the operand bits, and the data word of a data-carrying row. -/
theorem encode_eq (i : Instr) :
    encode i = commandWord i.opcode i.operands ::
      if opcodeCarriesData i.opcode then [i.data] else [] := by
  cases i <;> rfl

theorem cornerBits_lt (k : Corner) : cornerBits k < 4 := by cases k <;> decide

theorem compBits_lt (m : Comp) : compBits m < 2 := by cases m <;> decide

theorem bits16_lt (k : Int) : bits16 k < 2 ^ 16 := by unfold bits16; omega

/-- The operands of a well-formed command fit the fields of its format. -/
theorem operands_lt {i : Instr} (h : WellFormed i) :
    i.operands < 2 ^ operandBits (opcodeFormat i.opcode) := by
  cases i with
  | goGetCell c k m =>
    have hk := cornerBits_lt k
    have hm := compBits_lt m
    simp only [Instr.operands, Instr.opcode, opcodeFormat, operandBits]
    omega
  | goTick len v => exact bits16_lt len
  | mmSetInput ch v => exact ch.isLt
  | mmGetOutput ch => exact ch.isLt
  | goGetLfsr j => exact j.isLt
  | _ =>
    simp only [WellFormed, Instr.wellFormed, Bool.and_eq_true, decide_eq_true_eq] at h
    simp only [Instr.operands, Instr.opcode, opcodeFormat, operandBits]
    omega

theorem operandBits_le (op : Opcode) : operandBits (opcodeFormat op) ≤ 26 := by cases op <;> decide

/-- The operands of a well-formed command lie below its opcode. -/
theorem operands_lt_opcodeField {i : Instr} (h : WellFormed i) : i.operands < 2 ^ 26 :=
  Nat.lt_of_lt_of_le (operands_lt h) (Nat.pow_le_pow_right (by decide) (operandBits_le _))

/-- A command without a data word has the one the decoder puts in its place. -/
theorem data_of_not_opcodeCarriesData {i : Instr} (h : opcodeCarriesData i.opcode = false) : i.data = 0 := by
  cases i with
  | mmSetc _ _ _ | mmSetci _ _ | mmBulkPush _ | mmSetInput _ _ | goSetDt _ | goTick _ _ => cases h
  | _ => rfl

/-! ### The decoder reads back what the encoder writes -/

/-- A field of the operand bits is what was put there: the opcode lies above it. -/
theorem field_commandWord (op : Opcode) {n lo width : Nat} (hn : n < 2 ^ 26) (hf : lo + width ≤ 26) :
    field (commandWord op n) lo width = n / 2 ^ lo % 2 ^ width := by
  obtain ⟨k, hk⟩ := Nat.exists_eq_add_of_le hf
  have hsplit : opcodeNumber op * 2 ^ 26 = 2 ^ lo * (2 ^ width * (opcodeNumber op * 2 ^ k)) := by
    rw [hk]; ring
  rw [field, commandWord_toNat op hn, hsplit, Nat.add_comm, Nat.add_mul_div_left _ _ (Nat.two_pow_pos lo),
    Nat.add_mul_mod_self_left]

theorem signed16_bits16 {k : Int} (hlo : -(2 ^ 15) ≤ k) (hhi : k < 2 ^ 15) : signed16 (bits16 k) = k := by
  unfold signed16 bits16
  split <;> omega

theorem bits16_signed16 {n : Nat} (h : n < 2 ^ 16) : bits16 (signed16 n) = n := by
  unfold signed16 bits16
  split <;> omega

theorem cornerOfBits_cornerBits (k : Corner) : cornerOfBits (cornerBits k) = k := by cases k <;> rfl

theorem cornerBits_cornerOfBits {n : Nat} (h : n < 4) : cornerBits (cornerOfBits n) = n := by
  interval_cases n <;> rfl

theorem compOfBits_compBits (m : Comp) : compOfBits (compBits m) = m := by cases m <;> rfl

theorem compBits_compOfBits {n : Nat} (h : n < 2) : compBits (compOfBits n) = n := by
  interval_cases n <;> rfl

/-- Every operand is read back from its own field (R62, R64). -/
theorem operandsOf_commandWord {i : Instr} (h : WellFormed i) :
    operandsOf i.opcode (commandWord i.opcode i.operands) i.data = i := by
  have hfield : ∀ {lo width : Nat}, lo + width ≤ 26 →
      field (commandWord i.opcode i.operands) lo width = i.operands / 2 ^ lo % 2 ^ width :=
    field_commandWord i.opcode (operands_lt_opcodeField h)
  cases i with
  | nop | mmBulkBegin | mmBulkPush _ | mmBulkCommit | mmRestoreCommit | goSetDt _ | goRowAdvance => rfl
  | mmSetc o i _ | mmGetc o i =>
    simp only [WellFormed, Instr.wellFormed, Bool.and_eq_true, decide_eq_true_eq] at h
    simp only [Instr.opcode, Instr.operands, operandsOf] at hfield ⊢
    have hOut : (o * 2 ^ 8 + i) / 2 ^ 8 % 2 ^ 8 = o := by omega
    have hIn : (o * 2 ^ 8 + i) / 2 ^ 0 % 2 ^ 8 = i := by omega
    simp only [hfield, Nat.reduceAdd, Nat.reduceLeDiff, hOut, hIn, Instr.data]
  | mmTick nin nout =>
    simp only [WellFormed, Instr.wellFormed, Bool.and_eq_true, decide_eq_true_eq] at h
    simp only [Instr.opcode, Instr.operands, operandsOf] at hfield ⊢
    have hNin : (nout * 2 ^ 5 + nin) / 2 ^ 0 % 2 ^ 5 = nin := by omega
    have hNout : (nout * 2 ^ 5 + nin) / 2 ^ 5 % 2 ^ 5 = nout := by omega
    simp only [hfield, Nat.reduceAdd, Nat.reduceLeDiff, hNin, hNout]
  | goGetCell c k m =>
    simp only [Instr.opcode, Instr.operands, operandsOf] at hfield ⊢
    have hk := cornerBits_lt k
    have hm := compBits_lt m
    have hCell : (c.val * 2 ^ 3 + cornerBits k * 2 + compBits m) / 2 ^ 3 % 2 ^ 5 = c.val := by omega
    have hCorner : (c.val * 2 ^ 3 + cornerBits k * 2 + compBits m) / 2 ^ 1 % 2 ^ 2 = cornerBits k := by
      omega
    have hComp : (c.val * 2 ^ 3 + cornerBits k * 2 + compBits m) / 2 ^ 0 % 2 ^ 1 = compBits m := by
      omega
    simp only [hfield, Nat.reduceAdd, Nat.reduceLeDiff, hCell, hCorner, hComp, cornerOfBits_cornerBits,
      compOfBits_compBits]
  | goTick len _ =>
    simp only [WellFormed, Instr.wellFormed, Bool.and_eq_true, decide_eq_true_eq] at h
    simp only [Instr.opcode, Instr.operands, operandsOf] at hfield ⊢
    obtain ⟨hlo, hhi⟩ := h
    have hLen : bits16 len / 2 ^ 0 % 2 ^ 16 = bits16 len := by have := bits16_lt len; omega
    simp only [hfield, Nat.reduceAdd, Nat.reduceLeDiff, hLen, signed16_bits16 hlo hhi, Instr.data]
  | mmSetInput n _ | mmGetOutput n | goGetLfsr n =>
    simp only [Instr.opcode, Instr.operands, operandsOf] at hfield ⊢
    congr
    rw [hfield (by decide)]
    omega
  | mmSetci n _ | mmGetci n | goGetStatus n =>
    simp only [WellFormed, Instr.wellFormed, decide_eq_true_eq] at h
    simp only [Instr.opcode, Instr.operands, operandsOf] at hfield ⊢
    congr
    rw [hfield (by decide)]
    omega

/-- The command word of a well-formed command decodes, with its data word, to the command. -/
theorem decodeCommand_encode {i : Instr} (h : WellFormed i) :
    decodeCommand (commandWord i.opcode i.operands) i.data = .ok i := by
  rw [decodeCommand_commandWord i.opcode i.data (operands_lt h), operandsOf_commandWord h]

/-! ### A transaction off the front of a list of words (R60) -/

theorem decode_of_carriesData {w : Word} (h : carriesData w = true) (d : Word) (rest : List Word) :
    decode (w :: d :: rest) = decodedFrom w d rest := by
  simp only [decode, h, if_true]

theorem decode_of_not_carriesData {w : Word} (h : carriesData w = false) (rest : List Word) :
    decode (w :: rest) = decodedFrom w 0 rest := by
  cases rest <;> simp only [decode, h, Bool.false_eq_true, if_false]

theorem decodedFrom_ok {w d : Word} {i : Instr} (h : decodeCommand w d = .ok i) (rest : List Word) :
    decodedFrom w d rest = .command i rest := by
  rw [decodedFrom, h]

/-- Settles O28: the encoder writes the row, the operand bits and the data word, and the decoder reads
each of the three back. -/
theorem decodeOfEncodeIsTheCommand : Obligations.DecodeOfEncodeIsTheCommand := by
  intro i rest h
  have hcommand := decodeCommand_encode h
  have hcarries : carriesData (commandWord i.opcode i.operands) = opcodeCarriesData i.opcode :=
    carriesData_of_opcField (opcodeOfNumber_commandWord i.opcode (operands_lt_opcodeField h))
  rw [encode_eq]
  cases hc : opcodeCarriesData i.opcode with
  | true => exact (decode_of_carriesData (hcarries.trans hc) _ _).trans (decodedFrom_ok hcommand rest)
  | false =>
    rw [data_of_not_opcodeCarriesData hc] at hcommand
    exact (decode_of_not_carriesData (hcarries.trans hc) _).trans (decodedFrom_ok hcommand rest)

/-! ### The rows a word belongs to (R65, R69) -/

/-- A word of a row is the row's command word with its low bits as the operands (R62). -/
theorem commandWord_of_matches {op : Opcode} {w : Word} (h : w &&& maskWord op = matchWord op) :
    commandWord op (w.toNat % 2 ^ operandBits (opcodeFormat op)) = w := by
  rw [matches_iff] at h
  rw [commandWord, ← h, Nat.div_add_mod', BitVec.ofNat_toNat, BitVec.setWidth_eq]

theorem opcodeOfNumber_of_matches {op : Opcode} {w : Word} (h : w &&& maskWord op = matchWord op) :
    opcodeOfNumber (opcField w) = some op := by
  have hlt : w.toNat % 2 ^ operandBits (opcodeFormat op) < 2 ^ 26 :=
    Nat.lt_of_lt_of_le (Nat.mod_lt _ (Nat.two_pow_pos _))
      (Nat.pow_le_pow_right (by decide) (operandBits_le op))
  rw [← commandWord_of_matches h, opcodeOfNumber_commandWord op hlt]

/-- WHAT THE DECODER ACCEPTS: the words of a row, each as that row's command (R65, R66). -/
theorem decodeCommand_eq_ok {w d : Word} {i : Instr} :
    decodeCommand w d = .ok i ↔ ∃ op, w &&& maskWord op = matchWord op ∧ operandsOf op w d = i := by
  constructor
  · intro h
    cases hop : opcodeOfNumber (opcField w) with
    | none => rw [decodeCommand_of_unassigned hop] at h; cases h
    | some op =>
      by_cases hm : w &&& maskWord op = matchWord op
      · rw [decodeCommand_of_matches hop hm] at h
        exact ⟨op, hm, Except.ok.inj h⟩
      · rw [decodeCommand_of_not_matches hop hm] at h; cases h
  · rintro ⟨op, hm, rfl⟩
    exact decodeCommand_of_matches (opcodeOfNumber_of_matches hm) hm

/-- Settles O30: the rows that match a word all have its opcode field, so there is at most one; the
decoder gives that row's command, and refuses a word of no row. -/
theorem everyWordIsOneRowOrIllegal : Obligations.EveryWordIsOneRowOrIllegal := by
  intro w d
  by_cases hrow : ∃ op, w &&& maskWord op = matchWord op
  · obtain ⟨op, hm⟩ := hrow
    refine .inl ⟨op, fun op' => ⟨fun hm' => ?_, fun hop => hop ▸ hm⟩, decodeCommand_eq_ok.2 ⟨op, hm, rfl⟩⟩
    exact Option.some.inj ((opcodeOfNumber_of_matches hm').symm.trans (opcodeOfNumber_of_matches hm))
  · refine .inr ⟨not_exists.1 hrow, ?_⟩
    cases hdecode : decodeCommand w d with
    | error e => exact ⟨e, rfl⟩
    | ok i =>
      obtain ⟨op, hm, _⟩ := decodeCommand_eq_ok.1 hdecode
      exact absurd ⟨op, hm⟩ hrow

/-! ### The encoder writes back what the decoder reads -/

theorem operandsOf_opcode (op : Opcode) (w d : Word) : (operandsOf op w d).opcode = op := by
  cases op <;> rfl

theorem operandsOf_data {op : Opcode} (h : opcodeCarriesData op = true) (w d : Word) :
    (operandsOf op w d).data = d := by
  cases op with
  | mmSetc | mmSetci | mmBulkPush | mmSetInput | goSetDt | goTick => rfl
  | _ => cases h

theorem field_lt (w : Word) (lo width : Nat) : field w lo width < 2 ^ width :=
  Nat.mod_lt _ (Nat.two_pow_pos width)

/-- What the decoder gives fits the fields it was read from. -/
theorem operandsOf_wellFormed (op : Opcode) (w d : Word) : WellFormed (operandsOf op w d) := by
  cases op with
  | mmSetc | mmGetc | mmTick =>
    simp only [operandsOf, WellFormed, Instr.wellFormed, Bool.and_eq_true, decide_eq_true_eq]
    exact ⟨field_lt w _ _, field_lt w _ _⟩
  | mmSetci | mmGetci | goGetStatus =>
    simp only [operandsOf, WellFormed, Instr.wellFormed, decide_eq_true_eq]
    exact field_lt w _ _
  | goTick =>
    have h := field_lt w 0 16
    simp only [operandsOf, WellFormed, Instr.wellFormed, Bool.and_eq_true, decide_eq_true_eq, signed16]
    split <;> omega
  | _ => rfl

/-- The operand bits of a row's command are the low bits of its word. -/
theorem operandsOf_operands (op : Opcode) (w d : Word) :
    (operandsOf op w d).operands = w.toNat % 2 ^ operandBits (opcodeFormat op) := by
  cases op with
  | goTick =>
    simp only [operandsOf, Instr.operands, bits16_signed16 (field_lt w 0 16)]
    simp only [field, opcodeFormat, operandBits]
    omega
  | goGetCell =>
    simp only [operandsOf, Instr.operands, cornerBits_cornerOfBits (field_lt w 1 2),
      compBits_compOfBits (field_lt w 0 1)]
    simp only [field, opcodeFormat, operandBits]
    omega
  | _ =>
    simp only [operandsOf, Instr.operands, field, opcodeFormat, operandBits]
    omega

/-- Settles O29: what the decoder reads from a word of a row has that row, the word's low bits as its
operands and the data word, and these are what the encoder writes. -/
theorem encodeOfDecodeIsTheWords : Obligations.EncodeOfDecodeIsTheWords := by
  intro w d i hdecode
  obtain ⟨op, hm, rfl⟩ := decodeCommand_eq_ok.1 hdecode
  refine ⟨operandsOf_wellFormed op w d, ?_⟩
  rw [encode_eq, operandsOf_opcode, operandsOf_operands, commandWord_of_matches hm,
    carriesData_of_opcField (opcodeOfNumber_of_matches hm)]
  cases hc : opcodeCarriesData op with
  | true => rw [operandsOf_data hc]; rfl
  | false => rfl

/-- Settles O31: the row of an opcode number is the one with that number, and six rows carry data. -/
theorem dataWordDecidedByOpcodeField : Obligations.DataWordDecidedByOpcodeField := by
  intro w
  rw [carriesData, opcField]
  generalize w.toNat / 2 ^ 26 = n
  constructor
  · cases hop : opcodeOfNumber n with
    | none => simp
    | some op =>
      rw [← opcodeNumber_of_opcodeOfNumber hop]
      cases op <;> decide
  · rintro (rfl | rfl | rfl | rfl | rfl | rfl) <;> rfl

end Sys2Proof
end

section
/-! R60, R54: the next transaction of the port, and the step that runs it. -/

namespace Sys2Proof.Machine

theorem fetch_of_carriesData {w : Word} (h : carriesData w = true) (d : Word) (rest : List PortItem) :
    fetch (.word w :: .word d :: rest) = .transaction [w, d] rest := by
  simp only [fetch, h, if_true]

theorem fetch_of_not_carriesData {w : Word} (h : carriesData w = false) (rest : List PortItem) :
    fetch (.word w :: rest) = .transaction [w] rest := by
  cases rest <;> simp only [fetch, h, Bool.false_eq_true, if_false]

theorem step_of_command {s : State} {ws rest' : List Word} {rest : List PortItem} {i : Instr}
    (hf : fetch s.port = .transaction ws rest) (hd : decode ws = .command i rest') :
    step s = exec i (takePort rest s) := by
  simp only [step, hf, hd]

/-- Settles O21: the port's front is one transaction, and it decodes to the command. -/
theorem stepRunsTheDecodedCommand : Obligations.StepRunsTheDecodedCommand := by
  constructor
  · intro s w d rest i hc hd hport
    exact step_of_command (hport ▸ fetch_of_carriesData hc d rest)
      ((decode_of_carriesData hc d []).trans (decodedFrom_ok hd []))
  · intro s w rest i hc hd hport
    exact step_of_command (hport ▸ fetch_of_not_carriesData hc rest)
      ((decode_of_not_carriesData hc []).trans (decodedFrom_ok hd []))

end Sys2Proof.Machine
end

section
/-! R65: the mnemonics, the match and the mask of the rows. -/

namespace Sys2Proof.Machine

theorem opcodeOfName_of_mem {name : String} {op : Opcode} (h : (name, op) ∈ opcodeNames) :
    opcodeOfName name.toList = some op := by
  have hlookup : ∀ row ∈ opcodeNames, opcodeNames.lookup row.1 = some row.2 := by decide
  rw [opcodeOfName, String.ofList_toList]
  exact hlookup _ h

/-- Settles O26: the names are the rows of `opcodeNames`, and the words are computed row by row. -/
theorem opcodeTableMatchAndMask : Obligations.OpcodeTableMatchAndMask := by
  intro r hr
  have hname : (r.2.1, r.1) ∈ opcodeNames := List.mem_map_of_mem (f := fun r => (r.2.1, r.1)) hr
  refine ⟨opcodeOfName_of_mem hname, ?_⟩
  clear hname
  revert r
  decide

end Sys2Proof.Machine
end

section
/-! R71: the expansions of `MM_BULK_REPLACE`, `MM_RESTORE`, `MM_CLEAR` and `MM_SET_INPUTS`. -/

namespace Sys2Proof.Machine

/-! ### The pushes leave the rest of the machine as it was -/

/-- A list of pushes writes the staging buffer and its counter only. -/
theorem pushAll_frame (vs : List Word) (m : Mixer) :
    (pushAll vs m).coeff = m.coeff ∧ (pushAll vs m).inReg = m.inReg ∧
      (pushAll vs m).outReg = m.outReg ∧ (pushAll vs m).acc = m.acc := by
  induction vs generalizing m with
  | nil => exact ⟨rfl, rfl, rfl, rfl⟩
  | cons v vs ih => exact ih (stagePush v m)

theorem oscillatorKept_staged (vs : List Word) (s : State) : OscillatorKept s (staged vs s) := ⟨rfl, rfl⟩

theorem channelsKept_staged (vs : List Word) (s : State) : ChannelsKept s (staged vs s) := by
  obtain ⟨-, hin, hout, hacc⟩ := pushAll_frame vs (stageClear s.mm)
  exact ⟨hin, hout, hacc, rfl⟩

theorem tableKept_staged (vs : List Word) (s : State) : TableKept s (staged vs s) := by
  obtain ⟨hcoeff, -⟩ := pushAll_frame vs (stageClear s.mm)
  intro k
  exact congrArg (·[k]) hcoeff

/-! ### MM_BULK_REPLACE, MM_RESTORE, MM_CLEAR -/

/-- Settles O50: before the commit 256 values stand staged with the count 256, and any other number
leaves another count. -/
theorem bulkReplaceExpansionIsAllOrNothing : Obligations.BulkReplaceExpansionIsAllOrNothing := by
  intro s vs
  have hcnt := staged_stageCnt vs s
  by_cases hlen : vs.length = 256
  · refine ⟨_, respond .ok posZero { staged vs s with mm := stageClear (bulkCopy (staged vs s).mm) }, rfl,
      ?_, rfl, oscillatorKept_staged vs s, channelsKept_staged vs s, ?_⟩
    · rw [execAll_staged]
      exact execAll_cons (exec_mmBulkCommit_accepted (by rw [hcnt, hlen]; rfl))
    · rw [if_pos hlen]
      refine ⟨fun k => ?_, rfl⟩
      have hk : k.val < vs.length := by rw [hlen]; exact k.isLt
      have hv := List.getElem?_eq_getElem hk
      rw [respond_mm, coefRead_stageClear, coefRead_bulkCopy, staged_stage_getElem s hv, hv]
  · refine ⟨_, respond .malformedBulkInput posZero { staged vs s with mm := stageClear (staged vs s).mm },
      rfl, ?_, rfl, oscillatorKept_staged vs s, channelsKept_staged vs s, ?_⟩
    · rw [execAll_staged]
      exact execAll_cons (exec_mmBulkCommit_malformed (by omega))
    · rw [if_neg hlen]
      exact ⟨tableKept_staged vs s, rfl⟩

/-- What a restore of `vs` puts at index `k`: the value staged there, or +0.0 past the end (R83). -/
theorem coefRead_restoreCopy_staged (vs : List Word) (s : State) (k : Fin 256) :
    coefRead (restoreCopy (staged vs s).mm) k = (vs[k.val]?).getD posZero := by
  rw [coefRead_restoreCopy, staged_stageCnt, restoreLength]
  have hk := k.isLt
  by_cases hlen : k.val < vs.length
  · have hv := List.getElem?_eq_getElem hlen
    rw [if_pos (by omega), staged_stage_getElem s hv, hv, Option.getD_some]
  · rw [if_neg (by omega), List.getElem?_eq_none (by omega), Option.getD_none]

/-- The commands of `MM_RESTORE`, whatever the number of values. -/
theorem execAll_restore (s : State) (vs : List Word) :
    ∃ t : State, execAll ([.mmBulkBegin] ++ vs.map .mmBulkPush ++ [.mmRestoreCommit]) s = .next t ∧
      t.mm.stageCnt = 0 ∧ OscillatorKept s t ∧ ChannelsKept s t ∧
      ∀ k : Fin 256, coefRead t.mm k = (vs[k.val]?).getD posZero := by
  have hcommit : exec .mmRestoreCommit (staged vs s) =
      done posZero { staged vs s with mm := stageClear (restoreCopy (staged vs s).mm) } := rfl
  rw [execAll_staged, execAll_cons hcommit]
  have hgo := oscillatorKept_staged vs s
  have hch := channelsKept_staged vs s
  refine ⟨_, rfl, ?_, ?_, ?_, fun k => ?_⟩
  · simp
  · simpa [OscillatorKept] using hgo
  · simpa [ChannelsKept] using hch
  · simpa using coefRead_restoreCopy_staged vs s k

/-! ### MM_SET_INPUTS -/

theorem setInputsFrom_cons {k : Nat} {v : Word} {vs : List Word} {is : List Instr} :
    setInputsFrom k (v :: vs) = some is ↔
      ∃ (ch : Fin 16) (rest : List Instr), k = ch.val ∧ setInputsFrom (k + 1) vs = some rest ∧
        is = .mmSetInput ch v :: rest := by
  simp only [setInputsFrom, ← channelOf_eq_some]
  cases channelOf k <;> cases setInputsFrom (k + 1) vs <;> simp [eq_comm]

/-- There is an expansion when every value has a channel left. -/
theorem setInputsFrom_of_length_le {k : Nat} {vs : List Word} (h : k + vs.length ≤ 16) :
    ∃ is, setInputsFrom k vs = some is := by
  induction vs generalizing k with
  | nil => exact ⟨[], rfl⟩
  | cons v vs ih =>
    rw [List.length_cons] at h
    obtain ⟨rest, hrest⟩ := ih (k := k + 1) (by omega)
    exact ⟨_, setInputsFrom_cons.2 ⟨⟨k, by omega⟩, rest, rfl, hrest, rfl⟩⟩

/-- A list with an expansion from `k` on fits the channels from `k` on. -/
theorem length_le_of_setInputsFrom {k : Nat} {vs : List Word} {is : List Instr} (hk : k ≤ 16)
    (h : setInputsFrom k vs = some is) : k + vs.length ≤ 16 := by
  induction vs generalizing k is with
  | nil => exact hk
  | cons v vs ih =>
    obtain ⟨ch, rest, hch, hrest, -⟩ := setInputsFrom_cons.1 h
    have := ih (by omega) hrest
    rw [List.length_cons]
    omega

theorem setInputsFrom_length {k : Nat} {vs : List Word} {is : List Instr}
    (h : setInputsFrom k vs = some is) : is.length = vs.length := by
  induction vs generalizing k is with
  | nil => cases h; rfl
  | cons v vs ih =>
    obtain ⟨ch, rest, -, hrest, rfl⟩ := setInputsFrom_cons.1 h
    rw [List.length_cons, List.length_cons, ih hrest]

/-- The command of channel `c` carries the value that stands `c - k` places into the list. -/
theorem setInputsFrom_getElem? {k : Nat} {vs : List Word} {is : List Instr} {c : Fin 16} {v : Word}
    (h : setInputsFrom k vs = some is) (hk : k ≤ c.val) (hv : vs[c.val - k]? = some v) :
    is[c.val - k]? = some (.mmSetInput c v) := by
  induction vs generalizing k is with
  | nil => simp at hv
  | cons u vs ih =>
    obtain ⟨ch, rest, hch, hrest, rfl⟩ := setInputsFrom_cons.1 h
    obtain heq | hlt := Nat.eq_or_lt_of_le hk
    · have hc : ch = c := Fin.ext (hch ▸ heq)
      have hfirst : c.val - k = 0 := by omega
      rw [hfirst, List.getElem?_cons_zero, Option.some.injEq] at hv
      rw [hfirst, List.getElem?_cons_zero, hc, hv]
    · have hlater : c.val - k = c.val - (k + 1) + 1 := by omega
      rw [hlater, List.getElem?_cons_succ] at hv ⊢
      exact ih hrest hlt hv

/-- The mixer after the values are written to the input registers from `k` on. -/
def inputsWritten (k : Nat) (vs : List Word) (m : Mixer) : Mixer :=
  { m with
    inReg := Vector.ofFn fun c : Fin 16 =>
      if k ≤ c.val then vs[c.val - k]?.getD m.inReg[c] else m.inReg[c] }

theorem inputsWritten_getElem (k : Nat) (vs : List Word) (m : Mixer) (c : Fin 16) :
    (inputsWritten k vs m).inReg[c] =
      if k ≤ c.val then vs[c.val - k]?.getD m.inReg[c] else m.inReg[c] := by
  simp only [inputsWritten, Fin.getElem_fin, Vector.getElem_ofFn]

@[simp] theorem inputsWritten_outReg (k : Nat) (vs : List Word) (m : Mixer) :
    (inputsWritten k vs m).outReg = m.outReg := rfl

@[simp] theorem inputsWritten_acc (k : Nat) (vs : List Word) (m : Mixer) :
    (inputsWritten k vs m).acc = m.acc := rfl

@[simp] theorem inputsWritten_stage (k : Nat) (vs : List Word) (m : Mixer) :
    (inputsWritten k vs m).stage = m.stage := rfl

@[simp] theorem inputsWritten_stageCnt (k : Nat) (vs : List Word) (m : Mixer) :
    (inputsWritten k vs m).stageCnt = m.stageCnt := rfl

@[simp] theorem coefRead_inputsWritten (k : Nat) (vs : List Word) (m : Mixer) (i : Fin 256) :
    coefRead (inputsWritten k vs m) i = coefRead m i := by
  rw [coefRead, coefRead, inputsWritten]

theorem vector_ext_fin {α : Type} {n : Nat} {a b : Vector α n} (h : ∀ c : Fin n, a[c] = b[c]) : a = b :=
  Vector.ext fun j hj => h ⟨j, hj⟩

theorem inputsWritten_nil (k : Nat) (m : Mixer) : inputsWritten k [] m = m := by
  have hregs : (inputsWritten k [] m).inReg = m.inReg :=
    vector_ext_fin fun c => by rw [inputsWritten_getElem]; simp
  exact congrArg (fun r => { m with inReg := r }) hregs

/-- The first value goes to channel `k`, the others from `k + 1` on. -/
theorem inputsWritten_cons (ch : Fin 16) (v : Word) (vs : List Word) (m : Mixer) :
    inputsWritten (ch.val + 1) vs (inputWrite ch v m) = inputsWritten ch.val (v :: vs) m := by
  have hregs : (inputsWritten (ch.val + 1) vs (inputWrite ch v m)).inReg =
      (inputsWritten ch.val (v :: vs) m).inReg := by
    refine vector_ext_fin fun c => ?_
    rw [inputsWritten_getElem, inputsWritten_getElem, inputWrite_getElem]
    obtain hlt | rfl | hgt := lt_trichotomy c ch
    · rw [if_neg (by omega), if_neg (by omega), if_neg (by omega)]
    · rw [if_neg (by omega), if_pos rfl, if_pos (Nat.le_refl _), Nat.sub_self]
      rfl
    · have hlater : c.val - ch.val = c.val - (ch.val + 1) + 1 := by omega
      rw [if_pos (by omega), if_neg (by omega), if_pos (by omega), hlater, List.getElem?_cons_succ]
  exact congrArg (fun r => { m with inReg := r }) hregs

theorem execAll_setInputsFrom {k : Nat} {vs : List Word} {is : List Instr}
    (h : setInputsFrom k vs = some is) (s : State) :
    execAll is s = .next { s with
      mm := inputsWritten k vs s.mm
      responses := List.replicate vs.length ⟨.ok, posZero⟩ ++ s.responses } := by
  induction vs generalizing k is s with
  | nil => cases h; rw [inputsWritten_nil]; rfl
  | cons v vs ih =>
    obtain ⟨ch, rest, rfl, hrest, rfl⟩ := setInputsFrom_cons.1 h
    have hset : exec (.mmSetInput ch v) s = done posZero { s with mm := inputWrite ch v s.mm } := rfl
    rw [execAll_cons hset, ih hrest, List.length_cons, List.replicate_succ', ← inputsWritten_cons]
    simp

/-- Settles O51: a restore and a clear are one `execAll_restore`, with the values and with none; the
inputs are written channel by channel. -/
theorem restoreExpansionPadsOrTruncates : Obligations.RestoreExpansionPadsOrTruncates := by
  refine ⟨fun s vs => ?_, fun s => ?_, fun s vs hlen => ?_, fun vs hlen => ?_⟩
  · obtain ⟨t, hrun⟩ := execAll_restore s vs
    exact ⟨_, t, rfl, hrun⟩
  · obtain ⟨t, hrun, hcnt, hgo, hch, hcoef⟩ := execAll_restore s []
    exact ⟨_, t, rfl, hrun, hcnt, hgo, hch, hcoef⟩
  · obtain ⟨is, his⟩ := setInputsFrom_of_length_le (k := 0) (vs := vs) (by omega)
    refine ⟨is, _, his, setInputsFrom_length his, fun k v => setInputsFrom_getElem? his (Nat.zero_le _),
      execAll_setInputsFrom his s, fun k => ?_, inputsWritten_outReg _ _ _, inputsWritten_acc _ _ _, rfl,
      coefRead_inputsWritten _ _ _, ⟨inputsWritten_stage _ _ _, inputsWritten_stageCnt _ _ _⟩, ⟨rfl, rfl⟩,
      ⟨rfl, rfl⟩, rfl⟩
    exact (inputsWritten_getElem 0 vs s.mm k).trans (if_pos (Nat.zero_le _))
  · rw [expand, Option.eq_none_iff_forall_ne_some]
    intro is his
    have := length_le_of_setInputsFrom (Nat.zero_le _) his
    omega

end Sys2Proof.Machine
end

section
/-! R11, R72: `roundSigned` rounds to nearest, ties to even. -/

namespace Sys2Proof.Machine

/-- `a` is at least as near to `v / d` as `b`, and where another `b` is as near, `r` is even. -/
def NearerOrEven (v : Int) (d : Nat) (a b : Int) (r : Nat) : Prop :=
  (v - a * d).natAbs ≤ (v - b * d).natAbs ∧
    ((v - a * d).natAbs = (v - b * d).natAbs → b ≠ a → r % 2 = 0)

theorem NearerOrEven.neg {v : Int} {d : Nat} {a b : Int} {r : Nat} (h : NearerOrEven v d a (-b) r) :
    NearerOrEven (-v) d (-a) b r := by
  have hdist : ∀ x : Int, (-v - x * d).natAbs = (v - -x * d).natAbs := fun x => by
    rw [← Int.natAbs_neg]; congr 1; ring
  rw [NearerOrEven, hdist, hdist, neg_neg]
  exact ⟨h.1, fun heq hne => h.2 heq (fun hb => hne (by rw [← hb, neg_neg]))⟩

/-! ### Rounding to a whole number, and to a multiple of a power of 2 -/

/-- A rounding is the quotient or one more, whichever is nearer, and even in the middle. -/
theorem roundHalfEven_eq_add (n d : Nat) :
    ∃ x, roundHalfEven n d = n / d + x ∧
      (x = 0 ∧ 2 * (n % d) < d ∨ x = 1 ∧ d < 2 * (n % d) ∨
        x ≤ 1 ∧ 2 * (n % d) = d ∧ (n / d + x) % 2 = 0) := by
  unfold roundHalfEven
  split
  · exact ⟨0, rfl, by omega⟩
  · split
    · exact ⟨1, rfl, by omega⟩
    · exact ⟨n / d % 2, rfl, by omega⟩

theorem roundHalfEven_nearest {n d : Nat} (hd : 0 < d) (t : Int) :
    NearerOrEven n d (roundHalfEven n d) t (roundHalfEven n d) := by
  obtain ⟨x, hround, hx⟩ := roundHalfEven_eq_add n d
  obtain ⟨j, rfl⟩ : ∃ j : Int, t = (n / d : Nat) + j := ⟨t - (n / d : Nat), by ring⟩
  have hdist : ∀ y : Int, (n : Int) - ((n / d : Nat) + y) * d = (n % d : Nat) - y * d := fun y => by
    have h : ((n / d * d + n % d : Nat) : Int) = n := by rw [Nat.div_add_mod']
    push_cast at h ⊢
    linear_combination -h
  have hmod := Nat.mod_lt n hd
  rw [hround, NearerOrEven, Nat.cast_add, hdist, hdist]
  have hj : j ≤ -1 ∧ j * d ≤ -d ∨ j = 0 ∧ j * d = 0 ∨ j = 1 ∧ j * d = d ∨ 2 ≤ j ∧ 2 * d ≤ j * d := by
    obtain h | rfl | rfl | h : j ≤ -1 ∨ j = 0 ∨ j = 1 ∨ 2 ≤ j := by omega
    · exact .inl ⟨h, by nlinarith⟩
    · simp
    · simp
    · exact .inr (.inr (.inr ⟨h, by nlinarith⟩))
  obtain rfl | rfl : x = 0 ∨ x = 1 := by omega
  · rw [Nat.cast_zero, zero_mul]
    omega
  · rw [Nat.cast_one, one_mul]
    omega

/-- A shift that drops bits starts 24 significant bits up. -/
theorem two_pow_le_div_of_roundShift_pos {n d : Nat} (h : 0 < roundShift n d) :
    2 ^ (23 + roundShift n d) ≤ n / d := by
  unfold roundShift at h ⊢
  have hne : n / d ≠ 0 := fun h0 => by rw [h0] at h; exact absurd h (by decide)
  rw [Nat.add_sub_cancel' (by omega)]
  exact Nat.log2_self_le hne

/-- `roundedValue` is the nearest of the quantities a 24-bit significand can hold: those that are no
multiple of the last place lie below `2^23` of it, and the quantity does not. -/
theorem roundedValue_nearest {n d m k : Nat} (hd : 0 < d) {y : Int} (hm : m < 2 ^ 24)
    (hy : y.natAbs = m * 2 ^ k) :
    NearerOrEven n d (roundedValue n d) y (roundHalfEven n (d * 2 ^ roundShift n d)) := by
  have hmultiple : ∀ t : Int, NearerOrEven n d (roundedValue n d) (t * (2 ^ roundShift n d : Nat))
      (roundHalfEven n (d * 2 ^ roundShift n d)) := by
    intro t
    obtain ⟨hle, heven⟩ := roundHalfEven_nearest (n := n) (Nat.mul_pos hd (Nat.two_pow_pos (roundShift n d))) t
    have hscale : ∀ a : Int, a * (d * 2 ^ roundShift n d : Nat) = a * (2 ^ roundShift n d : Nat) * d := by
      intro a; push_cast; ring
    rw [hscale, hscale] at hle heven
    rw [NearerOrEven, roundedValue, Nat.cast_mul]
    exact ⟨hle, fun heq hne => heven heq (fun ht => hne (by rw [ht]))⟩
  generalize hq : roundShift n d = q at hmultiple
  by_cases hk : q ≤ k
  · obtain ⟨t, ht⟩ : ((2 ^ q : Nat) : Int) ∣ y :=
      Int.natCast_dvd.2 (hy ▸ Dvd.dvd.mul_left (Nat.pow_dvd_pow 2 hk) m)
    rw [ht, mul_comm]
    exact hmultiple t
  · have hfits : m * 2 ^ k < 2 ^ 23 * 2 ^ q :=
      calc m * 2 ^ k < 2 ^ 24 * 2 ^ k := Nat.mul_lt_mul_of_pos_right hm (Nat.two_pow_pos k)
        _ = 2 ^ 23 * 2 ^ (k + 1) := by ring
        _ ≤ 2 ^ 23 * 2 ^ q := Nat.mul_le_mul_left _ (Nat.pow_le_pow_right (by decide) (by omega))
    have hlarge : 2 ^ 23 * 2 ^ q * d ≤ n := by
      rw [← Nat.le_div_iff_mul_le hd, ← Nat.pow_add, ← hq]
      exact two_pow_le_div_of_roundShift_pos (by omega)
    have hbelow : y * d < (2 ^ 23 : Nat) * (2 ^ q : Nat) * d := by
      apply mul_lt_mul_of_pos_right _ (by omega)
      rw [← Nat.cast_mul]
      omega
    obtain ⟨hle, -⟩ := hmultiple (2 ^ 23 : Nat)
    rw [NearerOrEven]
    generalize (roundedValue n d : Int) * d = a at hle ⊢
    have hlarge' : ((2 ^ 23 : Nat) : Int) * (2 ^ q : Nat) * d ≤ n := by exact_mod_cast hlarge
    omega

/-! ### Overflow (R72) -/

theorem roundHalfEven_le_iff {n d R : Nat} (hd : 0 < d) (hR : R % 2 = 1) :
    roundHalfEven n d ≤ R ↔ 2 * n < (2 * R + 1) * d := by
  obtain ⟨x, hround, hx⟩ := roundHalfEven_eq_add n d
  have hdiv := Nat.div_add_mod n d
  have hmod := Nat.mod_lt n hd
  have hbound : (2 * R + 1) * d = 2 * (d * R) + d := by ring
  rw [hround, hbound]
  obtain hlt | heq | hgt := Nat.lt_trichotomy (n / d) R
  · have hstep : d * (n / d) + d ≤ d * R := Nat.mul_le_mul_left d hlt
    omega
  · rw [heq] at hdiv hx ⊢
    omega
  · have hstep : d * R + d ≤ d * (n / d) := Nat.mul_le_mul_left d hgt
    omega

theorem div_lt_two_pow_roundShift (n d : Nat) : n / d < 2 ^ (24 + roundShift n d) :=
  Nat.lt_of_lt_of_le Nat.lt_log2_self (Nat.pow_le_pow_right (by decide) (by unfold roundShift; omega))

/-- A rounding is finite exactly below the bound half a unit above the greatest finite value. -/
theorem roundMag_lt_iff {n d : Nat} (hd : 0 < d) :
    roundMag n d < 0x7F800000 ↔ n < overflowBound * d := by
  have hdiv := div_lt_two_pow_roundShift n d
  have hpos := two_pow_le_div_of_roundShift_pos (n := n) (d := d)
  obtain ⟨hle, hge⟩ := roundHalfEven_shift_range (n := n) (d := d)
  have hmid := roundHalfEven_le_iff (n := n) (Nat.mul_pos hd (Nat.two_pow_pos (roundShift n d)))
    (by decide : (2 ^ 24 - 1) % 2 = 1)
  rw [roundMag]
  generalize roundHalfEven n (d * 2 ^ roundShift n d) = r at hle hge hmid ⊢
  generalize roundShift n d = q at hdiv hpos hge hmid ⊢
  obtain hlt | rfl | hgt := Nat.lt_trichotomy q 253
  · have hsmall : n / d < overflowBound :=
      calc n / d < 2 ^ (24 + q) := hdiv
        _ ≤ 2 ^ (24 + 252) := Nat.pow_le_pow_right (by decide) (by omega)
        _ = 2 ^ 24 * 2 ^ 252 := Nat.pow_add 2 24 252
        _ ≤ overflowBound := Nat.mul_le_mul_right _ (by decide)
    have := (Nat.div_lt_iff_lt_mul hd).1 hsmall
    omega
  · have hscale : (2 * (2 ^ 24 - 1) + 1) * (d * 2 ^ 253) = 2 * (overflowBound * d) := by
      unfold overflowBound; ring
    rw [hscale] at hmid
    omega
  · have hlarge : overflowBound ≤ n / d :=
      calc overflowBound ≤ 2 ^ 25 * 2 ^ 252 := Nat.mul_le_mul_right _ (by decide)
        _ ≤ 2 ^ 25 * 2 ^ (q - 2) := Nat.mul_le_mul_left _ (Nat.pow_le_pow_right (by decide) (by omega))
        _ = 2 ^ (23 + q) := by rw [← Nat.pow_add]; congr 1; omega
        _ ≤ n / d := hpos (by omega)
    have := (Nat.le_div_iff_mul_le hd).1 hlarge
    omega

/-! ### The rounding of a signed quantity -/

/-- A finite rounding of a magnitude, with a sign. -/
theorem nearerOrEven_withSign {n d : Nat} (hd : 0 < d) (neg : Bool) (hfin : roundMag n d < 0x7F800000)
    {w : Word} : NearerOrEven (if neg then -n else n) d (fVal (withSign neg (roundMag n d))) (fVal w)
      (withSign neg (roundMag n d)).toNat := by
  obtain ⟨m, k, hw, hm, -⟩ := fMag_form w
  have hval := fVal_withSign neg (P := roundMag n d) (by omega)
  rw [fMag_roundMag neg hfin] at hval
  have hparity : (withSign neg (roundMag n d)).toNat % 2 =
      roundHalfEven n (d * 2 ^ roundShift n d) % 2 := by
    rw [withSign_toNat neg _ (by omega)]
    unfold roundMag at hfin ⊢
    split <;> omega
  have hnear : ∀ y : Int, y.natAbs = fMag w →
      NearerOrEven n d (roundedValue n d) y (withSign neg (roundMag n d)).toNat := fun y hy => by
    rw [NearerOrEven, hparity]
    exact roundedValue_nearest hd hm (hy.trans hw)
  rw [hval]
  cases neg with
  | false => exact hnear _ (fVal_natAbs w)
  | true => exact (hnear _ (by rw [Int.natAbs_neg, fVal_natAbs])).neg

/-! ### The rounding of a signed quantity -/

theorem roundedFrom_roundSigned (zeroNeg : Bool) (v : Int) {d : Nat} (hd : 0 < d) :
    RoundedFrom (roundSigned zeroNeg v d) zeroNeg v d := by
  unfold RoundedFrom roundSigned
  by_cases h0 : v = 0
  · rw [if_pos h0, if_pos h0]; rfl
  rw [if_neg h0, if_neg h0]
  by_cases hover : overflowBound * d ≤ v.natAbs
  · have hinf : roundMag v.natAbs d = 0x7F800000 := by
      have := (roundMag_lt_iff hd).not.2 (Nat.not_lt.2 hover)
      have : roundMag v.natAbs d ≤ 0x7F800000 := Nat.min_le_right _ _
      omega
    rw [if_pos hover, hinf]
    by_cases hneg : v < 0
    · simp only [hneg, decide_true, if_true]; rfl
    · simp only [hneg, decide_false, if_false]; rfl
  · have hfin := (roundMag_lt_iff hd).2 (Nat.lt_of_not_le hover)
    have hsigned : (if decide (v < 0) then -(v.natAbs : Int) else v.natAbs) = v := by
      simp only [decide_eq_true_eq]
      split <;> omega
    rw [if_neg hover]
    refine ⟨isFinite_withSign _ _ hfin, fSign_withSign _ _ (by omega), fun w _ => ?_⟩
    have h := nearerOrEven_withSign hd (decide (v < 0)) hfin (w := w)
    rwa [hsigned] at h

end Sys2Proof.Machine
end

section
/-! R70, R71: what the assembler gives, how it reads the operands of a command, and the text of a line. -/

namespace Sys2Proof.Machine

/-! ### Values -/

theorem roundMag_zero {d : Nat} (hd : 0 < d) : roundMag 0 d = 0 := by
  have hshift : roundShift 0 d = 0 := by rw [roundShift, Nat.zero_div, Nat.log2_zero]
  rw [roundMag, hshift, Nat.pow_zero, Nat.mul_one, roundHalfEven_of_dvd hd (Nat.zero_mod d), Nat.zero_div]
  rfl

/-- A decimal literal is one rounding of its exact value (R70). -/
theorem ofDecimal_eq_roundSigned (neg : Bool) (digits : Nat) (e : Int) :
    ofDecimal neg digits e =
      roundSigned neg ((if neg then -1 else 1) * (digits * 10 ^ e.toNat * 2 ^ 149 : Nat))
        (10 ^ (-e).toNat) := by
  have hd : 0 < 10 ^ (-e).toNat := Nat.pow_pos (by decide)
  rw [ofDecimal, roundSigned]
  generalize digits * 10 ^ e.toNat * 2 ^ 149 = n
  generalize 10 ^ (-e).toNat = d at hd ⊢
  obtain rfl | hn := Nat.eq_zero_or_pos n
  · rw [roundMag_zero hd, Nat.cast_zero, mul_zero, if_pos rfl]
    cases neg <;> rfl
  · have hpos : (0 : Int) < n := Int.natCast_pos.2 hn
    cases neg with
    | false =>
      simp only [Bool.false_eq_true, if_false, one_mul, Int.natAbs_natCast]
      rw [if_neg hpos.ne', decide_eq_false (by omega)]
    | true =>
      simp only [if_true, neg_one_mul, Int.natAbs_neg, Int.natAbs_natCast]
      rw [if_neg (by omega), decide_eq_true (by omega)]

/-! ### What the assembler gives -/

/-- Every command that `r` can be is well-formed and of the row `op`. -/
def GivesRow (op : Opcode) (r : Option Instr) : Prop := ∀ i, r = some i → WellFormed i ∧ i.opcode = op

theorem givesRow_none (op : Opcode) : GivesRow op none := fun _ h => by cases h

theorem givesRow_some {i : Instr} (h : WellFormed i) : GivesRow i.opcode (some i) :=
  fun _ hi => Option.some.inj hi ▸ ⟨h, rfl⟩

theorem givesRow_fitting (i : Instr) : GivesRow i.opcode (fitting i) := by
  unfold fitting
  split
  · exact givesRow_some ‹_›
  · exact givesRow_none _

theorem givesRow_bind {α : Type} {op : Opcode} {r : Option α} {f : α → Option Instr}
    (h : ∀ a, GivesRow op (f a)) : GivesRow op (r >>= f) := by
  intro i hi
  obtain ⟨a, -, ha⟩ := Option.bind_eq_some_iff.1 hi
  exact h a i ha

/-- The assembler gives well-formed commands of the mnemonic's row (R65, R70). -/
theorem givesRow_assemble (op : Opcode) (operands : List AsmOperand) :
    GivesRow op (assemble op operands) := by
  unfold assemble
  split
  case h_1 | h_6 | h_7 | h_8 | h_9 | h_13 | h_15 => exact givesRow_some rfl
  case h_2 | h_3 | h_11 => exact givesRow_bind fun _ => givesRow_bind fun _ => givesRow_fitting _
  case h_4 | h_5 | h_10 | h_12 | h_16 | h_17 | h_18 => exact givesRow_bind fun _ => givesRow_fitting _
  case h_14 | h_19 => exact givesRow_fitting _
  case h_20 => exact givesRow_none _

/-- The first word of a well-formed command is one of its row (R65). -/
theorem encode_matches {i : Instr} (h : WellFormed i) :
    ∃ w rest, encode i = w :: rest ∧ w &&& maskWord i.opcode = matchWord i.opcode := by
  obtain ⟨op, hm, hop⟩ := decodeCommand_eq_ok.1 (decodeCommand_encode h)
  obtain rfl : op = i.opcode := by rw [← hop, operandsOf_opcode]
  exact ⟨_, _, encode_eq i, hm⟩

/-! ### What a line gives -/

theorem setInputsFrom_wellFormed {k : Nat} {vs : List Word} {is : List Instr}
    (h : setInputsFrom k vs = some is) : ∀ i ∈ is, WellFormed i := by
  induction vs generalizing k is with
  | nil => cases h; simp
  | cons v vs ih =>
    obtain ⟨ch, rest, -, hrest, rfl⟩ := setInputsFrom_cons.1 h
    exact List.forall_mem_cons.2 ⟨rfl, ih hrest⟩

/-- The pushes between the first command and the last of an expansion (R71). -/
theorem pushes_wellFormed {first last : Instr} (hf : WellFormed first) (hl : WellFormed last)
    (vs : List Word) : ∀ i ∈ [first] ++ vs.map .mmBulkPush ++ [last], WellFormed i := by
  simp only [List.mem_append, List.mem_singleton, List.mem_map]
  rintro i ((rfl | ⟨v, -, rfl⟩) | rfl)
  · exact hf
  · rfl
  · exact hl

theorem expand_wellFormed {p : Pseudo} {is : List Instr} (h : expand p = some is) :
    ∀ i ∈ is, WellFormed i := by
  cases p with
  | mmBulkReplace vs => cases h; exact pushes_wellFormed rfl rfl vs
  | mmRestore vs => cases h; exact pushes_wellFormed rfl rfl vs
  | mmClear => cases h; simp only [List.forall_mem_cons]; exact ⟨rfl, rfl, by simp⟩
  | mmSetInputs vs => exact setInputsFrom_wellFormed h
  | mmSnapshot =>
    cases h
    intro i hi
    obtain ⟨k, hk, rfl⟩ := List.mem_map.1 hi
    have := List.mem_range.1 hk
    simp only [WellFormed, Instr.wellFormed, decide_eq_true_eq]
    omega

theorem assembleLine_wellFormed {line : List Char} {is : List Instr} (h : assembleLine line = some is) :
    ∀ i ∈ is, WellFormed i := by
  unfold assembleLine at h
  dsimp only at h
  split at h
  · obtain ⟨operands, -, h⟩ := Option.bind_eq_some_iff.1 h
    obtain ⟨i, hi, h⟩ := Option.bind_eq_some_iff.1 h
    cases h
    exact List.forall_mem_singleton.2 (givesRow_assemble _ _ i hi).1
  · obtain ⟨p, -, h⟩ := Option.bind_eq_some_iff.1 h
    exact expand_wellFormed h

/-! ### The commands the assembler gives from operands that fit (R70) -/

theorem fitting_eq_self_iff {i : Instr} : fitting i = some i ↔ WellFormed i := by
  unfold fitting WellFormed
  split <;> simp [*]

theorem asmNat_natCast (n : Nat) : asmNat n = some n := by simp [asmNat]

theorem asmFin_val {n : Nat} (k : Fin n) : asmFin n k.val = some k := by simp [asmFin]

/-! ### The text of a line (R70) -/

theorem trimSpaces_eq_rdropWhile (cs : List Char) :
    trimSpaces cs = (cs.dropWhile (· = ' ')).rdropWhile (· = ' ') := rfl

theorem trimSpaces_cons_space (cs : List Char) : trimSpaces (' ' :: cs) = trimSpaces cs := by
  rw [trimSpaces_eq_rdropWhile, List.dropWhile_cons_of_pos (by decide), trimSpaces_eq_rdropWhile]

theorem trimSpaces_concat_space (cs : List Char) : trimSpaces (cs ++ [' ']) = trimSpaces cs := by
  rw [trimSpaces_eq_rdropWhile, trimSpaces_eq_rdropWhile, List.dropWhile_append]
  split
  · rename_i hnil
    rw [List.isEmpty_iff.1 hnil]
    rfl
  · exact List.rdropWhile_concat_pos _ _ _ (by decide)

/-- A text that ends without a space is trimmed at its front only. -/
theorem trimSpaces_concat {c : Char} (hc : c ≠ ' ') (cs : List Char) :
    trimSpaces (cs ++ [c]) = cs.dropWhile (· = ' ') ++ [c] := by
  have hdrop : (cs ++ [c]).dropWhile (· = ' ') = cs.dropWhile (· = ' ') ++ [c] := by
    rw [List.dropWhile_append]
    split
    · rename_i hnil
      rw [List.isEmpty_iff.1 hnil]
      simp [hc]
    · rfl
  rw [trimSpaces_eq_rdropWhile, hdrop, List.rdropWhile_concat_neg _ _ _ (by simpa using hc)]

theorem dropWhile_space_of_head {cs : List Char} (h : cs.head? ≠ some ' ') :
    cs.dropWhile (· = ' ') = cs := by
  cases cs with
  | nil => rfl
  | cons c cs => exact List.dropWhile_cons_of_neg (by simpa using h)

theorem trimSpaces_of_not_mem {cs : List Char} (h : ' ' ∉ cs) : trimSpaces cs = cs := by
  obtain rfl | ⟨cs, c, rfl⟩ := List.eq_nil_or_concat cs
  · rfl
  · simp only [List.concat_eq_append, List.mem_append, List.mem_singleton, not_or] at h ⊢
    rw [trimSpaces_concat (Ne.symm h.2), dropWhile_space_of_head (fun hf => h.1 (List.mem_of_head? hf))]

/-- A piece without commas, up to the comma after it. -/
theorem splitCommas_append_comma {t : List Char} (h : ',' ∉ t) (rest : List Char) :
    splitCommas (t ++ ',' :: rest) = t :: splitCommas rest := by
  induction t with
  | nil => simp [splitCommas]
  | cons c t ih =>
    simp only [List.mem_cons, not_or] at h
    rw [List.cons_append, splitCommas, if_neg (Ne.symm h.1), ih h.2]

theorem splitCommas_of_not_mem {t : List Char} (h : ',' ∉ t) : splitCommas t = [t] := by
  induction t with
  | nil => rfl
  | cons c t ih =>
    simp only [List.mem_cons, not_or] at h
    rw [splitCommas, if_neg (Ne.symm h.1), ih h.2]

/-- The operand texts as a line writes them. -/
def joinTexts (texts : List (List Char)) : List Char := [',', ' '].intercalate texts

theorem joinTexts_singleton (t : List Char) : joinTexts [t] = t := by simp [joinTexts]

theorem joinTexts_cons_cons (t u : List Char) (us : List (List Char)) :
    joinTexts (t :: u :: us) = t ++ ',' :: ' ' :: joinTexts (u :: us) := by
  simp [joinTexts]

/-- An operand text: without commas and spaces, and not empty. -/
def IsOperandText (t : List Char) : Prop := ',' ∉ t ∧ ' ' ∉ t ∧ t ≠ []

/-- The joined texts end in a character of the last text. -/
theorem joinTexts_eq_concat {t : List Char} {ts : List (List Char)} (h : ∀ u ∈ t :: ts, IsOperandText u) :
    ∃ (cs : List Char) (c : Char), c ≠ ' ' ∧ joinTexts (t :: ts) = cs ++ [c] := by
  induction ts generalizing t with
  | nil =>
    obtain ⟨-, hspace, hne⟩ := h t (by simp)
    refine ⟨t.dropLast, t.getLast hne, fun hc => hspace (hc ▸ List.getLast_mem hne), ?_⟩
    rw [joinTexts_singleton, List.dropLast_append_getLast hne]
  | cons u us ih =>
    obtain ⟨cs, c, hc, hjoin⟩ := ih (fun v hv => h v (List.mem_cons_of_mem t hv))
    exact ⟨t ++ ',' :: ' ' :: cs, c, hc, by rw [joinTexts_cons_cons, hjoin]; simp⟩

/-- The texts come back from between their commas, the space before each trimmed. -/
theorem operandTexts_joinTexts {t : List Char} {ts : List (List Char)}
    (h : ∀ u ∈ t :: ts, IsOperandText u) : operandTexts (' ' :: joinTexts (t :: ts)) = t :: ts := by
  have hsplit : (splitCommas (' ' :: joinTexts (t :: ts))).map trimSpaces = t :: ts := by
    induction ts generalizing t with
    | nil =>
      obtain ⟨hcomma, hspace, -⟩ := h t (by simp)
      have hpiece : ',' ∉ ' ' :: t := by simp [hcomma]
      rw [joinTexts_singleton, splitCommas_of_not_mem hpiece, List.map_singleton, trimSpaces_cons_space,
        trimSpaces_of_not_mem hspace]
    | cons u us ih =>
      obtain ⟨hcomma, hspace, -⟩ := h t (by simp)
      have hpiece : ',' ∉ ' ' :: t := by simp [hcomma]
      rw [joinTexts_cons_cons, ← List.cons_append, splitCommas_append_comma hpiece, List.map_cons,
        trimSpaces_cons_space, trimSpaces_of_not_mem hspace,
        ih (fun v hv => h v (List.mem_cons_of_mem t hv))]
  obtain ⟨cs, c, hc, hjoin⟩ := joinTexts_eq_concat h
  have hne : trimSpaces (' ' :: joinTexts (t :: ts)) ≠ [] := by
    rw [trimSpaces_cons_space, hjoin, trimSpaces_concat hc]
    simp
  rw [operandTexts, if_neg hne, hsplit]

/-- A text that reads as an operand is not empty. -/
theorem ne_nil_of_operandText {k : OperandKind} {t : List Char} {a : AsmOperand}
    (h : operandText k t = some a) : t ≠ [] := by
  rintro rfl
  cases k <;> cases h

theorem ne_nil_of_operandsText {ks : List OperandKind} {ts : List (List Char)} {as : List AsmOperand}
    (h : operandsText ks ts = some as) : ∀ t ∈ ts, t ≠ [] := by
  induction ks generalizing ts as with
  | nil =>
    cases ts with
    | nil => simp
    | cons t ts => cases h
  | cons k ks ih =>
    cases ts with
    | nil => cases h
    | cons t ts =>
      rw [operandsText] at h
      split at h
      · rename_i ht hts
        exact List.forall_mem_cons.2 ⟨ne_nil_of_operandText ht, ih hts⟩
      · cases h

/-- A line whose trimmed text is a mnemonic and then nothing or a space with the operands. -/
theorem assembleLine_of_trimSpaces {line name body : List Char} {op : Opcode}
    {operands : List AsmOperand} (htrim : trimSpaces line = name ++ body) (hname : ' ' ∉ name)
    (hbody : body = [] ∨ body.head? = some ' ') (hop : opcodeOfName name = some op)
    (hread : operandsText (operandKinds op) (operandTexts body) = some operands) :
    assembleLine line = (assemble op operands).map fun i => [i] := by
  have hmem : ∀ c ∈ name, decide (c ≠ ' ') = true := fun c hc =>
    decide_eq_true fun h => hname (h ▸ hc)
  have htake : (name ++ body).takeWhile (· ≠ ' ') = name := by
    rw [List.takeWhile_append_of_pos hmem]
    cases body with
    | nil => simp
    | cons c body => simp_all
  have hdrop : (name ++ body).dropWhile (· ≠ ' ') = body := by
    rw [List.dropWhile_append_of_pos hmem]
    cases body with
    | nil => simp
    | cons c body => simp_all
  rw [assembleLine]
  simp only [htrim, htake, hdrop, hop, hread, Option.bind_eq_bind, Option.bind_some]
  cases assemble op operands <;> rfl

theorem opcodeNames_no_space {name : String} {op : Opcode} (h : (name, op) ∈ opcodeNames) :
    ' ' ∉ name.toList ∧ name.toList ≠ [] := by
  have hnames : ∀ row ∈ opcodeNames, ' ' ∉ row.1.toList ∧ row.1.toList ≠ [] := by decide
  exact hnames _ h

/-- A line is read as its mnemonic and its operands (R70). -/
theorem assembleLine_eq {name : String} {op : Opcode} {texts : List (List Char)}
    {operands : List AsmOperand} (hmem : (name, op) ∈ opcodeNames)
    (htexts : ∀ t ∈ texts, ',' ∉ t ∧ ' ' ∉ t)
    (hread : operandsText (operandKinds op) texts = some operands) :
    assembleLine (name.toList ++ [' '] ++ joinTexts texts) =
      (assemble op operands).map fun i => [i] := by
  obtain ⟨hspace, hne⟩ := opcodeNames_no_space hmem
  have hop := opcodeOfName_of_mem hmem
  cases texts with
  | nil =>
    refine assembleLine_of_trimSpaces (body := []) ?_ hspace (.inl rfl) hop hread
    rw [joinTexts, List.intercalate_nil, List.append_nil, List.append_nil, trimSpaces_concat_space,
      trimSpaces_of_not_mem hspace]
  | cons t ts =>
    have hall : ∀ u ∈ t :: ts, IsOperandText u := fun u hu =>
      ⟨(htexts u hu).1, (htexts u hu).2, ne_nil_of_operandsText hread u hu⟩
    obtain ⟨cs, c, hc, hjoin⟩ := joinTexts_eq_concat hall
    have hhead : (name.toList ++ ' ' :: cs).head? ≠ some ' ' := by
      rw [List.head?_append_of_ne_nil _ hne]
      exact fun h => hspace (List.mem_of_head? h)
    refine assembleLine_of_trimSpaces (body := ' ' :: joinTexts (t :: ts)) ?_ hspace (.inr rfl) hop
      ((operandTexts_joinTexts hall).symm ▸ hread)
    have hline : name.toList ++ [' '] ++ joinTexts (t :: ts) = (name.toList ++ ' ' :: cs) ++ [c] := by
      rw [hjoin]; simp
    rw [hline, trimSpaces_concat hc, dropWhile_space_of_head hhead, hjoin]
    simp

/-- Settles O33: the assembler ends in `fitting`; a literal is one rounding of its exact value; and a
line's mnemonic and operand texts are what stands before its first space and between its commas. -/
theorem assembledCommandsFitTheirRow : Obligations.AssembledCommandsFitTheirRow := by
  refine ⟨fun op operands i h => ?_, fun _ _ h => assembleLine_wellFormed h, ?_, fun _ => rfl,
    fun neg digits e => ?_, fun name op texts operands => assembleLine_eq⟩
  · obtain ⟨hwf, rfl⟩ := givesRow_assemble op operands i h
    exact ⟨hwf, encode_matches hwf⟩
  · intro o i k nin nout sel len ch c j kn m v
    simp only [assemble, asmNat_natCast, asmFin_val, Option.bind_eq_bind, Option.bind_some, statusNumber,
      fitting_eq_self_iff, WellFormed, Instr.wellFormed, Bool.and_eq_true, decide_eq_true_eq,
      true_and]
    and_intros <;> omega
  · rw [asmWord, ofDecimal_eq_roundSigned]
    exact roundedFrom_roundSigned _ _ (Nat.pow_pos (by decide))

end Sys2Proof.Machine
end

section
/-! R76 to R87, 40_matrix_mixer.md: the mixer commands on the table, the staging buffer and the channel
registers. Each statement is the command's branches by `exec_mm*` and `pairOf`/`flatOf`, the read after the
write by the lemmas of Laws/Mixer.lean, and the frame by the field lemmas of Laws/State.lean. -/

namespace Sys2Proof.Machine

/-! ### What is the same for every command -/

/-- A command's word as the one number that the opcode and the operands make (R62, R65). -/
theorem encode_of_number {i : Instr} {n : Nat} (h : opcodeNumber i.opcode * 2 ^ 26 + i.operands = n) :
    encode i = BitVec.ofNat 32 n :: if opcodeCarriesData i.opcode then [i.data] else [] := by
  rw [encode_eq, commandWord, h]

theorem onlyResponded_respond (st : Status) (d : Word) (s : State) :
    OnlyResponded st d s (respond st d s) := ⟨⟨rfl, rfl⟩, ⟨rfl, rfl⟩, ⟨rfl, rfl⟩, rfl⟩

/-- A command that writes the mixer only and completes with data 0. -/
theorem mixerCommand_respond (s : State) (m : Mixer) (n : Nat) :
    MixerCommand s (respond .ok posZero { s with mm := m, mmNanTick := n }) := ⟨⟨rfl, rfl⟩, ⟨rfl, rfl⟩, rfl⟩

/-- The number of a pair's flat entry (R22). -/
theorem flat_val (order : Config.FlatIndexOrder) (o i : Fin 16) :
    (flat order o i).val = flatNumber order o.val i.val := by
  cases order <;> rfl

/-- A pair operand in range names the entry that R22 numbers. -/
theorem pairOf_of_lt (order : Config.FlatIndexOrder) {o i : Nat} (h : ¬ (16 ≤ o ∨ 16 ≤ i)) :
    ∃ k : Fin 256, pairOf order o i = some k ∧ k.val = flatNumber order o i := by
  obtain ⟨ho, hi⟩ : o < 16 ∧ i < 16 := by omega
  exact ⟨_, pairOf_val order ⟨o, ho⟩ ⟨i, hi⟩, flat_val order ⟨o, ho⟩ ⟨i, hi⟩⟩

theorem flatOf_of_lt {idx : Nat} (h : ¬ 256 ≤ idx) : ∃ k : Fin 256, flatOf idx = some k ∧ k.val = idx :=
  ⟨⟨idx, Nat.lt_of_not_le h⟩, flatOf_val ⟨idx, Nat.lt_of_not_le h⟩, rfl⟩

/-! ### Single coefficients (R76 to R79, R87) -/

/-- What `MM_SETC` and `MM_SETCI` leave when they write entry `k`. -/
theorem coefWrite_respond_spec (s : State) (k : Fin 256) (v : Word) {n : Nat} (hk : k.val = n) :
    let t := respond .ok posZero { s with mm := coefWrite k v s.mm }
    (∀ j : Fin 256, coefRead t.mm j = if j.val = n then v else coefRead s.mm j) ∧
      ChannelsKept s t ∧ StagingKept s t ∧ MixerCommand s t := by
  refine ⟨fun j => ?_, ⟨rfl, rfl, rfl, rfl⟩, ⟨rfl, rfl⟩, mixerCommand_respond s _ _⟩
  rw [respond_mm, coefRead_coefWrite, ← hk]
  simp only [Fin.ext_iff]

/-- Settles O2, by whether the pair names an entry. -/
theorem setcWritesOnePairEntry : Obligations.SetcWritesOnePairEntry := by
  refine ⟨fun o i v => encode_of_number ?_, fun s o i v => ?_⟩
  · simp only [Instr.opcode, opcodeNumber, Instr.operands]
    omega
  · by_cases h : 16 ≤ o ∨ 16 ≤ i
    · refine ⟨_, exec_mmSetc_none v (pairOf_eq_none.2 h), ?_⟩
      rw [if_pos h]
      exact onlyResponded_respond _ _ s
    · obtain ⟨k, hpair, hk⟩ := pairOf_of_lt s.params.flatIndexOrder h
      refine ⟨_, exec_mmSetc_some v hpair, ?_⟩
      rw [if_neg h]
      exact coefWrite_respond_spec s k v hk

/-- Settles O3, by whether the pair names an entry. -/
theorem getcReturnsPairEntry : Obligations.GetcReturnsPairEntry := by
  refine ⟨fun o i => encode_of_number ?_, fun s o i => ?_⟩
  · simp only [Instr.opcode, opcodeNumber, Instr.operands]
    omega
  · by_cases h : 16 ≤ o ∨ 16 ≤ i
    · refine ⟨_, exec_mmGetc_none (pairOf_eq_none.2 h), ?_⟩
      rw [if_pos h]
      exact onlyResponded_respond _ _ s
    · obtain ⟨k, hpair, hk⟩ := pairOf_of_lt s.params.flatIndexOrder h
      refine ⟨_, exec_mmGetc_some hpair, ?_⟩
      rw [if_neg h]
      exact ⟨k, hk, onlyResponded_respond _ _ s⟩

/-- Settles O4, by whether the index names an entry. -/
theorem setciWritesOneFlatEntry : Obligations.SetciWritesOneFlatEntry := by
  refine ⟨fun idx v => encode_of_number ?_, fun s idx v => ?_⟩
  · simp only [Instr.opcode, opcodeNumber, Instr.operands]
    omega
  · by_cases h : 256 ≤ idx
    · refine ⟨_, exec_mmSetci_none v s (flatOf_eq_none.2 h), ?_⟩
      rw [if_pos h]
      exact onlyResponded_respond _ _ s
    · obtain ⟨k, hflat, hk⟩ := flatOf_of_lt h
      refine ⟨_, exec_mmSetci_some v s hflat, ?_⟩
      rw [if_neg h]
      exact coefWrite_respond_spec s k v hk

/-- Settles O5, by whether the index names an entry. -/
theorem getciReturnsFlatEntry : Obligations.GetciReturnsFlatEntry := by
  refine ⟨fun idx => encode_of_number ?_, fun s idx => ?_⟩
  · simp only [Instr.opcode, opcodeNumber, Instr.operands]
    omega
  · by_cases h : 256 ≤ idx
    · refine ⟨_, exec_mmGetci_none s (flatOf_eq_none.2 h), ?_⟩
      rw [if_pos h]
      exact onlyResponded_respond _ _ s
    · obtain ⟨k, hflat, hk⟩ := flatOf_of_lt h
      refine ⟨_, exec_mmGetci_some s hflat, ?_⟩
      rw [if_neg h]
      exact ⟨k, hk, onlyResponded_respond _ _ s⟩

/-- A write of entry `k` and then a read of it, whichever commands they are: the read answers the value
written. -/
theorem execAll_write_read {set get : Instr} {s : State} {k : Fin 256} {v : Word}
    (hset : exec set s = done posZero { s with mm := coefWrite k v s.mm })
    (hget : ∀ t : State, t.params = s.params → exec get t = done (coefRead t.mm k) t) :
    ∃ t, execAll [set, get] s = .next t ∧ t.responses = ⟨.ok, v⟩ :: ⟨.ok, posZero⟩ :: s.responses := by
  have hread := hget (respond .ok posZero { s with mm := coefWrite k v s.mm }) rfl
  rw [respond_mm, coefRead_coefWrite, if_pos rfl] at hread
  rw [execAll_cons hset, execAll_cons hread]
  exact ⟨_, rfl, rfl⟩

/-- Settles O49: the pair form and the flat form each write and read one and the same entry. -/
theorem setThenGetRoundTrip : Obligations.SetThenGetRoundTrip := by
  constructor
  · intro s o i v
    have hpair := pairOf_val s.params.flatIndexOrder o i
    exact execAll_write_read (exec_mmSetc_some v hpair) fun t ht => exec_mmGetc_some (ht ▸ hpair)
  · intro s k v
    exact execAll_write_read (exec_mmSetci_some v s (flatOf_val k)) fun t _ =>
      exec_mmGetci_some t (flatOf_val k)

/-! ### The staging buffer (R80 to R83, R88) -/

/-- Settles O6. -/
theorem bulkBeginClearsOnlyTheCount : Obligations.BulkBeginClearsOnlyTheCount := by
  refine ⟨encode_of_number rfl, fun s => ?_⟩
  have hexec : exec .mmBulkBegin s = done posZero { s with mm := stageClear s.mm } := rfl
  exact ⟨_, hexec, stageClear_stageCnt s.mm, stageClear_stage s.mm, coefRead_stageClear s.mm,
    ⟨rfl, rfl, rfl, rfl⟩, mixerCommand_respond s _ _⟩

/-- Settles O7: at 256 or more no staging index is the count, so nothing is written. -/
theorem bulkPushAppendsOrSaturates : Obligations.BulkPushAppendsOrSaturates := by
  refine ⟨fun v => encode_of_number (by simp only [Instr.opcode, opcodeNumber, Instr.operands]; omega),
    fun s v => ?_⟩
  have hexec : exec (.mmBulkPush v) s = done posZero { s with mm := stagePush v s.mm } := rfl
  exact ⟨_, hexec, stagePush_getElem s.mm v, stagePush_stageCnt v s.mm, fun _ => rfl,
    ⟨rfl, rfl, rfl, rfl⟩, mixerCommand_respond s _ _⟩

/-- Settles O8, by whether the payload is accepted; the count is cleared in both branches. -/
theorem bulkCommitIsAllOrNothing : Obligations.BulkCommitIsAllOrNothing := by
  refine ⟨encode_of_number rfl, fun s => ?_⟩
  by_cases h : s.mm.stageCnt = 256
  · refine ⟨_, exec_mmBulkCommit_accepted h, rfl, rfl, ⟨rfl, rfl, rfl, rfl⟩, ⟨rfl, rfl⟩, ⟨rfl, rfl⟩, ?_⟩
    rw [if_pos h]
    exact ⟨coefRead_bulkCopy s.mm, rfl⟩
  · refine ⟨_, exec_mmBulkCommit_malformed h, rfl, rfl, ⟨rfl, rfl, rfl, rfl⟩, ⟨rfl, rfl⟩, ⟨rfl, rfl⟩, ?_⟩
    rw [if_neg h]
    exact ⟨coefRead_stageClear s.mm, rfl⟩

/-- Settles O9. -/
theorem restoreCommitPadsWithZero : Obligations.RestoreCommitPadsWithZero := by
  refine ⟨encode_of_number rfl, fun s => ?_⟩
  have hexec : exec .mmRestoreCommit s = done posZero { s with mm := stageClear (restoreCopy s.mm) } := rfl
  refine ⟨_, hexec, fun k => ?_, ?_, ?_, ⟨?_, ?_, ?_, ?_⟩, mixerCommand_respond s _ _⟩
  · rw [respond_mm, coefRead_stageClear, coefRead_restoreCopy, restoreLength]
  all_goals simp only [respond_mm, respond_mmNanTick, stageClear_stageCnt, stageClear_stage,
    stageClear_inReg, stageClear_outReg, stageClear_acc, restoreCopy_stage, restoreCopy_inReg,
    restoreCopy_outReg, restoreCopy_acc]

/-! ### The channel registers (R84, R86) -/

/-- Settles O10. -/
theorem setInputWritesOneRegister : Obligations.SetInputWritesOneRegister := by
  refine ⟨fun ch v => encode_of_number (by simp only [Instr.opcode, opcodeNumber, Instr.operands]; omega),
    fun s ch v => ?_⟩
  have hexec : exec (.mmSetInput ch v) s = done posZero { s with mm := inputWrite ch v s.mm } := rfl
  exact ⟨_, hexec, fun c => inputWrite_getElem s.mm ch c v, inputWrite_outReg ch v s.mm,
    inputWrite_acc ch v s.mm, rfl, fun _ => rfl, ⟨rfl, rfl⟩, mixerCommand_respond s _ _⟩

/-- Settles O12: the command reads its register and only responds. -/
theorem getOutputReturnsRegister : Obligations.GetOutputReturnsRegister := by
  refine ⟨fun ch => encode_of_number (by simp only [Instr.opcode, opcodeNumber, Instr.operands]; omega),
    fun s ch => ?_⟩
  have hexec : exec (.mmGetOutput ch) s = done s.mm.outReg[ch] s := rfl
  exact ⟨_, hexec, onlyResponded_respond _ _ s⟩

end Sys2Proof.Machine
end

section
/-! R73 to R75, R85, R89, 40_matrix_mixer.md: the vector schedule of a tick, lane by lane. A lane is written
by the operations of its own group only, and these start with the lane's own value, so whatever the
accumulator held, the lane ends as its running sum `laneSum` (`tickAcc_getElem`). -/

namespace Sys2Proof.Machine

/-! ### The active inputs -/

/-- The inputs whose vector MACs a group runs, as `groupOps` lists them (R74, R75). -/
def activeInputs (p : Config.Params) (nin : Nat) : List (Fin 16) :=
  (List.finRange 16).filter fun i => decide (firstInput p ≤ i.val) && decide (i.val < nin)

theorem groupOps_eq (p : Config.Params) (nin : Nat) (g : Fin 4) :
    groupOps p nin g = .init g :: (activeInputs p nin).map (.mac g) := rfl

theorem mem_activeInputs {p : Config.Params} {nin : Nat} {i : Fin 16} :
    i ∈ activeInputs p nin ↔ firstInput p ≤ i.val ∧ i.val < nin := by
  simp [activeInputs]

theorem activeInputs_pairwise (p : Config.Params) (nin : Nat) :
    (activeInputs p nin).Pairwise (· < ·) :=
  (List.pairwise_lt_finRange 16).filter _

/-- An increasing list of channels is determined by which channels it holds. -/
theorem eq_activeInputs {p : Config.Params} {nin : Nat} {is : List (Fin 16)} (hsorted : is.Pairwise (· < ·))
    (hmem : ∀ i : Fin 16, i ∈ is ↔ firstInput p ≤ i.val ∧ i.val < nin) : is = activeInputs p nin := by
  refine List.Perm.eq_of_pairwise (fun a b _ _ hab hba => absurd hab (lt_asymm hba)) hsorted
    (activeInputs_pairwise p nin) ((List.perm_ext_iff_of_nodup ?_ ?_).2 fun i => ?_)
  · exact hsorted.imp ne_of_lt
  · exact (activeInputs_pairwise p nin).imp ne_of_lt
  · rw [hmem, mem_activeInputs]

theorem activeInputs_of_le {p : Config.Params} {nin : Nat} (h : nin ≤ firstInput p) :
    activeInputs p nin = [] := by
  refine (eq_activeInputs List.Pairwise.nil fun i => ?_).symm
  simp only [List.not_mem_nil, false_iff]
  omega

/-- One input more is one input at the end of the list. -/
theorem activeInputs_succ {p : Config.Params} {n : Nat} (h : n < 16) (hfirst : firstInput p ≤ n) :
    activeInputs p (n + 1) = activeInputs p n ++ [⟨n, h⟩] := by
  refine (eq_activeInputs ?_ fun i => ?_).symm
  · rw [List.pairwise_append]
    refine ⟨activeInputs_pairwise p n, List.pairwise_singleton _ _, fun i hi j hj => ?_⟩
    obtain ⟨-, hlt⟩ := mem_activeInputs.1 hi
    rw [List.mem_singleton.1 hj]
    exact hlt
  · rw [List.mem_append, mem_activeInputs, List.mem_singleton, Fin.ext_iff]
    dsimp only
    omega

/-- There are 16 input registers. -/
theorem activeInputs_succ_of_ge {p : Config.Params} {n : Nat} (h : 16 ≤ n) :
    activeInputs p (n + 1) = activeInputs p n := by
  refine eq_activeInputs (activeInputs_pairwise p (n + 1)) fun i => ?_
  rw [mem_activeInputs]
  omega

/-- The active inputs of a clamped count as numbers, in ascending order (R75). -/
theorem activeInputs_map_val (p : Config.Params) {nin : Nat} (h : nin ≤ 16) :
    (activeInputs p nin).map Fin.val = (List.range nin).drop (firstInput p) := by
  induction nin with
  | zero => rw [activeInputs_of_le (Nat.zero_le _)]; simp
  | succ n ih =>
    obtain hlt | hle := Nat.lt_or_ge n (firstInput p)
    · rw [activeInputs_of_le hlt, List.drop_eq_nil_of_le (by rwa [List.length_range])]
      rfl
    · rw [activeInputs_succ h hle, List.map_append, ih (by omega), List.range_succ,
        List.drop_append_of_le_length (by rwa [List.length_range])]
      rfl

/-! ### The schedule (R75) -/

/-- Settles O44: a group's MACs are its active inputs, and its start is no MAC. -/
theorem vectorMacsInGroupAndInputOrder : Obligations.VectorMacsInGroupAndInputOrder := by
  intro p n
  obtain ⟨-, hle⟩ := channelCount_range n
  rw [tickOps, List.filterMap_flatMap, ← activeInputs_map_val p hle,
    ← List.map_coe_finRange_eq_range, List.flatMap_map]
  congr 1
  funext g
  rw [groupOps_eq, List.filterMap_cons, List.filterMap_map, List.map_map, ← List.filterMap_eq_map]
  rfl

/-! ### One lane of the schedule -/

/-- One MAC of lane `o` with input `i`. -/
def laneMac (p : Config.Params) (nan : Nat → Word) (m : Mixer) (o : Fin 16) (a : Word) (i : Fin 16) : Word :=
  mac p nan (macSite o i) a (coeffAt p m o i) m.inReg[i]

/-- The lane after a group's operations, which do not read what it held before. -/
def laneRun (p : Config.Params) (nan : Nat → Word) (m : Mixer) (o : Fin 16) (nin : Nat) : Word :=
  (activeInputs p nin).foldl (laneMac p nan m o) (laneInit p nan m o)

section
variable (p : Config.Params) (nan : Nat → Word) (m : Mixer)

theorem foldl_mac_getElem (g : Fin 4) (is : List (Fin 16)) (acc : Vector Word 16) (o : Fin 16) :
    ((is.map (.mac g)).foldl (vectorStep p nan m) acc)[o] =
      if o.val / 4 = g.val then is.foldl (laneMac p nan m o) acc[o] else acc[o] := by
  induction is generalizing acc with
  | nil => simp
  | cons i is ih =>
    rw [List.map_cons, List.foldl_cons, ih, vectorStep_mac_getElem]
    by_cases hg : o.val / 4 = g.val
    · simp only [if_pos hg, List.foldl_cons, laneMac]
    · simp only [if_neg hg]

theorem foldl_groupOps_getElem (nin : Nat) (g : Fin 4) (acc : Vector Word 16) (o : Fin 16) :
    ((groupOps p nin g).foldl (vectorStep p nan m) acc)[o] =
      if o.val / 4 = g.val then laneRun p nan m o nin else acc[o] := by
  rw [groupOps_eq, List.foldl_cons, foldl_mac_getElem, vectorStep_init_getElem]
  by_cases hg : o.val / 4 = g.val
  · simp only [if_pos hg, laneRun]
  · simp only [if_neg hg]

/-- Groups that run leave their lanes' runs, and the other lanes as they were. -/
theorem foldl_groups_getElem (nin : Nat) (gs : List (Fin 4)) (acc : Vector Word 16) (o : Fin 16) :
    ((gs.flatMap (groupOps p nin)).foldl (vectorStep p nan m) acc)[o] =
      if ∃ g ∈ gs, o.val / 4 = g.val then laneRun p nan m o nin else acc[o] := by
  induction gs generalizing acc with
  | nil => simp
  | cons g gs ih =>
    rw [List.flatMap_cons, List.foldl_append, ih, foldl_groupOps_getElem]
    simp only [List.exists_mem_cons_iff]
    by_cases hgs : ∃ g' ∈ gs, o.val / 4 = g'.val
    · rw [if_pos hgs, if_pos (.inr hgs)]
    · simp only [hgs, or_false, if_false]

theorem tickAcc_getElem_eq_laneRun (nin : Nat) (o : Fin 16) :
    (tickAcc p nan m nin)[o] = laneRun p nan m o nin := by
  rw [tickAcc, tickOps, foldl_groups_getElem]
  exact if_pos ⟨⟨o.val / 4, by omega⟩, List.mem_finRange _, rfl⟩

/-! ### The running sum (R73, R74) -/

theorem laneSum_zero (o : Fin 16) : laneSum p nan m o 0 = laneInit p nan m o := rfl

/-- With `FIRST_PRODUCT` input 0 is in the start value already. -/
theorem laneSum_succ_of_lt_firstInput {n : Nat} (h : n < firstInput p) (o : Fin 16) :
    laneSum p nan m o (n + 1) = laneSum p nan m o n := by
  unfold firstInput at h
  cases hacc : p.accInit with
  | zero => rw [hacc] at h; exact absurd h (Nat.not_lt_zero n)
  | firstProduct =>
    rw [hacc] at h
    have hn : n = 0 := by simpa using h
    rw [laneSum, dif_pos (by omega), if_pos ⟨hn, hacc⟩]

theorem laneSum_succ {n : Nat} (h : n < 16) (hfirst : firstInput p ≤ n) (o : Fin 16) :
    laneSum p nan m o (n + 1) = laneMac p nan m o (laneSum p nan m o n) ⟨n, h⟩ := by
  have hstart : ¬ (n = 0 ∧ p.accInit = .firstProduct) := by
    rintro ⟨rfl, hacc⟩
    simp only [firstInput, hacc] at hfirst
    omega
  rw [laneSum, dif_pos h, if_neg hstart]
  rfl

theorem laneSum_succ_of_ge {n : Nat} (h : 16 ≤ n) (o : Fin 16) :
    laneSum p nan m o (n + 1) = laneSum p nan m o n := by
  rw [laneSum, dif_neg (by omega)]

/-- A LANE'S RUN IS ITS RUNNING SUM, input by input. -/
theorem laneRun_eq_laneSum (o : Fin 16) (nin : Nat) : laneRun p nan m o nin = laneSum p nan m o nin := by
  induction nin with
  | zero => rw [laneRun, activeInputs_of_le (Nat.zero_le _), laneSum_zero]; rfl
  | succ n ih =>
    obtain hlt | hle := Nat.lt_or_ge n (firstInput p)
    · rw [laneSum_succ_of_lt_firstInput p nan m hlt, ← ih, laneRun, laneRun, activeInputs_of_le hlt,
        activeInputs_of_le (Nat.le_of_lt hlt)]
    · obtain h | h := Nat.lt_or_ge n 16
      · rw [laneSum_succ p nan m h hle, ← ih, laneRun, activeInputs_succ h hle, List.foldl_append]
        rfl
      · rw [laneSum_succ_of_ge p nan m h, ← ih, laneRun, activeInputs_succ_of_ge h, laneRun]

/-- WHAT A TICK LEAVES IN A LANE (R85). -/
theorem tickAcc_getElem (nin : Nat) (o : Fin 16) :
    (tickAcc p nan m nin)[o] = laneSum p nan m o nin := by
  rw [tickAcc_getElem_eq_laneRun, laneRun_eq_laneSum]

end

theorem coeffAt_of_coeff_eq {m m' : Mixer} (p : Config.Params) (h : m'.coeff = m.coeff) (o i : Fin 16) :
    coeffAt p m' o i = coeffAt p m o i := by
  rw [coeffAt, coeffAt, coefRead, coefRead, h]

/-- A running sum over `nin` inputs reads the table and these inputs only. -/
theorem laneSum_congr {m m' : Mixer} (p : Config.Params) (nan : Nat → Word) {nin : Nat} (hpos : 1 ≤ nin)
    (hcoeff : m'.coeff = m.coeff) (hin : ∀ c : Fin 16, c.val < nin → m'.inReg[c] = m.inReg[c])
    (o : Fin 16) {n : Nat} (hn : n ≤ nin) : laneSum p nan m' o n = laneSum p nan m o n := by
  induction n with
  | zero =>
    rw [laneSum_zero, laneSum_zero, laneInit, laneInit, coeffAt_of_coeff_eq p hcoeff]
    cases p.accInit with
    | zero => rfl
    | firstProduct => exact congrArg (fmul p.ftz _ _) (hin 0 hpos)
  | succ n ih =>
    obtain hlt | hle := Nat.lt_or_ge n (firstInput p)
    · rw [laneSum_succ_of_lt_firstInput p nan m' hlt, laneSum_succ_of_lt_firstInput p nan m hlt, ih (by omega)]
    · obtain h | h := Nat.lt_or_ge n 16
      · rw [laneSum_succ p nan m' h hle, laneSum_succ p nan m h hle, ih (by omega), laneMac, laneMac,
          coeffAt_of_coeff_eq p hcoeff, hin ⟨n, h⟩ hn]
      · rw [laneSum_succ_of_ge p nan m' h, laneSum_succ_of_ge p nan m h, ih (by omega)]

theorem exec_mmTick (nin nout : Nat) (s : State) :
    exec (.mmTick nin nout) s = done posZero { s with
      mm := mixerTick s.params (mixerNans s) (channelCount nin) (channelCount nout) s.mm
      mmNanTick := s.mmNanTick + 1 } := rfl

/-- Settles O11: every lane by `tickAcc_getElem`, and the outputs below `nout` are the lanes. -/
theorem tickVectorScheduleGivesLaneSums : Obligations.TickVectorScheduleGivesLaneSums := by
  refine ⟨fun nin nout => encode_of_number ?_, fun _ _ _ _ _ _ => rfl, fun p m o i k hk => ?_,
    fun s nin nout => ?_⟩
  · simp only [Instr.opcode, opcodeNumber, Instr.operands]
    omega
  · rw [coeffAt, Fin.ext ((flat_val p.flatIndexOrder o i).trans hk.symm)]
  · have hlane := tickAcc_getElem s.params (mixerNans s) s.mm (channelCount nin)
    refine ⟨_, exec_mmTick nin nout s, fun o => ⟨?_, ?_⟩, ?_, fun k => ?_, ⟨?_, ?_⟩, ?_,
      mixerCommand_respond s _ _⟩
    · rw [respond_mm, mixerTick_acc, hlane]
    · rw [respond_mm, mixerTick_outReg, tickOut_getElem, hlane]
    · rw [respond_mm, mixerTick_inReg]
    · rw [respond_mm, coefRead, coefRead, mixerTick_coeff]
    · rw [respond_mm, mixerTick_stage]
    · rw [respond_mm, mixerTick_stageCnt]
    · rw [respond_mmNanTick]

/-- Settles O45: an output below `n` is masked alike by `n` and `n + 1`, and the sum over one input more is
one MAC more. -/
theorem raisingChannelCountsOnlyAdds : Obligations.RaisingChannelCountsOnlyAdds := by
  constructor
  · intro p nan m nin n o ho
    rw [mixerTick_outReg, mixerTick_outReg, tickOut_getElem, tickOut_getElem, if_pos ho,
      if_pos (Nat.lt_succ_of_lt ho)]
  · intro p nan m nin nout o hpos
    have hfirst : firstInput p ≤ nin.val := by
      unfold firstInput
      split <;> omega
    rw [mixerTick_acc, mixerTick_acc, tickAcc_getElem, tickAcc_getElem,
      laneSum_succ p nan m nin.isLt hfirst, laneMac]

/-- Settles O46: both ticks leave the running sums, which read the active inputs only. -/
theorem inactiveInputsDoNotContribute : Obligations.InactiveInputsDoNotContribute := by
  intro p nan m m' nin nout hpos hcoeff hin o
  have hlane : (tickAcc p nan m' nin)[o] = (tickAcc p nan m nin)[o] := by
    rw [tickAcc_getElem, tickAcc_getElem, laneSum_congr p nan hpos hcoeff hin o (Nat.le_refl nin)]
  simp only [mixerTick_acc, mixerTick_outReg, tickOut_getElem]
  exact ⟨hlane, fun ho => by rw [if_pos ho, if_pos ho, hlane]⟩

end Sys2Proof.Machine
end

section
/-! R11, R72 to R74, 40_matrix_mixer.md: the operations on finite operands are one `roundSigned` of the
exact result, a NaN result is the drawn pattern, and a sum with +0.0 changes -0.0 only. -/

namespace Sys2Proof.Machine

/-! ### The fields of a word -/

theorem withSign_fields (w : Word) : withSign (fSign w) (fExp w * 2 ^ 23 + fFrac w) = w := by
  apply BitVec.eq_of_toNat_eq
  have hw := w.isLt
  have hexp := fExp_lt w
  have hfrac := fFrac_lt w
  rw [withSign_toNat _ _ (by omega)]
  unfold fSign fExp fFrac
  by_cases h : 2 ^ 31 ≤ w.toNat
  · rw [if_pos (decide_eq_true h)]
    omega
  · rw [if_neg (by simpa using h)]
    omega

theorem fVal_eq_zero_iff {w : Word} : fVal w = 0 ↔ w = 0x00000000#32 ∨ w = 0x80000000#32 := by
  constructor
  · intro h
    have hmag : fMag w = 0 := by rw [← fVal_natAbs, h, Int.natAbs_zero]
    obtain ⟨hexp, hfrac⟩ : fExp w = 0 ∧ fFrac w = 0 := by
      unfold fMag at hmag
      split at hmag
      · exact ⟨‹_›, hmag⟩
      · exact absurd hmag (by positivity)
    have hfields := withSign_fields w
    rw [hexp, hfrac] at hfields
    cases hsign : fSign w with
    | false => rw [hsign] at hfields; exact .inl hfields.symm
    | true => rw [hsign] at hfields; exact .inr hfields.symm
  · rintro (rfl | rfl) <;> decide

/-- The sign of a value other than a zero is its sign bit. -/
theorem decide_fVal_neg {w : Word} (h : fVal w ≠ 0) : decide (fVal w < 0) = fSign w := by
  unfold fVal at h ⊢
  cases hs : fSign w with
  | false => rw [hs] at h; simp
  | true =>
    rw [hs, if_pos rfl] at h
    simp only [if_true, decide_eq_true_eq]
    omega

theorem decide_fVal_mul_neg {a b : Word} (ha : fVal a ≠ 0) (hb : fVal b ≠ 0) :
    decide (fVal a * fVal b < 0) = (fSign a != fSign b) := by
  rw [← decide_fVal_neg ha, ← decide_fVal_neg hb]
  obtain ha' | ha' := lt_or_gt_of_ne ha <;> obtain hb' | hb' := lt_or_gt_of_ne hb
  · simp [ha', hb', not_lt_of_gt (mul_pos_of_neg_of_neg ha' hb')]
  · simp [ha', not_lt_of_gt hb', mul_neg_of_neg_of_pos ha' hb']
  · simp [hb', not_lt_of_gt ha', mul_neg_of_pos_of_neg ha' hb']
  · simp [not_lt_of_gt ha', not_lt_of_gt hb', not_lt_of_gt (mul_pos ha' hb')]

/-! ### The exact result, rounded once (R72) -/

/-- The product of finite operands is one rounding of the exact product, an exact zero with the sign of
the operands. -/
theorem mulCore_finite {a b : Word} (nan : Word) (ha : isFinite a = true) (hb : isFinite b = true) :
    mulCore nan a b = roundSigned (fSign a != fSign b) (fVal a * fVal b) (2 ^ 149) := by
  have hround : mulCore nan a b = withSign (fSign a != fSign b) (roundMag (fMag a * fMag b) (2 ^ 149)) := by
    simp only [mulCore, isNaN_eq_false_of_isFinite ha, isNaN_eq_false_of_isFinite hb,
      isInf_eq_false_of_isFinite ha, isInf_eq_false_of_isFinite hb, Bool.or_self, Bool.false_eq_true, if_false]
  rw [hround, ← fVal_natAbs, ← fVal_natAbs, ← Int.natAbs_mul, roundSigned]
  by_cases h0 : fVal a * fVal b = 0
  · rw [if_pos h0, h0, Int.natAbs_zero, roundMag_zero (Nat.two_pow_pos 149)]
    cases fSign a != fSign b <;> rfl
  · rw [if_neg h0, decide_fVal_mul_neg (left_ne_zero_of_mul h0) (right_ne_zero_of_mul h0)]

/-- The fused `a·b + c` of finite operands is one rounding of the exact value (R73). -/
theorem fmaCore_finite {a b c : Word} (nan : Word) (ha : isFinite a = true) (hb : isFinite b = true)
    (hc : isFinite c = true) :
    fmaCore nan a b c = roundSigned ((fSign a != fSign b) && fSign c)
      (fVal a * fVal b + fVal c * 2 ^ 149) (2 ^ 149) := by
  simp only [fmaCore, isNaN_eq_false_of_isFinite ha, isNaN_eq_false_of_isFinite hb,
    isNaN_eq_false_of_isFinite hc, isInf_eq_false_of_isFinite ha, isInf_eq_false_of_isFinite hb,
    isInf_eq_false_of_isFinite hc, Bool.or_self, Bool.false_eq_true, if_false]

section
variable {a b c : Word} (nan : Word) (ha : isFinite a = true) (hb : isFinite b = true)
include ha hb

theorem roundedFrom_fadd :
    RoundedFrom (fadd false nan a b) (fSign a && fSign b) (fVal a + fVal b) 1 := by
  rw [fadd, flush_false, flush_false, flush_false, addCore_finite nan ha hb]
  exact roundedFrom_roundSigned _ _ Nat.one_pos

theorem roundedFrom_fsub :
    RoundedFrom (fsub false nan a b) (fSign a && !fSign b) (fVal a - fVal b) 1 := by
  have h := roundedFrom_fadd nan ha ((isFinite_fneg b).trans hb)
  rwa [fSign_fneg, fVal_fneg, ← sub_eq_add_neg] at h

theorem roundedFrom_fmul :
    RoundedFrom (fmul false nan a b) (fSign a != fSign b) (fVal a * fVal b) (2 ^ 149) := by
  rw [fmul, flush_false, flush_false, flush_false, mulCore_finite nan ha hb]
  exact roundedFrom_roundSigned _ _ (Nat.two_pow_pos 149)

theorem roundedFrom_ffma (hc : isFinite c = true) :
    RoundedFrom (ffma false nan a b c) ((fSign a != fSign b) && fSign c)
      (fVal a * fVal b + fVal c * 2 ^ 149) (2 ^ 149) := by
  rw [ffma, flush_false, flush_false, flush_false, flush_false, fmaCore_finite nan ha hb hc]
  exact roundedFrom_roundSigned _ _ (Nat.two_pow_pos 149)

end

/-- `FTZ` on one word, as the statement writes it (R72). -/
theorem flush_true_eq (w : Word) :
    flush true w = if isSubnormal w then (if fSign w then 0x80000000#32 else 0x00000000#32) else w := by
  rw [flush, Bool.true_and]; rfl

/-- Settles O54: each operation is one `roundSigned` of the exact result, and `FTZ` stands around the
same core; negating the second operand commutes with it (`flush_fneg`). -/
theorem roundingIsNearestTiesToEven : Obligations.RoundingIsNearestTiesToEven := by
  refine ⟨fun zeroNeg v d => roundedFrom_roundSigned zeroNeg v, fun nan a b c ha hb hc => ?_,
    fun nan a b c => ?_⟩
  · exact ⟨roundedFrom_fadd nan ha hb, roundedFrom_fsub nan ha hb, roundedFrom_fmul nan ha hb,
      roundedFrom_ffma nan ha hb hc⟩
  · simp only [← flush_true_eq, fsub, fadd, fmul, ffma, flush_false, flush_fneg, and_self]

/-! ### NaN results (R72) -/

theorem quietNaN_toNat (bits : BitVec 23) :
    (quietNaN bits).toNat = bits.toNat / 2 ^ 22 * 2 ^ 31 + 0x7FC00000 + bits.toNat % 2 ^ 22 := by
  have hbits := bits.isLt
  rw [quietNaN, BitVec.toNat_ofNat, Nat.mod_eq_of_lt (by omega)]

theorem isNaN_quietNaN (bits : BitVec 23) : isNaN (quietNaN bits) = true := by
  have hbits := bits.isLt
  simp only [isNaN, fExp, fFrac, quietNaN_toNat, Bool.and_eq_true, decide_eq_true_eq]
  omega

theorem quietNaN_quietBit (bits : BitVec 23) : (quietNaN bits).getLsbD 22 = true := by
  have hbits := bits.isLt
  rw [BitVec.getLsbD, quietNaN_toNat, Nat.testBit_eq_decide_div_mod_eq, decide_eq_true_eq]
  omega

theorem isFinite_of_not_nan_inf {w : Word} (hnan : isNaN w = false) (hinf : isInf w = false) :
    isFinite w = true := by
  simp only [isNaN, isInf, isFinite, Bool.and_eq_false_iff, decide_eq_false_iff_not, not_not,
    decide_eq_true_eq] at hnan hinf ⊢
  omega

theorem isNaN_eq_false_of_isInf {w : Word} (h : isInf w = true) : isNaN w = false := by
  simp only [isInf, Bool.and_eq_true, decide_eq_true_eq] at h
  obtain ⟨-, hfrac⟩ := h
  simp only [isNaN, hfrac, ne_eq, not_true_eq_false, decide_false, Bool.and_false]

@[simp] theorem isNaN_signedInf (neg : Bool) : isNaN (signedInf neg) = false := by cases neg <;> decide

/-- A rounded magnitude is finite or an infinity. -/
theorem isNaN_withSign_roundMag (neg : Bool) (n d : Nat) : isNaN (withSign neg (roundMag n d)) = false := by
  have hle : roundMag n d ≤ 0x7F800000 := Nat.min_le_right _ _
  simp only [isNaN, fExp_withSign neg _ (show roundMag n d < 2 ^ 31 by omega),
    fFrac_withSign neg _ (show roundMag n d < 2 ^ 31 by omega), Bool.and_eq_false_iff,
    decide_eq_false_iff_not]
  omega

theorem isNaN_roundSigned (zeroNeg : Bool) (v : Int) (d : Nat) : isNaN (roundSigned zeroNeg v d) = false := by
  unfold roundSigned
  split
  · exact isNaN_eq_false_of_isFinite (isFinite_signedZero zeroNeg)
  · exact isNaN_withSign_roundMag _ _ _

theorem addCore_of_isNaN {nan a b : Word} (h : isNaN (addCore nan a b) = true) : addCore nan a b = nan := by
  unfold addCore at h ⊢
  split_ifs at h ⊢ with hop hinfa hsign hinfb
  · rfl
  · rfl
  · rw [isNaN_eq_false_of_isInf hinfa] at h; cases h
  · rw [isNaN_eq_false_of_isInf hinfb] at h; cases h
  · rw [isNaN_roundSigned] at h; cases h

theorem mulCore_of_isNaN {nan a b : Word} (h : isNaN (mulCore nan a b) = true) : mulCore nan a b = nan := by
  unfold mulCore at h ⊢
  split_ifs at h ⊢
  · rfl
  · rfl
  · rw [isNaN_signedInf] at h; cases h
  · rw [isNaN_withSign_roundMag] at h; cases h

theorem fmaCore_of_isNaN {nan a b c : Word} (h : isNaN (fmaCore nan a b c) = true) :
    fmaCore nan a b c = nan := by
  unfold fmaCore at h ⊢
  split_ifs at h ⊢ with hop hinf hzero hsign hinfc
  · rfl
  · rfl
  · rfl
  · rw [isNaN_signedInf] at h; cases h
  · rw [isNaN_eq_false_of_isInf hinfc] at h; cases h
  · rw [isNaN_roundSigned] at h; cases h

/-- What is a NaN after a flush was not flushed. -/
theorem flush_of_isNaN {ftz : Bool} {w : Word} (h : isNaN (flush ftz w) = true) : flush ftz w = w := by
  unfold flush at h ⊢
  split_ifs at h ⊢
  · rw [isNaN_eq_false_of_isFinite (isFinite_signedZero _)] at h; cases h
  · rfl

/-- An operation whose core gives `nan` as its only NaN gives it after its flush too. -/
theorem flush_eq_of_isNaN {ftz : Bool} {r nan : Word} (hcore : isNaN r = true → r = nan)
    (h : isNaN (flush ftz r) = true) : flush ftz r = nan := by
  have hkept := flush_of_isNaN h
  rw [hkept] at h ⊢
  exact hcore h

/-- Settles O55: the only NaN a core gives is the pattern it was handed. -/
theorem nanResultIsTheDrawnQuietNan : Obligations.NanResultIsTheDrawnQuietNan :=
  ⟨fun bits => ⟨isNaN_quietNaN bits, quietNaN_quietBit bits⟩, fun _ _ _ _ _ =>
    ⟨flush_eq_of_isNaN addCore_of_isNaN, flush_eq_of_isNaN mulCore_of_isNaN,
      flush_eq_of_isNaN fmaCore_of_isNaN⟩⟩

/-! ### A sum with +0.0 (R74) -/

/-- A magnitude that 24 bits hold at the last place `2^k` is rounded to its own pattern. -/
theorem roundMag_of_significand {m k : Nat} (hm : m < 2 ^ 24) (hk : k = 0 ∨ 2 ^ 23 ≤ m)
    (hfin : k * 2 ^ 23 + m ≤ 0x7F800000) : roundMag (m * 2 ^ k) 1 = k * 2 ^ 23 + m := by
  have hle : roundShift (m * 2 ^ k) 1 ≤ k := by
    apply roundShift_le
    rw [Nat.div_one, Nat.pow_add]
    exact Nat.mul_lt_mul_of_pos_right hm (Nat.two_pow_pos k)
  have hge : k ≤ roundShift (m * 2 ^ k) 1 := by
    obtain rfl | hm' := hk
    · exact Nat.zero_le _
    · have hlow : 2 ^ (23 + k) ≤ m * 2 ^ k := by
        rw [Nat.pow_add]
        exact Nat.mul_le_mul_right _ hm'
      have hlog := (Nat.le_log2 (Nat.pos_iff_ne_zero.1 (Nat.lt_of_lt_of_le (Nat.two_pow_pos _) hlow))).2 hlow
      rw [roundShift, Nat.div_one]
      omega
  have hpos := Nat.two_pow_pos k
  rw [roundMag, Nat.le_antisymm hle hge, Nat.one_mul, roundHalfEven_of_dvd hpos (Nat.mul_mod_left m _),
    Nat.mul_div_cancel m hpos, Nat.min_eq_left hfin]

theorem roundMag_fMag {w : Word} (h : isFinite w = true) :
    roundMag (fMag w) 1 = fExp w * 2 ^ 23 + fFrac w := by
  have hexp := fExp_lt w
  have hfrac := fFrac_lt w
  have hfin : fExp w ≠ 255 := by simpa [isFinite] using h
  unfold fMag
  by_cases h0 : fExp w = 0
  · rw [if_pos h0, h0]
    simpa using roundMag_of_significand (m := fFrac w) (k := 0) (by omega) (.inl rfl) (by omega)
  · rw [if_neg h0, roundMag_of_significand (by omega) (.inr (by omega)) (by omega)]
    omega

/-- A finite value is rounded to itself, pattern for pattern, unless it is a zero. -/
theorem roundSigned_fVal {w : Word} (zeroNeg : Bool) (h : isFinite w = true) (h0 : fVal w ≠ 0) :
    roundSigned zeroNeg (fVal w) 1 = w := by
  rw [roundSigned, if_neg h0, decide_fVal_neg h0, fVal_natAbs, roundMag_fMag h, withSign_fields]

@[simp] theorem flush_signedZero (ftz neg : Bool) : flush ftz (signedZero neg) = signedZero neg := by
  cases ftz <;> cases neg <;> decide

theorem flush_flush (ftz : Bool) (w : Word) : flush ftz (flush ftz w) = flush ftz w := by
  by_cases h : (ftz && isSubnormal w) = true
  · have hflushed : flush ftz w = signedZero (fSign w) := if_pos h
    rw [hflushed, flush_signedZero]
  · have hkept : flush ftz w = w := if_neg h
    rw [hkept, hkept]

/-- The sum of +0.0 and a value that is no NaN: a zero becomes +0.0, any other value is kept. -/
theorem addCore_posZero_left {w : Word} (nan : Word) (hnan : isNaN w = false) :
    addCore nan posZero w = if fVal w = 0 then posZero else w := by
  cases hinf : isInf w with
  | true =>
    have h0 : fVal w ≠ 0 := by
      rw [ne_eq, fVal_eq_zero_iff]
      rintro (rfl | rfl) <;> exact absurd hinf (by decide)
    have hnan0 : isNaN posZero = false := by decide
    have hinf0 : isInf posZero = false := by decide
    rw [if_neg h0, addCore]
    simp only [hnan, hinf, hnan0, hinf0, Bool.or_self, Bool.false_eq_true, if_false, if_true]
  | false =>
    have hfin := isFinite_of_not_nan_inf hnan hinf
    obtain ⟨hfin0, hsign0, hval0⟩ :
        isFinite posZero = true ∧ fSign posZero = false ∧ fVal posZero = 0 := by decide
    rw [addCore_finite nan hfin0 hfin, hsign0, hval0, Bool.false_and, zero_add]
    by_cases h0 : fVal w = 0
    · rw [if_pos h0, h0]; rfl
    · rw [if_neg h0, roundSigned_fVal false hfin h0]

/-- +0.0 plus a value that is no NaN and that the flush keeps: only -0.0 changes. -/
theorem fadd_posZero_left {ftz : Bool} {w : Word} (nan : Word) (hnan : isNaN w = false)
    (hkept : flush ftz w = w) :
    fadd ftz nan posZero w = if w = 0x80000000#32 then posZero else w := by
  have hzero : flush ftz posZero = posZero := flush_signedZero ftz false
  rw [fadd, hzero, hkept, addCore_posZero_left nan hnan]
  by_cases h0 : fVal w = 0
  · rw [if_pos h0, hzero]
    obtain rfl | rfl := fVal_eq_zero_iff.1 h0 <;> rfl
  · have hne : w ≠ 0x80000000#32 := fun h => h0 (fVal_eq_zero_iff.2 (.inr h))
    rw [if_neg h0, if_neg hne, hkept]

/-- Settles O56: the product is a flush already, so the flush of the sum's operand keeps it. -/
theorem zeroStartChangesOnlyNegativeZero : Obligations.ZeroStartChangesOnlyNegativeZero := by
  intro p nan site c v hfused hnan
  rw [mac, if_neg (by simp [hfused])]
  exact fadd_posZero_left _ hnan (flush_flush _ _)

end Sys2Proof.Machine
end

section
/-! R92, R94 to R96, R100, 41_lfsr_and_lut.md: the lane step is a bijection that respects XOR, so the value
after `n` steps from anywhere follows from the value after `n` steps from 1 (`lfsrSteps_eq_stepsSum`). This
gives the ROM address after 4 steps, and long runs from 1 by squaring, which settle the period. -/

namespace Sys2Proof.Machine

/-! ### One step and its inverse (R94) -/

/-- A shift by 1 and back loses bit 15 alone. -/
theorem getLsbD_shiftLeft_ushiftRight_one (v : Lane) (i : Nat) :
    ((v <<< 1) >>> 1).getLsbD i = (decide (i < 15) && v.getLsbD i) := by
  rw [BitVec.getLsbD_ushiftRight, BitVec.getLsbD_shiftLeft, Nat.add_sub_cancel_left]
  have hlt : 1 + i < 16 ↔ i < 15 := by omega
  simp [hlt]

/-- The inverse tells from bit 0 whether bit 15 was set: the shift clears bit 0 and the tap mask sets it. -/
theorem lfsrUnstep_lfsrStep (v : Lane) : lfsrUnstep (lfsrStep v) = v := by
  cases htop : v.getLsbD 15 with
  | true =>
    have hlow : ((v <<< 1) ^^^ tapMask).getLsbD 0 = true := by
      rw [BitVec.getLsbD_xor, BitVec.getLsbD_shiftLeft]; rfl
    rw [lfsrStep, if_pos htop, lfsrUnstep, if_pos hlow, BitVec.xor_assoc, BitVec.xor_self, BitVec.xor_zero]
    refine BitVec.eq_of_getLsbD_eq fun i hi => ?_
    have htopBit : ∀ i < 16, (0x8000#16).getLsbD i = decide (i = 15) := by decide
    rw [BitVec.getLsbD_or, getLsbD_shiftLeft_ushiftRight_one, htopBit i hi]
    obtain rfl | hlt : i = 15 ∨ i < 15 := by omega
    · rw [htop]; rfl
    · simp [hlt, Nat.ne_of_lt hlt]
  | false =>
    have hlow : ¬ (v <<< 1).getLsbD 0 = true := by simp
    rw [lfsrStep, if_neg (ne_true_of_eq_false htop), lfsrUnstep, if_neg hlow]
    refine BitVec.eq_of_getLsbD_eq fun i hi => ?_
    rw [getLsbD_shiftLeft_ushiftRight_one]
    obtain rfl | hlt : i = 15 ∨ i < 15 := by omega
    · rw [htop]; rfl
    · rw [decide_eq_true hlt, Bool.true_and]

theorem lfsrStep_injective : Function.Injective lfsrStep :=
  Function.LeftInverse.injective lfsrUnstep_lfsrStep

/-- Settles O41: the rule's inverse undoes the step, and an injection of a finite type is a bijection. -/
theorem lfsrStepIsABijection : Obligations.LfsrStepIsABijection :=
  ⟨Finite.injective_iff_bijective.1 lfsrStep_injective, lfsrUnstep_lfsrStep, rfl,
    fun _ => lfsrStep_ne_zero⟩

/-! ### The steps respect XOR -/

theorem lfsrStep_xor (a b : Lane) : lfsrStep (a ^^^ b) = lfsrStep a ^^^ lfsrStep b := by
  unfold lfsrStep
  rw [BitVec.getLsbD_xor, BitVec.shiftLeft_xor_distrib]
  cases a.getLsbD 15 <;> cases b.getLsbD 15
  · rfl
  · exact BitVec.xor_assoc ..
  · simp [BitVec.xor_assoc, BitVec.xor_comm tapMask]
  · simp [BitVec.xor_assoc, BitVec.xor_comm tapMask]

theorem lfsrSteps_eq_iterate (n : Nat) (v : Lane) : lfsrSteps n v = lfsrStep^[n] v := by
  induction n generalizing v with
  | zero => rfl
  | succ n ih => exact ih (lfsrStep v)

theorem lfsrSteps_add (m n : Nat) (v : Lane) : lfsrSteps (m + n) v = lfsrSteps n (lfsrSteps m v) := by
  simp only [lfsrSteps_eq_iterate, ← Function.iterate_add_apply, Nat.add_comm]

theorem lfsrSteps_zero_value (n : Nat) : lfsrSteps n 0#16 = 0#16 := by
  induction n with
  | zero => rfl
  | succ n ih => exact ih

theorem lfsrSteps_xor (n : Nat) (a b : Lane) :
    lfsrSteps n (a ^^^ b) = lfsrSteps n a ^^^ lfsrSteps n b := by
  induction n generalizing a b with
  | zero => rfl
  | succ n ih => rw [lfsrSteps, lfsrStep_xor, ih]; rfl

/-- The XOR of those of `a`, one step of `a`, ..., `n - 1` steps of `a` whose number is a set bit of `c`. -/
def stepsSum (c : Lane) : Nat → Lane → Lane
  | 0, _ => 0#16
  | n + 1, a => stepsSum c n a ^^^ if c.getLsbD n then lfsrSteps n a else 0#16

theorem lfsrSteps_stepsSum (m n : Nat) (c a : Lane) :
    lfsrSteps m (stepsSum c n a) = stepsSum c n (lfsrSteps m a) := by
  induction n with
  | zero => exact lfsrSteps_zero_value m
  | succ n ih =>
    rw [stepsSum, stepsSum, lfsrSteps_xor, ih, apply_ite (lfsrSteps m), lfsrSteps_zero_value,
      ← lfsrSteps_add, ← lfsrSteps_add, Nat.add_comm]

/-- The tap mask plays no part before the set bit of 1 has reached bit 15. -/
theorem lfsrSteps_one_of_lt : ∀ n < 16, lfsrSteps n 1#16 = BitVec.twoPow 16 n := by decide

theorem getLsbD_stepsSum_one (c : Lane) {n i : Nat} (hn : n ≤ 16) :
    (stepsSum c n 1#16).getLsbD i = (decide (i < n) && c.getLsbD i) := by
  induction n with
  | zero => simp [stepsSum]
  | succ n ih =>
    have hterm : (if c.getLsbD n then lfsrSteps n 1#16 else 0#16).getLsbD i =
        (decide (i = n) && c.getLsbD i) := by
      rw [lfsrSteps_one_of_lt n hn, apply_ite (BitVec.getLsbD · i), BitVec.getLsbD_twoPow]
      by_cases hi : i = n
      · simp [hi, Nat.lt_of_succ_le hn]
      · simp [hi, Ne.symm hi]
    rw [stepsSum, BitVec.getLsbD_xor, ih (by omega), hterm]
    obtain hlt | rfl | hgt := Nat.lt_trichotomy i n
    · simp [hlt, Nat.ne_of_lt hlt, Nat.lt_succ_of_lt hlt]
    · simp
    · simp [Nat.not_lt_of_gt hgt, Nat.ne_of_gt hgt, Nat.not_le_of_gt hgt]

/-- A lane value is the XOR of the steps of 1 at its set bits. -/
theorem stepsSum_one (c : Lane) : stepsSum c 16 1#16 = c := by
  refine BitVec.eq_of_getLsbD_eq fun i hi => ?_
  rw [getLsbD_stepsSum_one c (Nat.le_refl 16), decide_eq_true hi, Bool.true_and]

/-- The steps of any value from the steps of 1. -/
theorem lfsrSteps_eq_stepsSum (n : Nat) (v : Lane) :
    lfsrSteps n v = stepsSum v 16 (lfsrSteps n 1#16) := by
  conv_lhs => rw [← stepsSum_one v]
  exact lfsrSteps_stepsSum n 16 v 1#16

/-! ### The ROM address after 4 steps (R100) -/

theorem quantize_xor (a b : Lane) :
    (quantize (a ^^^ b)).val = (quantize a).val ^^^ (quantize b).val := by
  simp only [quantize, BitVec.toNat_xor]
  exact Nat.xor_mod_two_pow (n := 4)

/-- One more bit of the sum in the ROM address. -/
theorem quantize_stepsSum_succ (c a : Lane) (n : Nat) :
    (quantize (stepsSum c (n + 1) a)).val =
      (quantize (stepsSum c n a)).val ^^^ if c.getLsbD n then (quantize (lfsrSteps n a)).val else 0 := by
  rw [stepsSum, quantize_xor, apply_ite quantize, apply_ite Fin.val]
  rfl

/-- Bits 0 to 11 are still above the ROM address, and below the tap, after 4 steps. -/
theorem quantize_stepsSum_low (v : Lane) {n : Nat} (hn : n ≤ 12) :
    (quantize (stepsSum v n (lfsrSteps 4 1#16))).val = 0 := by
  induction n with
  | zero => rfl
  | succ n ih =>
    have hzero : ∀ k < 12, (quantize (lfsrSteps k (lfsrSteps 4 1#16))).val = 0 := by decide
    rw [quantize_stepsSum_succ, ih (by omega), hzero n hn, ite_self, Nat.xor_self]

/-- Settles O43: of the steps of 1 that make up the value after 4 steps, only those of bits 12 to 15 reach
the ROM address. -/
theorem romAddressFromTopFourBits : Obligations.RomAddressFromTopFourBits := by
  intro v
  have htop : (quantize (lfsrSteps 15 (lfsrSteps 4 1#16))).val = 0x8 ∧
      (quantize (lfsrSteps 14 (lfsrSteps 4 1#16))).val = 0xC ∧
      (quantize (lfsrSteps 13 (lfsrSteps 4 1#16))).val = 0x6 ∧
      (quantize (lfsrSteps 12 (lfsrSteps 4 1#16))).val = 0xB := by decide +kernel
  obtain ⟨h15, h14, h13, h12⟩ := htop
  rw [lfsrSteps_eq_stepsSum, quantize_stepsSum_succ, quantize_stepsSum_succ, quantize_stepsSum_succ,
    quantize_stepsSum_succ, quantize_stepsSum_low v (Nat.le_refl 12), h15, h14, h13, h12, Nat.zero_xor]
  ac_rfl

/-! ### Long runs from 1, by squaring -/

theorem lfsrSteps_one_add (m n : Nat) :
    lfsrSteps (m + n) 1#16 = stepsSum (lfsrSteps m 1#16) 16 (lfsrSteps n 1#16) := by
  rw [lfsrSteps_add, lfsrSteps_eq_stepsSum]

/-- What stands after twice as many steps from 1 as lead to `a`. -/
def doubled (a : Lane) : Lane := stepsSum a 16 a

theorem lfsrSteps_one_two_pow_mul (j n : Nat) :
    lfsrSteps (2 ^ j * n) 1#16 = doubled^[j] (lfsrSteps n 1#16) := by
  induction j with
  | zero => rw [Nat.pow_zero, Nat.one_mul]; rfl
  | succ j ih =>
    rw [Function.iterate_succ_apply', ← ih, Nat.pow_succ, Nat.mul_assoc, Nat.mul_left_comm, Nat.two_mul,
      lfsrSteps_one_add]
    rfl

theorem lfsrSteps_one_257_mul (n : Nat) :
    lfsrSteps (257 * n) 1#16 = stepsSum (doubled^[8] (lfsrSteps n 1#16)) 16 (lfsrSteps n 1#16) := by
  rw [← lfsrSteps_one_two_pow_mul, ← lfsrSteps_one_add, ← Nat.succ_mul]
  rfl

/-! ### The period (R95) -/

/-- From 1 the step returns after 65535 steps, and not after 65535 divided by one of its prime factors,
17, 5, 3 and 257. -/
theorem lfsrSteps_one_at_divisors :
    lfsrSteps 65535 1#16 = 1#16 ∧ lfsrSteps 3855 1#16 ≠ 1#16 ∧ lfsrSteps 13107 1#16 ≠ 1#16 ∧
      lfsrSteps 21845 1#16 ≠ 1#16 ∧ lfsrSteps 255 1#16 ≠ 1#16 := by
  refine ⟨?_, ?_, ?_, ?_, by decide +kernel⟩
  · rw [show 65535 = 257 * 255 from rfl, lfsrSteps_one_257_mul]; decide +kernel
  · rw [show 3855 = 257 * 15 from rfl, lfsrSteps_one_257_mul]; decide +kernel
  · rw [show 13107 = 257 * 51 from rfl, lfsrSteps_one_257_mul]; decide +kernel
  · rw [show 21845 = 257 * 85 from rfl, lfsrSteps_one_257_mul]; decide +kernel

/-- A proper divisor divides the number over some prime factor. -/
theorem exists_prime_dvd_div_of_dvd {d n : Nat} (hd : d ∣ n) (hne : d ≠ n) :
    ∃ q, q.Prime ∧ q ∣ n ∧ d ∣ n / q := by
  obtain ⟨m, rfl⟩ := hd
  have hm : m ≠ 1 := fun h => hne (by rw [h, Nat.mul_one])
  obtain ⟨q, hq, k, rfl⟩ := Nat.exists_prime_and_dvd hm
  refine ⟨q, hq, ⟨d * k, Nat.mul_left_comm d q k⟩, k, ?_⟩
  rw [Nat.mul_left_comm, Nat.mul_div_cancel_left _ hq.pos]

theorem eq_of_prime_of_dvd_65535 {q : Nat} (hq : q.Prime) (hdvd : q ∣ 65535) :
    q = 3 ∨ q = 5 ∨ q = 17 ∨ q = 257 := by
  rw [show 65535 = 3 * 5 * 17 * 257 from rfl] at hdvd
  simpa (disch := norm_num) only [hq.dvd_mul, Nat.prime_dvd_prime_iff_eq hq, or_assoc] using hdvd

theorem minimalPeriod_lfsrStep_one : Function.minimalPeriod lfsrStep 1#16 = 65535 := by
  obtain ⟨hall, h17, h5, h3, h257⟩ := lfsrSteps_one_at_divisors
  simp only [lfsrSteps_eq_iterate] at hall h17 h5 h3 h257
  by_contra hne
  obtain ⟨q, hq, hdvd, hper⟩ :=
    exists_prime_dvd_div_of_dvd (Function.IsPeriodicPt.minimalPeriod_dvd hall) hne
  have hback : lfsrStep^[65535 / q] 1#16 = 1#16 :=
    Function.isPeriodicPt_iff_minimalPeriod_dvd.2 hper
  obtain rfl | rfl | rfl | rfl := eq_of_prime_of_dvd_65535 hq hdvd
  · exact h3 hback
  · exact h5 hback
  · exact h17 hback
  · exact h257 hback

/-- A non-zero value with the full period visits every non-zero value: the 65535 values of one round are
distinct and non-zero, and there are no more. -/
theorem exists_lfsrSteps_eq {v w : Lane} (hv : v ≠ 0#16) (hw : w ≠ 0#16)
    (hperiod : Function.minimalPeriod lfsrStep v = 65535) : ∃ n, n < 65535 ∧ lfsrSteps n v = w := by
  have hmaps : ∀ n ∈ Finset.range 65535, (lfsrSteps n v).toNat ∈ Finset.Ico 1 65536 := fun n _ =>
    Finset.mem_Ico.2 ⟨Nat.pos_of_ne_zero fun h => lfsrSteps_ne_zero n hv (BitVec.eq_of_toNat_eq h),
      (lfsrSteps n v).isLt⟩
  have hinj : Set.InjOn (fun n => (lfsrSteps n v).toNat) (Finset.range 65535) := by
    intro m hm n hn heq
    refine Function.iterate_injOn_Iio_minimalPeriod (f := lfsrStep) (x := v) ?_ ?_ ?_
    · simpa [hperiod] using hm
    · simpa [hperiod] using hn
    · simpa only [lfsrSteps_eq_iterate] using BitVec.eq_of_toNat_eq heq
  have hsurj := Finset.surjOn_of_injOn_of_card_le _ hmaps hinj (by simp)
  have hmem : w.toNat ∈ Finset.Ico 1 65536 :=
    Finset.mem_Ico.2 ⟨Nat.pos_of_ne_zero fun h => hw (BitVec.eq_of_toNat_eq h), w.isLt⟩
  obtain ⟨n, hn, heq⟩ := hsurj hmem
  exact ⟨n, Finset.mem_range.1 hn, BitVec.eq_of_toNat_eq heq⟩

/-- Every non-zero value is on the round of 1, so it has the period of 1. -/
theorem minimalPeriod_lfsrStep {v : Lane} (hv : v ≠ 0#16) : Function.minimalPeriod lfsrStep v = 65535 := by
  obtain ⟨n, -, rfl⟩ := exists_lfsrSteps_eq (by decide) hv minimalPeriod_lfsrStep_one
  have hperiodic : 1#16 ∈ Function.periodicPts lfsrStep :=
    Function.minimalPeriod_pos_iff_mem_periodicPts.1 (by rw [minimalPeriod_lfsrStep_one]; decide)
  rw [lfsrSteps_eq_iterate, Function.minimalPeriod_apply_iterate hperiodic, minimalPeriod_lfsrStep_one]

/-- Settles O42: every non-zero value has minimal period 65535, and one round holds all of them. -/
theorem lfsrPeriodIsMaximal : Obligations.LfsrPeriodIsMaximal := by
  intro v hv
  have hperiod := minimalPeriod_lfsrStep hv
  refine ⟨?_, fun n hpos hlt hback => ?_, fun w hw => exists_lfsrSteps_eq hv hw hperiod⟩
  · rw [lfsrSteps_eq_iterate, ← hperiod, Function.iterate_minimalPeriod]
  · rw [lfsrSteps_eq_iterate] at hback
    exact Function.not_isPeriodicPt_of_pos_of_lt_minimalPeriod (Nat.ne_of_gt hpos) (hperiod ▸ hlt) hback

end Sys2Proof.Machine
end

section
/-! R107, R110 to R112, 42_grid_oscillator.md: the oscillator commands that write `dt` or nothing. -/

namespace Sys2Proof.Machine

/-- An oscillator command that writes its engine only and completes with the given data. -/
theorem oscillatorCommand_respond (s : State) (o : Oscillator) (n : Nat) (d : Word) :
    OscillatorCommand d s (respond .ok d { s with go := o, goNanTick := n }) :=
  ⟨⟨rfl, rfl⟩, ⟨rfl, rfl⟩, rfl⟩

/-- Settles O13. -/
theorem setDtStoresAnyPattern : Obligations.SetDtStoresAnyPattern := by
  refine ⟨fun v => encode_of_number (by simp only [Instr.opcode, opcodeNumber, Instr.operands]; omega),
    fun s v => ?_⟩
  have hexec : exec (.goSetDt v) s = done posZero { s with go := { s.go with dt := v } } := rfl
  exact ⟨_, hexec, rfl, rfl, rfl, rfl, rfl, rfl, rfl, rfl, rfl, oscillatorCommand_respond s _ _ _⟩

/-- Settles O18: the command only responds, with the value by corner and component. -/
theorem getCellReturnsGridValue : Obligations.GetCellReturnsGridValue := by
  refine ⟨fun c k m => encode_of_number ?_, fun s c k m => ?_⟩
  · cases k <;> cases m <;>
      simp only [Instr.opcode, opcodeNumber, Instr.operands, cornerBits, compBits] <;> omega
  · have hexec : exec (.goGetCell c k m) s = done (vertexComp (cellCorner s.go.cell[c] k) m) s := rfl
    refine ⟨_, hexec, ?_⟩
    have hresp := onlyResponded_respond .ok (vertexComp (cellCorner s.go.cell[c] k) m) s
    cases k <;> cases m <;> exact hresp

/-- Settles O19: a zero-extended lane has the lane's number, so it is 0 only where the lane is. -/
theorem getLfsrReturnsLaneZeroExtended : Obligations.GetLfsrReturnsLaneZeroExtended := by
  refine ⟨fun j => encode_of_number (by simp only [Instr.opcode, opcodeNumber, Instr.operands]; omega),
    fun s j => ?_⟩
  have hexec : exec (.goGetLfsr j) s = done (s.go.lfsr[j].setWidth 32) s := rfl
  have hdata : (s.go.lfsr[j].setWidth 32).toNat = s.go.lfsr[j].toNat :=
    BitVec.toNat_setWidth_of_le (by decide)
  refine ⟨_, _, hexec, hdata, onlyResponded_respond _ _ s, fun hlanes hzero => hlanes j ?_⟩
  rw [hzero] at hdata
  exact BitVec.eq_of_toNat_eq hdata.symm

/-- Settles O20, by `SEL`: 0 to 5 name a register, and the others name none. -/
theorem getStatusSelectsRegister : Obligations.GetStatusSelectsRegister := by
  refine ⟨fun sel => encode_of_number (by simp only [Instr.opcode, opcodeNumber, Instr.operands]; omega),
    fun s sel => ?_⟩
  have answers {v : Word} (h : statusRegister s.go sel = some v) :
      ∃ t, exec (.goGetStatus sel) s = .next t ∧ OnlyResponded .ok v s t :=
    ⟨_, exec_goGetStatus_some h, onlyResponded_respond _ _ s⟩
  match sel with
  | 0 => exact answers rfl
  | 1 => exact answers rfl
  | 2 => exact answers rfl
  | 3 => exact answers rfl
  | 4 => exact answers rfl
  | 5 => exact answers rfl
  | n + 6 =>
    refine ⟨_, exec_goGetStatus_none rfl, ?_⟩
    simpa [conditionStatus] using onlyResponded_respond .illegalCommand posZero s

end Sys2Proof.Machine
end

section
/-! R99, R102, R103, R109, R115, 42_grid_oscillator.md: a row advance cell by cell, and the splice of a grid
whose boundary cell shares its edge already. -/

namespace Sys2Proof.Machine

/-- R99: a batch's vertex is read from the two lanes of its column, each stepped on its own. -/
theorem genRow_eq_rowVertex (t : Config.SineLut) (l : Seed) (c : Fin 32) :
    (genRow t l)[c] = rowVertex t l c := by
  have hlane (n : Nat) (hn : n < 8) : (batchLanes l (c.val / 4))[n] = lfsrSteps (4 * (c.val / 4 + 1)) l[n] :=
    lanesSteps_getElem _ l ⟨n, hn⟩
  simp only [genRow_getElem, batchVertex, rowVertex, hlane]

theorem genRowLanes_getElem (l : Seed) (j : Fin 8) : (genRowLanes l)[j] = lfsrSteps 32 l[j] :=
  lanesSteps_getElem 32 l j

theorem eq_cellIdx_iff {n : Nat} (hn : n < 32) (c : Fin 32) : c = cellIdx n ↔ c.val = n := by
  rw [Fin.ext_iff, cellIdx_of_lt hn]

/-- The right corners after a row advance are the left corners of the neighbour of R103, for every `W`:
the reseam writes the boundary cell only. -/
theorem rightOf_rowAdvanceGrid (p : Config.Params) (W : Nat) (l : Seed) (g : Grid) (c : Fin 32) :
    RightOf (rowAdvanceGrid p W l g) c (rowNeighbour p W c) := by
  have hrow := rightOf_recomputeRight (shiftedGrid (genRow p.sineLut l) g) c
  unfold rowAdvanceGrid rowNeighbour
  by_cases hseam : p.reseamOnRowAdvance = true ∧ W < 32
  · obtain ⟨hp, hW⟩ := hseam
    have hboundary := eq_cellIdx_iff (n := W - 1) (by omega) c
    simp only [hp, hW, decide_true, Bool.and_self, if_true, true_and, splice]
    by_cases hc : c.val = W - 1
    · rw [if_pos hc, ← hboundary.2 hc]
      exact rightOf_copyRight_self c 0 _
    · rw [if_neg hc]
      exact rightOf_copyRight_of_ne (hboundary.not.2 hc) hrow
  · rw [if_neg (by simpa using hseam), if_neg fun h => hseam ⟨h.1, h.2.1⟩]
    exact hrow

/-- WHAT A ROW ADVANCE DOES at each cell (R103). -/
theorem rowAdvanceGrid_spec (p : Config.Params) (W : Nat) (l : Seed) (g : Grid) (c : Fin 32) :
    let g' := rowAdvanceGrid p W l g
    g'[c].LL = g[c].UL ∧ g'[c].UL = rowVertex p.sineLut l c ∧
      g'[c].LR = g'[rowNeighbour p W c].LL ∧ g'[c].UR = g'[rowNeighbour p W c].UL := by
  obtain ⟨hLL, hUL⟩ := rowAdvanceGrid_left p W l g c
  exact ⟨hLL, hUL.trans (genRow_eq_rowVertex _ l c), rightOf_rowAdvanceGrid p W l g c⟩

/-- Settles O17. -/
theorem rowAdvanceShiftsAndGenerates : Obligations.RowAdvanceShiftsAndGenerates := by
  refine ⟨encode_of_number rfl, fun s => ?_⟩
  have hexec : exec .goRowAdvance s = done posZero { s with go := s.go.rowAdvance s.params } := rfl
  exact ⟨_, hexec, rowAdvanceGrid_spec s.params s.go.W s.go.lfsr s.go.cell, genRowLanes_getElem s.go.lfsr,
    rfl, rfl, rfl, rfl, rfl, rfl, rfl, rfl, oscillatorCommand_respond s _ _ _⟩

/-- The neighbour of a row advance that reseams is the neighbour of R34. -/
theorem rowNeighbour_eq_nextCell {p : Config.Params} (hp : p.reseamOnRowAdvance = true) {W : Nat}
    (hlow : 2 ≤ W) (hhigh : W ≤ 32) (c : Fin 32) : rowNeighbour p W c = nextCell W c := by
  unfold rowNeighbour
  by_cases hc : c.val + 1 = W
  · rw [nextCell_boundary hc]
    split
    · rfl
    · next hlong =>
      obtain rfl : W = 32 := by
        by_contra hne
        exact hlong ⟨hp, by omega, by omega⟩
      rw [hc]; rfl
  · rw [nextCell_inner hc, if_neg (by omega)]

/-- R102: making right corners equal to what they are already changes nothing. -/
theorem copyRight_of_rightOf {g : Grid} {c d : Fin 32} (h : RightOf g c d) : copyRight c d g = g := by
  obtain ⟨hLR, hUR⟩ := h
  refine vector_ext_fin fun e => ?_
  rw [copyRight_getElem]
  split
  · next he => rw [he, withRightOf, ← hLR, ← hUR]
  · rfl

/-- Settles O59: the boundary cell shares its edge with cell 0, so the splice writes what is there. -/
theorem wrapSpliceIsANoOpOnCells : Obligations.WrapSpliceIsANoOpOnCells := by
  intro o hlow hhigh hedges
  have hlast : (cellIdx (o.W - 1)).val + 1 = o.W := (eq_cellIdx_pred_iff hlow hhigh _).1 rfl
  have hsame : splice o.W o.cell = o.cell :=
    copyRight_of_rightOf (nextCell_boundary hlast ▸ sharedEdges_iff.1 hedges (cellIdx (o.W - 1)))
  rw [wrapSplice, hsame, ite_self]

end Sys2Proof.Machine
end

section
/-! R37, R113, 42_grid_oscillator.md: what the comparisons say, and the subtractions of the tick, which are
exact: the difference is a whole number of the places of `x`, and no more of them than `x` has. -/

namespace Sys2Proof.Machine

/-! ### Comparisons -/

theorem fle_eq_true_iff {a b : Word} :
    fle a b = true ↔ isNaN a = false ∧ isNaN b = false ∧ fVal a ≤ fVal b := by
  simp [fle, and_assoc]

theorem flt_eq_true_iff {a b : Word} :
    flt a b = true ↔ isNaN a = false ∧ isNaN b = false ∧ fVal a < fVal b := by
  simp [flt, and_assoc]

theorem fle_eq_false_of_flt {a b : Word} (h : flt a b = true) : fle b a = false := by
  obtain ⟨ha, hb, hlt⟩ := flt_eq_true_iff.1 h
  simp [fle, ha, hb, hlt]

@[simp] theorem fVal_posZero : fVal posZero = 0 := by decide

theorem fVal_f32 {k : Nat} (hk : k < 2 ^ 24) : fVal (f32 (k : Int)) = k * 2 ^ 149 := by
  rw [(f32_spec hk).2]; push_cast; ring

theorem fVal_f32_thirtyTwo : fVal (f32 32) = 32 * 2 ^ 149 := fVal_f32 (k := 32) (by decide)

theorem fVal_f32_sixtyFour : fVal (f32 64) = 64 * 2 ^ 149 := fVal_f32 (k := 64) (by decide)

theorem two_pow_lt_fMag_of_isInf {w : Word} (h : isInf w = true) : 2 ^ 200 < fMag w := by
  simp only [isInf, Bool.and_eq_true, decide_eq_true_eq] at h
  obtain ⟨hexp, hfrac⟩ := h
  simp [fMag, hexp, hfrac]

/-- A number far below the infinity is finite. -/
theorem isFinite_of_fVal_le {w : Word} (hnan : isNaN w = false) (h0 : 0 ≤ fVal w)
    (h : fVal w ≤ 2 ^ 200) : isFinite w = true := by
  refine isFinite_of_not_nan_inf hnan (Bool.eq_false_iff.2 fun hinf => ?_)
  have hmag := two_pow_lt_fMag_of_isInf hinf
  rw [← fVal_natAbs] at hmag
  omega

theorem fMag_of_fVal_nonneg {w : Word} (h : 0 ≤ fVal w) : (fMag w : Int) = fVal w := by
  rw [← fVal_natAbs, Int.natAbs_of_nonneg h]

/-! ### Exact subtractions (R113) -/

/-- A value in [1, 64] as a 24-bit number of places, none larger than 1. -/
theorem fVal_eq_places {x : Word} (hlow : 2 ^ 149 ≤ fVal x) (hhigh : fVal x ≤ 2 ^ 155) :
    ∃ m k : Nat, fVal x = (m * 2 ^ k : Nat) ∧ m < 2 ^ 24 ∧ 126 ≤ k ∧ k ≤ 149 := by
  obtain ⟨m, k, hform, hm, hk, -⟩ := fMag_form x
  have hval : fVal x = (m * 2 ^ k : Nat) := by rw [← hform, fMag_of_fVal_nonneg (by omega)]
  refine ⟨m, k, hval, hm, ?_, ?_⟩
  · by_contra hlt
    have hbound : m * 2 ^ k < 2 ^ 24 * 2 ^ 125 :=
      Nat.mul_lt_mul_of_lt_of_le hm (Nat.pow_le_pow_right (by decide) (by omega)) (by positivity)
    omega
  · by_contra hgt
    have hbound : 2 ^ 23 * 2 ^ 150 ≤ m * 2 ^ k :=
      Nat.mul_le_mul (hk.resolve_left (by omega)) (Nat.pow_le_pow_right (by decide) (by omega))
    omega

/-- Subtracting a whole number that is not above `x` is exact. -/
theorem fsub_natCast_exact (ftz : Bool) (nan : Word) {x : Word} {c : Nat} (hx : isFinite x = true)
    (hpos : 0 < c) (hlow : c * 2 ^ 149 ≤ fVal x) (hhigh : fVal x ≤ 2 ^ 155) :
    isFinite (fsub ftz nan x (f32 c)) = true ∧
      fVal (fsub ftz nan x (f32 c)) = fVal x - c * 2 ^ 149 := by
  have hc : c < 2 ^ 24 := by omega
  obtain ⟨m, k, hval, hm, hk126, hk149⟩ := fVal_eq_places (x := x) (by omega) hhigh
  have hplaces : c * 2 ^ 149 = c * 2 ^ (149 - k) * 2 ^ k := by
    rw [Nat.mul_assoc, ← Nat.pow_add, Nat.sub_add_cancel hk149]
  have hle : c * 2 ^ (149 - k) ≤ m := by
    refine Nat.le_of_mul_le_mul_right ?_ (Nat.two_pow_pos k)
    rw [← hplaces]
    omega
  have hdiff : fVal x - fVal (f32 c) = ((m - c * 2 ^ (149 - k)) * 2 ^ k : Nat) := by
    rw [Nat.sub_mul, ← hplaces, fVal_f32 hc]
    omega
  have hmag (w : Word) (h : 2 ^ 149 ≤ fVal w) : 2 ^ 23 ≤ fMag w := by
    rw [← fVal_natAbs]
    omega
  have hexact := fVal_fsub_exact ftz nan hx (f32_spec hc).1
    (flush_of_normal ftz (hmag x (by omega))) (flush_of_normal ftz (hmag (f32 c) (by rw [fVal_f32 hc]; omega)))
    (Nat.lt_of_le_of_lt (Nat.sub_le m _) hm) (by omega) hdiff (fun _ => .inr (by omega))
  rwa [fVal_f32 hc] at hexact

/-- Subtracting 0.0 from a value that the flush keeps gives its value. -/
theorem fVal_fsub_f32_zero (ftz : Bool) (nan : Word) {x : Word} (hx : isFinite x = true)
    (hkept : flush ftz x = x) : fVal (fsub ftz nan x (f32 0)) = fVal x := by
  have hzero : fneg (f32 0) = signedZero true := by decide
  rw [fsub, fadd, hzero, hkept, flush_signedZero, addCore_finite nan hx (isFinite_signedZero true),
    fVal_signedZero, add_zero]
  by_cases h0 : fVal x = 0
  · rw [roundSigned, if_pos h0, flush_signedZero, fVal_signedZero, h0]
  · rw [roundSigned_fVal _ hx h0, hkept]

/-- Settles O57. A cell index 0 takes nothing from `x`; any other number is `fsub_natCast_exact`. -/
theorem phaseSubtractionsAreExact : Obligations.PhaseSubtractionsAreExact := by
  constructor
  · intro ftz nan x W hlow hhigh hge hle
    obtain ⟨-, hnan, hge⟩ := fle_eq_true_iff.1 hge
    obtain ⟨-, -, hle⟩ := fle_eq_true_iff.1 hle
    have hW := fVal_f32 (k := W) (by omega)
    rw [fVal_f32_sixtyFour] at hle
    rw [hW] at hge
    have hx := isFinite_of_fVal_le hnan (by omega) (by omega)
    obtain ⟨hfin, hval⟩ := fsub_natCast_exact ftz nan hx (by omega) hge (by omega)
    exact ⟨hfin, by rw [hval, hW], hW⟩
  · intro ftz nan x c hge hlt hfloor hnormal
    obtain ⟨-, hnan, hge⟩ := fle_eq_true_iff.1 hge
    obtain ⟨-, -, hlt⟩ := flt_eq_true_iff.1 hlt
    rw [fVal_posZero] at hge
    rw [fVal_f32_thirtyTwo] at hlt
    have hx := isFinite_of_fVal_le hnan hge (by omega)
    have hkept : flush ftz x = x := by
      cases ftz with
      | false => exact flush_false x
      | true => rw [flush, hnormal rfl]; rfl
    obtain rfl | hpos := Nat.eq_zero_or_pos c
    · simpa using fVal_fsub_f32_zero ftz nan hx hkept
    · have hle : c * 2 ^ 149 ≤ fVal x := by
        rw [floorVal] at hfloor
        omega
      exact (fsub_natCast_exact ftz nan hx hpos hle (by omega)).2

end Sys2Proof.Machine
end

section
/-! R106, R108, R113, R114, 42_grid_oscillator.md: the tick. Its wrap loop works on a phase in
`PhaseInRange`, where a wrap event takes exactly `W` from `x`, so the loop ends within its bound
(`oscillatorTick_completes`). What a completed tick left is then read off its `k` wrap events. -/

namespace Sys2Proof.Machine

/-! ### The fields and the cells of a wrap event -/

/-- The lanes after a wrap event: 32 steps for its row advance, if there is one. -/
theorem wrapEvent_lane (p : Config.Params) (nan : Nat → Word) (o : Oscillator) (j : Fin 8) :
    (wrapEvent p nan o).lfsr[j] = if p.rowAdvanceOnWrap then lfsrSteps 32 o.lfsr[j] else o.lfsr[j] := by
  obtain ⟨-, -, -, -, -, -, hlfsr, -⟩ := wrapEvent_fields p nan o
  rw [hlfsr]
  split
  · exact genRowLanes_getElem o.lfsr j
  · rfl

theorem wrapSplice_left (o : Oscillator) (c : Fin 32) :
    (wrapSplice o).cell[c].LL = o.cell[c].LL ∧ (wrapSplice o).cell[c].UL = o.cell[c].UL := by
  rw [wrapSplice_cell]
  split
  · exact copyRight_left _ _ c o.cell
  · exact ⟨rfl, rfl⟩

theorem editLength_left (Wn : Nat) (o : Oscillator) (c : Fin 32) :
    (editLength Wn o).cell[c].LL = o.cell[c].LL ∧ (editLength Wn o).cell[c].UL = o.cell[c].UL := by
  rw [editLength_cell]
  split
  · obtain ⟨hLL, hUL⟩ := copyRight_left (cellIdx (o.W - 1)) (cellIdx o.W) c o.cell
    obtain ⟨hLL', hUL'⟩ := copyRight_left (cellIdx (Wn - 1)) 0 c
      (copyRight (cellIdx (o.W - 1)) (cellIdx o.W) o.cell)
    exact ⟨hLL'.trans hLL, hUL'.trans hUL⟩
  · exact ⟨rfl, rfl⟩

/-- With `ROW_ADVANCE_ON_WRAP` a wrap event is a row advance at each cell: the splice before it writes
right corners only, which the row advance does not read. -/
theorem wrapEvent_rowAdvance {p : Config.Params} (hp : p.rowAdvanceOnWrap = true) (nan : Nat → Word)
    (o : Oscillator) (c : Fin 32) :
    let o' := wrapEvent p nan o
    o'.cell[c].LL = o.cell[c].UL ∧ o'.cell[c].UL = rowVertex p.sineLut o.lfsr c ∧
      o'.cell[c].LR = o'.cell[rowNeighbour p o.W c].LL ∧
      o'.cell[c].UR = o'.cell[rowNeighbour p o.W c].UL := by
  obtain ⟨-, -, -, -, -, -, -, hcell⟩ := wrapEvent_fields p nan o
  obtain ⟨hLL, hUL, hright⟩ := rowAdvanceGrid_spec p o.W o.lfsr (wrapSplice o).cell c
  obtain ⟨-, hold⟩ := wrapSplice_left o c
  rw [if_pos hp] at hcell
  simp only [hcell]
  exact ⟨hLL.trans hold, hUL, hright⟩

/-- Without it, a wrap event only splices, where a seam is pending. -/
theorem wrapEvent_splice {p : Config.Params} (hp : ¬ p.rowAdvanceOnWrap = true) (nan : Nat → Word)
    {o : Oscillator} (hlow : 2 ≤ o.W) (hhigh : o.W ≤ 32) (c : Fin 32) :
    (wrapEvent p nan o).cell[c] = if o.seamPending = true ∧ c.val = o.W - 1 then
      { o.cell[c] with LR := o.cell[0].LL, UR := o.cell[0].UL } else o.cell[c] := by
  obtain ⟨-, -, -, -, -, -, -, hcell⟩ := wrapEvent_fields p nan o
  have hboundary := eq_cellIdx_iff (n := o.W - 1) (by omega) c
  rw [hcell, if_neg hp, wrapSplice_cell]
  by_cases hseam : o.seamPending = true
  · simp only [hseam, if_true, true_and, splice, copyRight_getElem, hboundary]
    split
    · next hc => rw [← hboundary.2 hc]; rfl
    · rfl
  · simp only [hseam, false_and, if_false, Bool.false_eq_true]

/-- What wrap events keep. -/
theorem wrapEvent_iterate_frame (p : Config.Params) (nan : Nat → Word) (o : Oscillator) (k : Nat) :
    let o' := (wrapEvent p nan)^[k] o
    o'.W = o.W ∧ o'.y = o.y ∧ o'.dt = o.dt ∧ o'.goOut = o.goOut := by
  induction k with
  | zero => exact ⟨rfl, rfl, rfl, rfl⟩
  | succ k ih =>
    obtain ⟨hW, hy, hdt, hout⟩ := ih
    rw [Function.iterate_succ_apply']
    obtain ⟨-, hW', hy', hdt', hout', -⟩ := wrapEvent_fields p nan ((wrapEvent p nan)^[k] o)
    exact ⟨hW'.trans hW, hy'.trans hy, hdt'.trans hdt, hout'.trans hout⟩

theorem wrapEvent_iterate_lane (p : Config.Params) (nan : Nat → Word) (o : Oscillator) (k : Nat) (j : Fin 8) :
    ((wrapEvent p nan)^[k] o).lfsr[j] =
      lfsrSteps (if p.rowAdvanceOnWrap then 32 * k else 0) o.lfsr[j] := by
  induction k with
  | zero => rw [Nat.mul_zero, ite_self]; rfl
  | succ k ih =>
    rw [Function.iterate_succ_apply', wrapEvent_lane, ih]
    split
    · rw [Nat.mul_succ, lfsrSteps_add]
    · rfl

theorem wrapEvent_iterate_seamPending (p : Config.Params) (nan : Nat → Word) (o : Oscillator) {k : Nat}
    (hk : 0 < k) : ((wrapEvent p nan)^[k] o).seamPending = false := by
  obtain ⟨j, rfl⟩ := Nat.exists_eq_add_of_lt hk
  obtain ⟨-, -, -, -, -, hseam, -⟩ := wrapEvent_fields p nan ((wrapEvent p nan)^[0 + j] o)
  rw [Function.iterate_succ_apply']
  exact hseam

/-! ### The wrap loop -/

/-- A phase the wrap loop can work on: `x` is at most 64.0, twice the greatest `W`. -/
structure PhaseInRange (o : Oscillator) : Prop where
  two_le : 2 ≤ o.W
  le : o.W ≤ 32
  finite : isFinite o.x = true
  nonneg : 0 ≤ fVal o.x
  bounded : fVal o.x ≤ 2 ^ 155

/-- The wrap condition as a comparison of whole numbers (R108). -/
theorem wraps_iff {o : Oscillator} (h : PhaseInRange o) : wraps o = true ↔ o.W * 2 ^ 149 ≤ fVal o.x := by
  obtain ⟨-, hhigh, hfin, -, -⟩ := h
  have hW : o.W < 2 ^ 24 := by omega
  rw [wraps, fle_eq_true_iff, fVal_f32 hW]
  simp [isNaN_eq_false_of_isFinite (f32_spec hW).1, isNaN_eq_false_of_isFinite hfin]

/-- R113: a wrap event takes exactly `W` from `x`. -/
theorem wrapEvent_exact (p : Config.Params) (nan : Nat → Word) {o : Oscillator} (h : PhaseInRange o)
    (hw : wraps o = true) :
    PhaseInRange (wrapEvent p nan o) ∧ fVal (wrapEvent p nan o).x = fVal o.x - o.W * 2 ^ 149 := by
  have hge := (wraps_iff h).1 hw
  obtain ⟨hlow, hhigh, hfin, -, hmax⟩ := h
  obtain ⟨hx, hW, -⟩ := wrapEvent_fields p nan o
  obtain ⟨hfin', hval⟩ := fsub_natCast_exact p.ftz (nan 2) hfin (by omega) hge hmax
  rw [← hx] at hfin' hval
  exact ⟨⟨by omega, by omega, hfin', by omega, by omega⟩, hval⟩

theorem wrapEvent_iterate_exact (p : Config.Params) (nan : Nat → Word) {o : Oscillator} (h : PhaseInRange o)
    {k : Nat} (hall : ∀ j < k, wraps ((wrapEvent p nan)^[j] o) = true) :
    PhaseInRange ((wrapEvent p nan)^[k] o) ∧
      fVal ((wrapEvent p nan)^[k] o).x = fVal o.x - k * o.W * 2 ^ 149 := by
  induction k with
  | zero => exact ⟨h, by simp⟩
  | succ k ih =>
    obtain ⟨hrange, hval⟩ := ih fun j hj => hall j (by omega)
    obtain ⟨hrange', hval'⟩ := wrapEvent_exact p nan hrange (hall k (by omega))
    obtain ⟨hW, -⟩ := wrapEvent_iterate_frame p nan o k
    rw [Function.iterate_succ_apply']
    refine ⟨hrange', ?_⟩
    rw [hval', hval, hW]
    push_cast
    ring

/-- R114: the loop ends within the whole part of `x`, because each event takes at least 2 from it. -/
theorem wrapLoop_completes (p : Config.Params) (nan : Nat → Word) {n : Nat} {o : Oscillator}
    (h : PhaseInRange o) (hn : fVal o.x < (n + 1) * 2 ^ 149) : ∃ o', wrapLoop p nan n o = some o' := by
  have hlow := h.two_le
  induction n generalizing o with
  | zero =>
    have hw : ¬ wraps o = true := by rw [wraps_iff h]; omega
    exact ⟨o, by rw [wrapLoop, if_neg hw]⟩
  | succ n ih =>
    rw [wrapLoop]
    split
    · next hw =>
      obtain ⟨hrange, hval⟩ := wrapEvent_exact p nan h hw
      have hmoves : (wrapEvent p nan o).x ≠ o.x := fun heq => by rw [heq] at hval; omega
      rw [if_neg hmoves]
      exact ih hrange (by push_cast at hn; omega) hrange.two_le
    · exact ⟨o, rfl⟩

/-- Below `f32(W)`, `floor(x)` names a cell (R108). -/
theorem phaseCell_completes {o : Oscillator} (h : PhaseInRange o) (hw : wraps o = false) :
    ∃ c : Fin 32, phaseCell o = some c ∧ (c.val : Int) = floorVal o.x := by
  have hlt : ¬ o.W * 2 ^ 149 ≤ fVal o.x := by rw [← wraps_iff h, hw]; decide
  obtain ⟨-, hhigh, hfin, hnonneg, -⟩ := h
  have hcell : (floorVal o.x).toNat < 32 := by rw [floorVal]; omega
  refine ⟨⟨_, hcell⟩, ?_, Int.toNat_of_nonneg (by rw [floorVal]; omega)⟩
  rw [phaseCell, dif_pos hcell, if_pos (by simp [isNaN_eq_false_of_isFinite hfin, hnonneg])]

/-! ### The tick -/

/-- The engine after the length edit and the phase advance of a tick, where the wrap loop starts. -/
def tickStart (p : Config.Params) (nan : Nat → Word) (len : Int) (freq : Word) (o : Oscillator) : Oscillator :=
  advancePhase p nan (increment p nan freq o) (editLength (cycleLength len) o)

/-- The wrap events of a tick, `k` of them from `o`, up to a phase whose cell is `c`. -/
structure WrapRun (p : Config.Params) (nan : Nat → Word) (o : Oscillator) (k : Nat) (c : Fin 32) : Prop where
  wrapped : ∀ j < k, wraps ((wrapEvent p nan)^[j] o) = true
  ended : wraps ((wrapEvent p nan)^[k] o) = false
  cell : (c.val : Int) = floorVal ((wrapEvent p nan)^[k] o).x

/-- A TICK COMPLETES from an admissible increment and a phase in range at the start of its wrap loop. -/
theorem oscillatorTick_completes {p : Config.Params} {nan : Nat → Word} {len : Int} {freq : Word}
    {o : Oscillator} (hadm : admissible p (increment p nan freq o) = true)
    (hrange : PhaseInRange (tickStart p nan len freq o)) :
    ∃ k c, WrapRun p nan (tickStart p nan len freq o) k c ∧ oscillatorTick p nan len freq o =
      .ok (emitSample p nan c ((wrapEvent p nan)^[k] (tickStart p nan len freq o))) := by
  have hbound : fVal (tickStart p nan len freq o).x <
      (wrapBound (tickStart p nan len freq o) + 1) * 2 ^ 149 := by
    have := hrange.nonneg
    rw [wrapBound, floorVal]
    omega
  obtain ⟨o2, hloop⟩ := wrapLoop_completes p nan hrange hbound
  obtain ⟨k, -, rfl, hended, hall⟩ := wrapLoop_some hloop
  obtain ⟨c, hcell, hc⟩ := phaseCell_completes (wrapEvent_iterate_exact p nan hrange hall).1 hended
  refine ⟨k, c, ⟨hall, hended, hc⟩, ?_⟩
  have hstart : advancePhase p nan (increment p nan freq o) (editLength (cycleLength len) o) =
    tickStart p nan len freq o := rfl
  simp only [oscillatorTick, if_pos hadm, tickPhase, hstart, hloop, hcell]

/-- What a tick with these wrap events answers, as a step of the machine. -/
theorem exec_goTick_emit {s : State} {len : Int} {freq : Word} {o : Oscillator}
    (h : oscillatorTick s.params (oscillatorNans s) len freq s.go = .ok o) :
    ∃ t, exec (.goTick len freq) s = .next t ∧ t.go = o ∧ t.goNanTick = s.goNanTick + 1 ∧
      OscillatorCommand t.go.goOut s t :=
  ⟨_, exec_goTick_ok h, rfl, rfl, oscillatorCommand_respond s _ _ _⟩

theorem admissible_iff {p : Config.Params} {inc : Word} :
    admissible p inc = true ↔ fle posZero inc = true ∧ fle inc p.maxPhaseInc = true := by
  simp only [admissible, Bool.and_eq_true, Bool.not_eq_true', and_assoc, and_iff_right_iff_imp]
  intro ⟨h, _⟩
  exact (fle_eq_true_iff.1 h).2.1

/-- A legal phase as a range of whole numbers (R37, R38). -/
theorem finite_of_phaseLegal {o : Oscillator} (h : PhaseLegal o) :
    isFinite o.x = true ∧ 0 ≤ fVal o.x ∧ fVal o.x < 2 ^ 154 := by
  obtain ⟨-, hhigh, hge, hlt⟩ := h
  obtain ⟨-, hnan, hge⟩ := fle_eq_true_iff.1 hge
  obtain ⟨-, -, hlt⟩ := flt_eq_true_iff.1 hlt
  rw [fVal_posZero] at hge
  rw [fVal_f32 (by omega)] at hlt
  exact ⟨isFinite_of_fVal_le hnan hge (by omega), hge, by omega⟩

/-- R113: with `MAX_PHASE_INC` at most 32.0 the advanced phase is at most 64.0. -/
theorem phaseInRange_of_maxIncDefault {p : Config.Params} {nan : Nat → Word} {freq : Word} {o : Oscillator}
    (len : Int) (hlegal : PhaseLegal o) (hmax : MaxIncDefault p)
    (hadm : admissible p (increment p nan freq o) = true) : PhaseInRange (tickStart p nan len freq o) := by
  obtain ⟨hlow, hhigh⟩ := cycleLength_range len
  obtain ⟨hx, hx0, hxlt⟩ := finite_of_phaseLegal hlegal
  obtain ⟨hge, hle⟩ := admissible_iff.1 hadm
  obtain ⟨-, hnan, hge⟩ := fle_eq_true_iff.1 hge
  obtain ⟨-, -, hle⟩ := fle_eq_true_iff.1 hle
  obtain ⟨-, -, hmax⟩ := fle_eq_true_iff.1 hmax
  rw [fVal_posZero] at hge
  rw [fVal_f32_thirtyTwo] at hmax
  have hinc := isFinite_of_fVal_le hnan hge (by omega)
  obtain ⟨hfin, hnonneg, hbounded⟩ := fadd_le_sixtyFour p.ftz (nan 1) hx hinc hx0 hge (by omega)
  exact ⟨hlow, hhigh, hfin, hnonneg, hbounded⟩

end Sys2Proof.Machine
end

section
/-! R105, R108, R113 to R116, 42_grid_oscillator.md: what a completed tick has left, by the number of its wrap
events. -/

namespace Sys2Proof.Machine

/-! ### Every tick -/

/-- Settles O14: the phase is in range where the wrap loop starts, so the tick completes; the wrap events
keep `W`, `dt` and `y`. -/
theorem goTickCompletesWithLegalPhase : Obligations.GoTickCompletesWithLegalPhase := by
  intro s len freq inc hlegal hmax hge hle
  have hadm : admissible s.params (increment s.params (oscillatorNans s) freq s.go) = true :=
    admissible_iff.2 ⟨hge, hle⟩
  obtain ⟨k, c, -, htick⟩ :=
    oscillatorTick_completes hadm (phaseInRange_of_maxIncDefault len hlegal hmax hadm)
  obtain ⟨t, hexec, hgo, hcount, hcmd⟩ := exec_goTick_emit htick
  obtain ⟨hW, hy, hdt, -⟩ := wrapEvent_iterate_frame s.params (oscillatorNans s)
    (tickStart s.params (oscillatorNans s) len freq s.go) k
  refine ⟨t, hexec, ?_, ?_, ?_, ?_, hcount, hcmd⟩ <;> rw [hgo]
  · exact phaseLegal_of_oscillatorTick htick
  · exact hW
  · exact hdt
  · exact hy

/-- A tick that completes had an admissible increment (R126). -/
theorem admissible_of_exec_goTick {s t : State} {len : Int} {freq : Word}
    (ht : exec (.goTick len freq) s = .next t) :
    admissible s.params (increment s.params (oscillatorNans s) freq s.go) = true := by
  cases htick : oscillatorTick s.params (oscillatorNans s) len freq s.go with
  | error f => cases ht.symm.trans (exec_goTick_error htick)
  | ok o => exact (oscillatorTick_ok htick).1

/-- Settles O58: a completed tick is a `WrapRun`, each of whose events is exact. -/
theorem wrapEventsAreBoundedAndExact : Obligations.WrapEventsAreBoundedAndExact := by
  constructor
  · intro p nan o hlow hhigh
    obtain ⟨hx, hW, hy, hdt, hout, hseam, -, -⟩ := wrapEvent_fields p nan o
    refine ⟨hx, hW, hy, hdt, hout, hseam, wrapEvent_lane p nan o, fun c => ?_⟩
    split
    · next hp => exact wrapEvent_rowAdvance hp nan o c
    · next hp => exact wrapEvent_splice hp nan hlow hhigh c
  · intro s t len freq hlegal hmax ht nan ftz inc o1
    have hadm := admissible_of_exec_goTick ht
    have hrange := phaseInRange_of_maxIncDefault len hlegal hmax hadm
    obtain ⟨k, c, hrun, htick⟩ := oscillatorTick_completes hadm hrange
    obtain ⟨t', ht', hgo, -, hcmd⟩ := exec_goTick_emit htick
    obtain rfl : t' = t := by cases ht.symm.trans ht'; rfl
    obtain ⟨⟨hlow, hhigh, -, hnonneg, -⟩, hval⟩ := wrapEvent_iterate_exact s.params nan hrange hrun.wrapped
    obtain ⟨hW, hy, -, -⟩ := wrapEvent_iterate_frame s.params nan o1 k
    have hbounded : fVal o1.x ≤ 2 ^ 155 := hrange.bounded
    have hcount : (k * cycleLength len : Nat) * 2 ^ 149 ≤ fVal o1.x := by
      push_cast
      exact sub_nonneg.1 (hval ▸ hnonneg)
    have htotal : k * cycleLength len ≤ 64 := by omega
    have htwo : k * 2 ≤ k * cycleLength len := Nat.mul_le_mul_left k (cycleLength_range len).1
    refine ⟨k, c, htotal, by omega, ?_, ?_, ?_, ?_, ?_, ?_, ?_, hcmd⟩ <;> rw [hgo]
    · rfl
    · exact hval
    · exact phaseLegal_of_oscillatorTick htick
    · exact wrapEvent_iterate_lane s.params nan o1 k
    · exact wrapEvent_iterate_seamPending s.params nan o1
    · exact hrun.cell
    · rw [emitSample_goOut, sample, interp2d]
      exact hy ▸ rfl

/-! ### A tick that wraps at most once -/

theorem fVal_flush_nonneg (ftz : Bool) {w : Word} (h : 0 ≤ fVal w) : 0 ≤ fVal (flush ftz w) := by
  obtain hkept | ⟨hzero, -⟩ := fVal_flush ftz w
  · rwa [hkept]
  · rw [hzero]

theorem fVal_roundSigned_nonneg (zeroNeg : Bool) {v : Int} (d : Nat) (h : 0 ≤ v) :
    0 ≤ fVal (roundSigned zeroNeg v d) := by
  have hpattern : roundMag v.natAbs d ≤ 0x7F800000 := Nat.min_le_right _ _
  unfold roundSigned
  split
  · rw [fVal_signedZero]
  · rw [decide_eq_false (by omega), fVal_withSign false (by omega)]
    exact Int.natCast_nonneg _

/-- A finite value and a number, neither of them negative, have no negative sum. -/
theorem fVal_fadd_nonneg (ftz : Bool) (nan : Word) {a b : Word} (ha : isFinite a = true)
    (hb : isNaN b = false) (ha0 : 0 ≤ fVal a) (hb0 : 0 ≤ fVal b) : 0 ≤ fVal (fadd ftz nan a b) := by
  have hfa := isFinite_flush ftz ha
  refine fVal_flush_nonneg ftz ?_
  cases hinf : isInf b with
  | true =>
    have hkept : flush ftz b = b :=
      flush_of_normal ftz (Nat.le_trans (by decide) (two_pow_lt_fMag_of_isInf hinf).le)
    rw [hkept, addCore]
    simpa [isNaN_eq_false_of_isFinite hfa, isInf_eq_false_of_isFinite hfa, hb, hinf] using hb0
  | false =>
    rw [addCore_finite nan hfa (isFinite_flush ftz (isFinite_of_not_nan_inf hb hinf))]
    exact fVal_roundSigned_nonneg _ _
      (Int.add_nonneg (fVal_flush_nonneg ftz ha0) (fVal_flush_nonneg ftz hb0))

/-- Whatever `MAX_PHASE_INC` is, an advanced phase below 64.0 is in range. -/
theorem phaseInRange_of_lt {p : Config.Params} {nan : Nat → Word} {len : Int} {freq : Word} {o : Oscillator}
    {K : Nat} (hlegal : PhaseLegal o) (hge : fle posZero (increment p nan freq o) = true) (hK : K ≤ 64)
    (hlt : flt (tickStart p nan len freq o).x (f32 K) = true) : PhaseInRange (tickStart p nan len freq o) := by
  obtain ⟨hlow, hhigh⟩ := cycleLength_range len
  obtain ⟨hx, hx0, -⟩ := finite_of_phaseLegal hlegal
  obtain ⟨-, hnan, hge⟩ := fle_eq_true_iff.1 hge
  obtain ⟨hnan', -, hlt⟩ := flt_eq_true_iff.1 hlt
  rw [fVal_posZero] at hge
  rw [fVal_f32 (by omega)] at hlt
  have hnonneg : 0 ≤ fVal (tickStart p nan len freq o).x :=
    fVal_fadd_nonneg p.ftz (nan 1) hx hnan hx0 hge
  exact ⟨hlow, hhigh, isFinite_of_fVal_le hnan' hnonneg (by omega), hnonneg, by omega⟩

/-- The number of wrap events of a tick is the number of times its phase holds `W`: none. -/
theorem WrapRun.eq_zero {p : Config.Params} {nan : Nat → Word} {o : Oscillator} {k : Nat} {c : Fin 32}
    (h : WrapRun p nan o k c) (hw : wraps o = false) : k = 0 := by
  by_contra hk
  cases hw.symm.trans (h.wrapped 0 (Nat.pos_of_ne_zero hk))

/-- The same: exactly one, where the phase holds `W` once. -/
theorem WrapRun.eq_one {p : Config.Params} {nan : Nat → Word} {o : Oscillator} {k : Nat} {c : Fin 32}
    (h : WrapRun p nan o k c) (hw : wraps o = true) (hw' : wraps (wrapEvent p nan o) = false) : k = 1 := by
  obtain hk | hk | hk : k = 0 ∨ k = 1 ∨ 1 < k := by omega
  · subst hk
    cases hw.symm.trans h.ended
  · exact hk
  · cases hw'.symm.trans (h.wrapped 1 hk)

/-- The sample at `y = +0.0` is the interpolation on the lower edge (R105). -/
theorem sample_of_y_zero (p : Config.Params) (nan : Nat → Word) {o : Oscillator} (hy : YIsZero o)
    (c : Fin 32) (fx : Word) :
    sample p nan o c fx =
      let a := vertexComp o.cell[c].LL p.audioComp
      let b := vertexComp o.cell[c].LR p.audioComp
      fadd p.ftz (nan 6) a (fmul p.ftz (nan 5) fx (fsub p.ftz (nan 4) b a)) := by
  have hzero : feq posZero posZero = true := by decide
  rw [sample, interp2d, hy, if_pos hzero]
  rfl

/-- WHAT THE LENGTH EDIT OF A TICK DOES at each cell (R104, R108). -/
theorem editLength_cell_spec {o : Oscillator} (hlow : 2 ≤ o.W) (hhigh : o.W ≤ 32) {Wn : Nat} (hlow' : 2 ≤ Wn)
    (hhigh' : Wn ≤ 32) (e : Fin 32) {d : Fin 32} (hd : d.val = o.W % 32) :
    let o' := editLength Wn o
    o'.cell[e].LL = o.cell[e].LL ∧ o'.cell[e].UL = o.cell[e].UL ∧
      if Wn ≠ o.W ∧ e.val = Wn - 1 then
        o'.cell[e].LR = o.cell[0].LL ∧ o'.cell[e].UR = o.cell[0].UL
      else if Wn ≠ o.W ∧ e.val = o.W - 1 then
        o'.cell[e].LR = o.cell[d].LL ∧ o'.cell[e].UR = o.cell[d].UL
      else o'.cell[e].LR = o.cell[e].LR ∧ o'.cell[e].UR = o.cell[e].UR := by
  obtain ⟨hLL, hUL⟩ := editLength_left Wn o e
  refine ⟨hLL, hUL, ?_⟩
  by_cases hW : Wn ≠ o.W
  · obtain rfl : d = cellIdx o.W := Fin.ext hd
    have hcell : (editLength Wn o).cell = lengthEdit o.W Wn o.cell := if_pos hW
    have hnew := eq_cellIdx_iff (n := Wn - 1) (by omega) e
    have hold := eq_cellIdx_iff (n := o.W - 1) (by omega) e
    simp only [hcell, lengthEdit_getElem, hnew, hold, hW, ne_eq, not_false_eq_true, true_and]
    by_cases he : e.val = Wn - 1
    · simp only [if_pos he]
      exact ⟨rfl, rfl⟩
    · by_cases he' : e.val = o.W - 1
      · simp only [if_neg he, if_pos he', withRightOf_LR, withRightOf_UR, and_self]
      · simp only [if_neg he, if_neg he', and_self]
  · have hcell : (editLength Wn o).cell = o.cell := if_neg hW
    simp only [hcell, hW, if_false, false_and, and_self]

/-- Settles O15: no wrap event, so the tick is the length edit, the phase advance and the sample. -/
theorem goTickWithoutWrapSamplesLowerEdge : Obligations.GoTickWithoutWrapSamplesLowerEdge := by
  intro s len freq nan ftz inc x' Wn hlegal hy hge hle hlt
  have ⟨hlow, hhigh, _, _⟩ := hlegal
  obtain ⟨hlow', hhigh'⟩ := cycleLength_range len
  have hrange : PhaseInRange (tickStart s.params nan len freq s.go) :=
    phaseInRange_of_lt hlegal hge (by omega) hlt
  obtain ⟨k, c, hrun, htick⟩ := oscillatorTick_completes (admissible_iff.2 ⟨hge, hle⟩) hrange
  obtain rfl := hrun.eq_zero (fle_eq_false_of_flt hlt)
  obtain ⟨t, hexec, hgo, -, hcmd⟩ := exec_goTick_emit htick
  refine ⟨t, c, hexec, hrun.cell, ?_, ?_, ?_, ?_, ?_, ?_, ?_, ?_, hcmd⟩ <;> rw [hgo]
  · rfl
  · rfl
  · exact fun e d => editLength_cell_spec hlow hhigh hlow' hhigh' e
  · show seamAfterEdit s.go.W Wn s.go.seamPending = _
    by_cases hW : Wn = s.go.W <;> simp [seamAfterEdit, hW]
  · rfl
  · rfl
  · rfl
  · exact sample_of_y_zero s.params nan (o := tickStart s.params nan len freq s.go) hy c _

/-! ### A tick that wraps once -/

/-- Where the phase holds `W` once, the tick is the length edit, the phase advance, one wrap event and the
sample. -/
theorem oscillatorTick_one_wrap {p : Config.Params} {nan : Nat → Word} {len : Int} {freq : Word}
    {o : Oscillator} (hadm : admissible p (increment p nan freq o) = true)
    (hrange : PhaseInRange (tickStart p nan len freq o))
    (hwrap : wraps (tickStart p nan len freq o) = true)
    (hlt : flt (tickStart p nan len freq o).x (f32 (2 * cycleLength len : Nat)) = true) :
    let o' := wrapEvent p nan (tickStart p nan len freq o)
    ∃ c : Fin 32, (c.val : Int) = floorVal o'.x ∧
      oscillatorTick p nan len freq o = .ok (emitSample p nan c o') := by
  obtain ⟨-, hhigh⟩ := cycleLength_range len
  obtain ⟨hrange', hval⟩ := wrapEvent_exact p nan hrange hwrap
  have hended : wraps (wrapEvent p nan (tickStart p nan len freq o)) = false := by
    obtain ⟨-, hW, -⟩ := wrapEvent_fields p nan (tickStart p nan len freq o)
    obtain ⟨-, -, hbelow⟩ := flt_eq_true_iff.1 hlt
    have hstart : (tickStart p nan len freq o).W = cycleLength len := rfl
    rw [fVal_f32 (by omega)] at hbelow
    rw [Bool.eq_false_iff, ne_eq, wraps_iff hrange', hval, hW]
    omega
  obtain ⟨k, c, hrun, htick⟩ := oscillatorTick_completes hadm hrange
  obtain rfl := hrun.eq_one hwrap hended
  exact ⟨c, hrun.cell, htick⟩

/-- The cells after it: the length edit and the splice write right corners only, which the row advance does
not read. -/
theorem wrapEvent_tickStart_cells {p : Config.Params} (hp : p.rowAdvanceOnWrap = true) (nan : Nat → Word)
    (len : Int) (freq : Word) (o : Oscillator) (e : Fin 32) :
    let o' := wrapEvent p nan (tickStart p nan len freq o)
    o'.cell[e].LL = o.cell[e].UL ∧ o'.cell[e].UL = rowVertex p.sineLut o.lfsr e ∧
      o'.cell[e].LR = o'.cell[rowNeighbour p (cycleLength len) e].LL ∧
      o'.cell[e].UR = o'.cell[rowNeighbour p (cycleLength len) e].UL := by
  obtain ⟨hLL, hright⟩ := wrapEvent_rowAdvance hp nan (tickStart p nan len freq o) e
  obtain ⟨-, hUL⟩ := editLength_left (cycleLength len) o e
  exact ⟨hLL.trans hUL, hright⟩

/-- The lower right corner after it, from the old upper row. -/
theorem wrapEvent_tickStart_LR {p : Config.Params} (hp : p.rowAdvanceOnWrap = true) (nan : Nat → Word)
    (len : Int) (freq : Word) (o : Oscillator) (e : Fin 32) :
    (wrapEvent p nan (tickStart p nan len freq o)).cell[e].LR =
      o.cell[rowNeighbour p (cycleLength len) e].UL := by
  obtain ⟨-, -, hLR, -⟩ := wrapEvent_tickStart_cells hp nan len freq o e
  obtain ⟨hLL, -⟩ := wrapEvent_tickStart_cells hp nan len freq o (rowNeighbour p (cycleLength len) e)
  exact hLR.trans hLL

/-- R34, R104: where the edges are shared, they are after the length edit too, so an upper right corner is
the upper left one of the neighbour. -/
theorem editLength_UR {p : Config.Params} (hp : p.reseamOnRowAdvance = true) {o : Oscillator}
    (h : EdgesLegal o) {Wn : Nat} (hlow : 2 ≤ Wn) (hhigh : Wn ≤ 32) (e : Fin 32) :
    (editLength Wn o).cell[e].UR = o.cell[rowNeighbour p Wn e].UL := by
  obtain ⟨-, -, hedges⟩ := (edgesLegal_invariant hp).editLength o Wn hlow hhigh h
  obtain ⟨-, hUR⟩ := hedges e
  obtain ⟨-, hUL⟩ := editLength_left Wn o (nextCell Wn e)
  simp only [rowNeighbour_eq_nextCell hp hlow hhigh]
  exact hUR.trans hUL

/-- Settles O60: exactly one wrap event, whose row advance makes the old upper row the lower one. -/
theorem oneWrapIsOneRowAdvance : Obligations.OneWrapIsOneRowAdvance := by
  intro s len freq nan ftz inc x' Wn hp hlegal hge hle hwrap hlt
  have ⟨hlow, hhigh, _, _⟩ := hlegal
  obtain ⟨hlow', hhigh'⟩ := cycleLength_range len
  have hlt' : flt (tickStart s.params nan len freq s.go).x (f32 (2 * Wn : Nat)) = true := by
    push_cast
    exact hlt
  have hrange : PhaseInRange (tickStart s.params nan len freq s.go) :=
    phaseInRange_of_lt hlegal hge (by omega) hlt'
  obtain ⟨c, hcell, htick⟩ := oscillatorTick_one_wrap (admissible_iff.2 ⟨hge, hle⟩) hrange hwrap hlt'
  obtain ⟨t, hexec, hgo, -, hcmd⟩ := exec_goTick_emit htick
  obtain ⟨hx, hW, hy, -, -, hseam, -⟩ := wrapEvent_fields s.params nan (tickStart s.params nan len freq s.go)
  have hcells := wrapEvent_tickStart_cells hp nan len freq s.go
  have hLR := wrapEvent_tickStart_LR hp nan len freq s.go
  refine ⟨t, c, hexec, fun e => ?_, fun j => ?_, ?_, ?_, ?_, ?_, fun hzero => ?_, hcmd⟩ <;> rw [hgo]
  · obtain ⟨hLL, hUL, hLR', hUR'⟩ := hcells e
    refine ⟨hLL, hUL, hLR', hUR', fun hreseam hedges => ?_⟩
    have hkept := (hLR e).trans (editLength_UR hreseam ⟨hlow, hhigh, hedges⟩ hlow' hhigh' e).symm
    refine ⟨hkept, fun hsame => hkept.trans ?_⟩
    rw [editLength_cell, if_neg (not_not.2 hsame)]
  · exact (wrapEvent_lane s.params nan _ j).trans (if_pos hp)
  · exact hx
  · exact hW
  · exact hseam
  · exact hcell
  · obtain ⟨hLL, -⟩ := hcells c
    rw [emitSample_goOut, sample_of_y_zero s.params nan (hy.trans hzero)]
    simp only [hLL, hLR]
    rfl

end Sys2Proof.Machine
end

section
/-! R119, R120, 43_housekeeping.md: `NOP`, and the answer to a word that encodes no command. -/

namespace Sys2Proof.Machine

/-- Format N has no operand bits, so `NOP`'s row holds the word 0 only (R62, R119). -/
theorem matches_nop_iff (w : Word) : w &&& maskWord .nop = matchWord .nop ↔ w = 0#32 := by
  rw [matches_iff, ← BitVec.toNat_inj]
  simp only [opcodeFormat, operandBits, opcodeNumber, BitVec.toNat_ofNat]
  omega

/-- Settles O1: opcode field 0 is `NOP`'s row, which no word but 0 matches. -/
theorem nopOnlyRespondsOk : Obligations.NopOnlyRespondsOk := by
  refine ⟨encode_of_number rfl, fun s => ?_, fun w d hopc hne => ?_⟩
  · have hexec : exec .nop s = done posZero s := rfl
    exact ⟨_, hexec, onlyResponded_respond .ok posZero s⟩
  · have hrow : opcodeOfNumber (opcField w) = some .nop := congrArg opcodeOfNumber hopc
    exact ⟨_, decodeCommand_of_not_matches hrow (mt (matches_nop_iff w).1 hne)⟩

theorem decodedFrom_error {w d : Word} {e : Illegal} (h : decodeCommand w d = .error e) (rest : List Word) :
    decodedFrom w d rest = .illegal e rest := by
  rw [decodedFrom, h]

/-- An illegal transaction is taken off the port, data word included, and only a response is added (R120). -/
theorem step_of_illegal {s : State} {ws rest' : List Word} {rest : List PortItem} {e : Illegal}
    (hf : fetch s.port = .transaction ws rest) (hd : decode ws = .illegal e rest') :
    ∃ t, step s = .next t ∧ t.port = rest ∧ t.params = s.params ∧ MixerKept s t ∧
      OscillatorKept s t ∧ Responded .illegalCommand posZero s t := by
  have hstep : step s = illegalCommand (takePort rest s) := by simp only [step, hf, hd]
  exact ⟨_, hstep, rfl, rfl, ⟨rfl, rfl⟩, ⟨rfl, rfl⟩, rfl⟩

/-- Settles O22: the port's front is one transaction, and the decoder refuses it. -/
theorem illegalWordOnlyResponds : Obligations.IllegalWordOnlyResponds := by
  constructor
  · intro s w d rest e hc hd hport
    exact step_of_illegal (hport ▸ fetch_of_carriesData hc d rest)
      ((decode_of_carriesData hc d []).trans (decodedFrom_error hd []))
  · intro s w rest e hc hd hport
    exact step_of_illegal (hport ▸ fetch_of_not_carriesData hc rest)
      ((decode_of_not_carriesData hc []).trans (decodedFrom_error hd []))

end Sys2Proof.Machine
end

section
/-! R106, R124, R126, 60_exceptions.md: the increments a `GO_TICK` does not admit, and the clamps of the
tick commands, which are no errors. -/

namespace Sys2Proof.Machine

/-! ### The fault of an inadmissible increment (R126) -/

/-- R106: an increment that is a NaN, negative or above `MAX_PHASE_INC` fails the check. -/
theorem admissible_eq_false {p : Config.Params} {inc : Word}
    (h : isNaN inc = true ∨ flt inc posZero = true ∨ fle inc p.maxPhaseInc = false) :
    admissible p inc = false := by
  rw [Bool.eq_false_iff]
  intro hadm
  obtain ⟨hge, hle⟩ := admissible_iff.1 hadm
  obtain hnan | hneg | hbig := h
  · obtain ⟨-, hnot, -⟩ := fle_eq_true_iff.1 hge
    exact Bool.eq_false_iff.1 hnot hnan
  · exact Bool.eq_false_iff.1 (fle_eq_false_of_flt hneg) hge
  · exact Bool.eq_false_iff.1 hbig hle

/-- Settles O16: the increment fails the check that comes before the length edit. -/
theorem goTickInadmissibleIncrementFaults : Obligations.GoTickInadmissibleIncrementFaults :=
  fun _ _ _ hinc => exec_goTick_error (oscillatorTick_inadmissible (admissible_eq_false hinc))

/-! ### The clamps (R124) -/

theorem channelCount_eq_ite (n : Nat) : channelCount n = if n < 1 then 1 else if 16 < n then 16 else n := by
  unfold channelCount clamp
  split_ifs <;> omega

theorem cycleLength_eq_ite (len : Int) :
    (cycleLength len : Int) = if len < 2 then 2 else if 32 < len then 32 else len := by
  unfold cycleLength clamp
  split_ifs <;> omega

/-- A clamped count is in range, so the clamp keeps it. -/
theorem channelCount_channelCount (n : Nat) : channelCount (channelCount n) = channelCount n :=
  channelCount_of_range (channelCount_range n).1 (channelCount_range n).2

theorem cycleLength_cycleLength (len : Int) : cycleLength (cycleLength len : Int) = cycleLength len :=
  cycleLength_of_range (cycleLength_range len).1 (cycleLength_range len).2

/-- `MM_TICK` reads its operands through the clamp only (R85). -/
theorem exec_mmTick_congr {nin nin' nout nout' : Nat} (hin : channelCount nin = channelCount nin')
    (hout : channelCount nout = channelCount nout') (s : State) :
    exec (.mmTick nin nout) s = exec (.mmTick nin' nout') s := by
  rw [exec_mmTick, exec_mmTick, hin, hout]

/-- `GO_TICK` reads its length through the clamp only (R108); the increment does not read it. -/
theorem oscillatorTick_congr {len len' : Int} (h : cycleLength len = cycleLength len') (p : Config.Params)
    (nan : Nat → Word) (freq : Word) (o : Oscillator) :
    oscillatorTick p nan len freq o = oscillatorTick p nan len' freq o := by
  simp only [oscillatorTick, tickPhase, h]

theorem exec_goTick_congr {len len' : Int} (h : cycleLength len = cycleLength len') (s : State)
    (freq : Word) : exec (.goTick len freq) s = exec (.goTick len' freq) s := by
  have htick := oscillatorTick_congr h s.params (oscillatorNans s) freq s.go
  cases hrun : oscillatorTick s.params (oscillatorNans s) len freq s.go with
  | ok o => rw [exec_goTick_ok hrun, exec_goTick_ok (htick ▸ hrun)]
  | error f => rw [exec_goTick_error hrun, exec_goTick_error (htick ▸ hrun)]

/-- Settles O47: the tick commands read their operands through the clamps, which are idempotent. -/
theorem tickOperandsAreClamped : Obligations.TickOperandsAreClamped := by
  refine ⟨channelCount_eq_ite, cycleLength_eq_ite, fun s nin nout => ?_, fun s len freq => ?_⟩
  · rw [← channelCount_eq_ite nin, ← channelCount_eq_ite nout]
    exact exec_mmTick_congr (channelCount_channelCount nin).symm (channelCount_channelCount nout).symm s
  · rw [← cycleLength_eq_ite len]
    exact exec_goTick_congr (cycleLength_cycleLength len).symm s freq

end Sys2Proof.Machine
end

section
/-! R101, R139 to R141, 70_reset_and_hazards.md: what the reset actions leave, the laws of the engines after
them first. -/

namespace Sys2Proof.Machine

/-! ### The engines after their resets -/

/-- R140, the table and the staging buffer. -/
theorem mixerReset_table (k : Fin 256) :
    coefRead Mixer.reset k = posZero ∧ Mixer.reset.stage[k] = posZero :=
  ⟨mixerReset_coeff k, mixerReset_stage k⟩

/-- R140, the channel registers and the accumulator. -/
theorem mixerReset_channels (c : Fin 16) :
    Mixer.reset.inReg[c] = posZero ∧ Mixer.reset.outReg[c] = posZero ∧ Mixer.reset.acc[c] = posZero :=
  ⟨mixerReset_inReg c, mixerReset_outReg c, mixerReset_acc c⟩

theorem vertexComp_zeroVertex (m : Comp) : vertexComp zeroVertex m = posZero := by cases m <;> rfl

theorem cellCorner_zeroCell (k : Corner) : cellCorner zeroCell k = zeroVertex := by cases k <;> rfl

/-- R33: every value of the cleared grid is +0.0. -/
theorem cleared_value (seed : Seed) (c : Fin 32) (k : Corner) (m : Comp) :
    vertexComp (cellCorner (Oscillator.cleared seed).cell[c] k) m = posZero := by
  rw [cleared_cell, Fin.getElem_fin, Vector.getElem_replicate, cellCorner_zeroCell, vertexComp_zeroVertex]

theorem rowAdvances_eq_iterate (p : Config.Params) (n : Nat) (o : Oscillator) :
    Oscillator.rowAdvances p n o = (Oscillator.rowAdvance p)^[n] o := by
  induction n generalizing o with
  | zero => rfl
  | succ n ih => exact ih (o.rowAdvance p)

/-- R103: row advances write the grid and the lanes only. -/
theorem rowAdvances_frame (p : Config.Params) (n : Nat) (o : Oscillator) :
    let o' := Oscillator.rowAdvances p n o
    o'.x = o.x ∧ o'.y = o.y ∧ o'.W = o.W ∧ o'.dt = o.dt ∧ o'.goOut = o.goOut ∧
      o'.seamPending = o.seamPending :=
  rowAdvances_induct (P := fun e => e.x = o.x ∧ e.y = o.y ∧ e.W = o.W ∧ e.dt = o.dt ∧ e.goOut = o.goOut ∧
    e.seamPending = o.seamPending) (fun _ h => h) n ⟨rfl, rfl, rfl, rfl, rfl, rfl⟩

/-- R99: 32 LFSR steps per row. -/
theorem rowAdvances_lane (p : Config.Params) (n : Nat) (o : Oscillator) (j : Fin 8) :
    (Oscillator.rowAdvances p n o).lfsr[j] = lfsrSteps (32 * n) o.lfsr[j] := by
  induction n generalizing o with
  | zero => rfl
  | succ n ih =>
    have hrow : (o.rowAdvance p).lfsr[j] = lfsrSteps 32 o.lfsr[j] := genRowLanes_getElem o.lfsr j
    rw [Oscillator.rowAdvances, ih, hrow, ← lfsrSteps_add, Nat.mul_succ, Nat.add_comm]

/-! ### The reset actions as steps -/

/-- R101: admitted is every seed without a zero lane. -/
theorem seedAdmitted_iff {seed : Seed} : seedAdmitted seed = true ↔ LanesNonzero seed := by
  refine ⟨lanesNonzero_of_seedAdmitted, fun h => ?_⟩
  rw [seedAdmitted, List.all_eq_true]
  intro v hv
  obtain ⟨j, hj, rfl⟩ := Vector.mem_iff_getElem.1 (Vector.mem_toList_iff.1 hv)
  simpa using h ⟨j, hj⟩

theorem resetGo_of_lanesNonzero {seed : Seed} (h : LanesNonzero seed) (s : State) :
    resetGo seed s = .next { s with go := Oscillator.reset s.params seed } :=
  if_pos (seedAdmitted_iff.2 h)

theorem resetGo_of_zero_lane {seed : Seed} (h : ∃ j : Fin 8, seed[j] = 0#16) (s : State) :
    resetGo seed s = .refused .seedNotAdmitted := by
  obtain ⟨j, hj⟩ := h
  exact if_neg fun hseed => seedAdmitted_iff.1 hseed j hj

section
variable {s : State} {seed : Seed} {rest : List PortItem}

theorem step_of_resetMm (h : s.port = .resetMm :: rest) : step s = .next (resetMm (takePort rest s)) := by
  rw [step, h]; rfl

theorem step_of_resetGo (h : s.port = .resetGo seed :: rest) : step s = resetGo seed (takePort rest s) := by
  rw [step, h]; rfl

theorem step_of_powerUp (h : s.port = .powerUp seed :: rest) :
    step s = resetGo seed (resetMm (takePort rest s)) := by
  rw [step, h]; rfl

end

/-- Settles O23: the step is the reset action, which replaces the mixer by its reset state. -/
theorem resetMmClearsTheMixerOnly : Obligations.ResetMmClearsTheMixerOnly :=
  fun _ _ hport => ⟨_, step_of_resetMm hport, mixerReset_table, mixerReset_channels, mixerReset_stageCnt,
    ⟨rfl, rfl⟩, rfl, rfl⟩

/-- Settles O24: the prefill is an iterated row advance, which writes the grid and the lanes only, and
power-up is the same oscillator reset on the machine whose mixer was reset. -/
theorem resetGoSeedsTheOscillatorOnly : Obligations.ResetGoSeedsTheOscillatorOnly := by
  constructor
  · intro s seed rest hport
    have hstep := step_of_resetGo hport
    refine ⟨fun hseed => ?_, fun hzero => hstep.trans (resetGo_of_zero_lane hzero _)⟩
    obtain ⟨hx, hy, hW, hdt, hout, hseam⟩ :=
      rowAdvances_frame s.params s.params.prefillRows.val (Oscillator.cleared seed)
    refine ⟨_, hstep.trans (resetGo_of_lanesNonzero hseed _), rowAdvances_eq_iterate _ _ _,
      fun c k m => ⟨cleared_value seed c k m, fun hrows => ?_⟩, rowAdvances_lane _ _ _,
      hx, hy, hW, hdt, hout, hseam, ⟨rfl, rfl⟩, rfl, rfl⟩
    rw [takePort_params, Oscillator.reset, hrows]
    exact cleared_value seed c k m
  · intro s seed rest hport
    have hstep := step_of_powerUp hport
    refine ⟨fun hseed => ?_, fun hzero => hstep.trans (resetGo_of_zero_lane hzero _)⟩
    exact ⟨_, _, hstep.trans (resetGo_of_lanesNonzero hseed _),
      (step_of_resetGo rfl).trans (resetGo_of_lanesNonzero hseed _), rfl, mixerReset_table,
      mixerReset_channels, mixerReset_stageCnt, rfl, rfl, rfl, rfl⟩

end Sys2Proof.Machine
end

section
/-! R33, R34, R36, R37, 70_reset_and_hazards.md R141: the state after power-up is legal. -/

namespace Sys2Proof.Machine

/-- A reset establishes every invariant of the engine: the prefill is row advances. -/
theorem OscillatorInvariant.reset {p : Config.Params} {P : Oscillator → Prop} (inv : OscillatorInvariant p P)
    {seed : Seed} (h : LanesNonzero seed) : P (Oscillator.reset p seed) :=
  rowAdvances_induct inv.rowAdvance _ (inv.cleared seed (seedAdmitted_iff.2 h))

/-- At the full cycle length the neighbour of a row advance is that of R34, with or without a reseam: the
in-row neighbour of cell 31 is cell 0. -/
theorem rowNeighbour_thirtyTwo (p : Config.Params) (c : Fin 32) : rowNeighbour p 32 c = nextCell 32 c := by
  have hnext : ∀ c, nextCell 32 c = cellIdx (c.val + 1) := by decide
  rw [hnext, rowNeighbour, if_neg fun ⟨_, hlt, _⟩ => Nat.lt_irrefl 32 hlt]

/-- R34 at reset holds for either `RESEAM_ON_ROW_ADVANCE`, because `W` is 32 there. -/
theorem sharedEdges_reset (p : Config.Params) (seed : Seed) :
    SharedEdges (Oscillator.reset p seed).W (Oscillator.reset p seed).cell := by
  obtain ⟨hW, hedges⟩ : (Oscillator.reset p seed).W = 32 ∧
      SharedEdges 32 (Oscillator.reset p seed).cell := by
    refine rowAdvances_induct (P := fun o => o.W = 32 ∧ SharedEdges 32 o.cell) ?_ _ ⟨cleared_W seed, ?_⟩
    · rintro o ⟨hW, -⟩
      refine ⟨hW, sharedEdges_iff.2 fun c => ?_⟩
      rw [← rowNeighbour_thirtyTwo p, Oscillator.rowAdvance, hW]
      exact rightOf_rowAdvanceGrid p 32 o.lfsr o.cell c
    · intro c
      simp only [cleared_cell, Fin.getElem_fin, Vector.getElem_replicate]
      exact ⟨rfl, rfl⟩
  rw [hW]
  exact hedges

/-- Settles O40: each clause is an invariant that the reset establishes. -/
theorem everyPowerUpIsLegal : Obligations.EveryPowerUpIsLegal := by
  intro p seed htable hseed
  exact ⟨rowAdvances_induct (P := PhaseLegal) (fun _ h => h) _ (phaseLegal_cleared seed),
    (lanesNonzero_invariant p).reset hseed, sharedEdges_reset p seed,
    (cellsInUnit_invariant htable).reset hseed, Nat.zero_le _, (yIsZero_invariant p).reset hseed⟩

/-- R97: the default table lies in [-1, 1]. -/
theorem tableLegal_default : TableLegal Config.Params.default.sineLut := by decide

theorem lanesNonzero_seedA : LanesNonzero Config.seedA := by decide

/-- R9, R113: the default increment bound is 32.0. -/
theorem maxIncDefault_default : MaxIncDefault Config.Params.default := by decide

/-- Settles O39: the reset state is a power-up with the default table and `SEED_A`. -/
theorem resetStateIsLegal : Obligations.ResetStateIsLegal := by
  obtain ⟨hphase, hlanes, hedges, hcells, hstage, hy⟩ :=
    everyPowerUpIsLegal Config.Params.default Config.seedA tableLegal_default lanesNonzero_seedA
  exact ⟨hphase, hlanes, hedges, tableLegal_default, hcells, hstage, hy, maxIncDefault_default⟩

end Sys2Proof.Machine
end

section
/-! R72 to R74, 70_reset_and_hazards.md R140: a cleared table mutes the mixer. A product with +0.0 is a
zero of either sign, and adding it to +0.0 leaves +0.0. -/

namespace Sys2Proof.Machine

theorem flush_posZero (ftz : Bool) : flush ftz posZero = posZero := flush_signedZero ftz false

/-- +0.0 times a finite value is a zero, with that value's sign. -/
theorem fmul_posZero_left (ftz : Bool) (nan : Word) {v : Word} (hv : isFinite v = true) :
    fmul ftz nan posZero v = signedZero (fSign (flush ftz v)) := by
  have hsign : (fSign posZero != fSign (flush ftz v)) = fSign (flush ftz v) := Bool.false_bne _
  rw [fmul, flush_posZero, mulCore_finite nan (by decide) (isFinite_flush ftz hv), hsign, fVal_posZero,
    zero_mul, roundSigned, if_pos rfl, flush_signedZero]

theorem fadd_posZero_signedZero (ftz : Bool) (nan : Word) (neg : Bool) :
    fadd ftz nan posZero (signedZero neg) = posZero := by
  rw [fadd_posZero_left nan (isNaN_eq_false_of_isFinite (isFinite_signedZero neg)) (flush_signedZero ftz neg)]
  cases neg <;> rfl

/-- The fused form: the exact result is 0, and the accumulator's sign makes it +0.0. -/
theorem ffma_posZero_posZero (ftz : Bool) (nan : Word) {v : Word} (hv : isFinite v = true) :
    ffma ftz nan posZero v posZero = posZero := by
  have hsign : fSign posZero = false := by decide
  rw [ffma, flush_posZero, fmaCore_finite nan (by decide) (isFinite_flush ftz hv) (by decide), fVal_posZero,
    zero_mul, zero_mul, add_zero, hsign, Bool.and_false, roundSigned, if_pos rfl]
  exact flush_posZero ftz

/-- A `mac` with coefficient +0.0 keeps an accumulator of +0.0, for either `FUSED_MAC` (R73). -/
theorem mac_posZero_posZero (p : Config.Params) (nan : Nat → Word) (site : Nat) {v : Word}
    (hv : isFinite v = true) : mac p nan site posZero posZero v = posZero := by
  unfold mac
  split
  · exact ffma_posZero_posZero p.ftz _ hv
  · rw [fmul_posZero_left p.ftz _ hv, fadd_posZero_signedZero]

/-- R74: with `ACC_INIT = ZERO` a lane over a zero table and finite inputs stays at +0.0. -/
theorem laneSum_eq_posZero {p : Config.Params} (hacc : p.accInit = .zero) (nan : Nat → Word) {m : Mixer}
    (hcoeff : ∀ k : Fin 256, coefRead m k = posZero) (o : Fin 16) {n : Nat} (hn : n ≤ 16)
    (hin : ∀ c : Fin 16, c.val < n → isFinite m.inReg[c] = true) : laneSum p nan m o n = posZero := by
  induction n with
  | zero => rw [laneSum_zero, laneInit, hacc]
  | succ n ih =>
    have hfirst : firstInput p ≤ n := by rw [firstInput, hacc]; exact Nat.zero_le n
    have hsum := ih (by omega) fun c hc => hin c (by omega)
    rw [laneSum_succ p nan m hn hfirst, hsum, laneMac, coeffAt, hcoeff]
    exact mac_posZero_posZero p nan _ (hin ⟨n, hn⟩ (Nat.lt_succ_self n))

/-- Settles O48: an active output is its lane's running sum. -/
theorem zeroTableTickOutputsZero : Obligations.ZeroTableTickOutputsZero := by
  intro s nin nout hacc hcoeff hin
  refine ⟨_, exec_mmTick nin nout s, fun o ho => ?_⟩
  rw [respond_mm, mixerTick_outReg, tickOut_getElem, if_pos ho, tickAcc_getElem]
  exact laneSum_eq_posZero hacc _ hcoeff o (channelCount_range nin).2 hin

end Sys2Proof.Machine
end

section
/-! R138, R139, 60_exceptions.md and 70_reset_and_hazards.md (logs 8 and 9): the ports whose front is no
transaction and no reset action of its own. -/

namespace Sys2Proof.Machine

/-! ### The front of the port -/

theorem fetch_of_dataWordMissing {w : Word} (h : carriesData w = true) : fetch [.word w] = .idle := by
  simp only [fetch, h, if_true]

/-- Any reset action in the place of the data word breaks the transaction. -/
theorem fetch_of_resetForDataWord {w : Word} {item : PortItem} (h : carriesData w = true)
    (hitem : item = .resetMm ∨ (∃ seed, item = .resetGo seed) ∨ ∃ seed, item = .powerUp seed)
    (rest : List PortItem) : fetch (.word w :: item :: rest) = .brokenTransaction := by
  obtain rfl | ⟨seed, rfl⟩ | ⟨seed, rfl⟩ := hitem <;> simp only [fetch, h, if_true]

/-! ### The step -/

theorem step_of_idle {s : State} (h : fetch s.port = .idle) : step s = .next s := by
  rw [step, h]

theorem step_of_brokenTransaction {s : State} (h : fetch s.port = .brokenTransaction) :
    step s = .refused .resetDuringTransaction := by
  rw [step, h]

/-- Settles O25: a port that is empty or waits for a data word is idle, and a reset action where that
word belongs breaks the transaction. -/
theorem idlePortKeepsTheState : Obligations.IdlePortKeepsTheState := by
  refine ⟨fun s hport => ?_, fun s w hc hport => ?_, fun s w item rest hc hitem hport => ?_⟩
  · exact step_of_idle (congrArg fetch hport)
  · exact step_of_idle (hport ▸ fetch_of_dataWordMissing hc)
  · exact step_of_brokenTransaction (hport ▸ fetch_of_resetForDataWord hc hitem rest)

end Sys2Proof.Machine
end

section
/-! R64, 95_test_vectors.md sections 2.1 and 2.2: words of the test vectors. -/

namespace Sys2Proof.Machine

/-- The words that a well-formed command encodes to decode to it (R62 to R65). -/
theorem decode_of_encode_eq {i : Instr} {ws : List Word} (h : WellFormed i) (hws : encode i = ws) :
    decode ws = .command i [] := by
  have hdecode := decodeOfEncodeIsTheCommand i [] h
  rwa [List.append_nil, hws] at hdecode

/-- A set reserved bit in a row without a data word makes the one word illegal (R66). -/
theorem decode_of_reservedBitSet {w : Word} {op : Opcode} (h : opcodeOfNumber (opcField w) = some op)
    (hc : opcodeCarriesData op = false) (hm : w &&& maskWord op ≠ matchWord op) (rest : List Word) :
    decode (w :: rest) = .illegal (.reservedBitSet op) rest :=
  (decode_of_not_carriesData ((carriesData_of_opcField h).trans hc) rest).trans
    (decodedFrom_error (decodeCommand_of_not_matches h hm) rest)

/-- Settles O27: the five legal vectors are the encodings of their commands, and EN-6 sets bit 10, which
`MM_TICK`'s row reserves. -/
theorem knownWordsDecode : Obligations.KnownWordsDecode := by
  refine ⟨?en3, ?en5, ?en9, ?en10, ?ca10, ?en6⟩
  case en6 => exact decode_of_reservedBitSet rfl rfl (by decide) []
  all_goals exact decode_of_encode_eq (by decide) (by decide)

end Sys2Proof.Machine
end
